-- ==== Sys2Proof/Word.lean ====
section
/-! DEFINITION. The word types of the engine (`00_scope.md` R7, R8; `10_state.md` R15, R21). Only the types: every
operation on them stands in `Decode.lean` or under `Machine/`. -/

namespace Sys2Proof

/-- The 64 bits of an operand register (R15). Read as signed by `BitVec.toInt` (the spec's `int`) and as unsigned by
`BitVec.toNat` (the spec's `uint`), R9. -/
abbrev Word := BitVec 64

/-- A byte of TBUF or of a window access (R24, R30). -/
abbrev Byte := BitVec 8

/-- The 32 bits of a command word (R42). -/
abbrev CommandWord := BitVec 32

/-- The number of an operand register, X0..X15 (R15). -/
abbrev Reg := Fin 16

/-- The scale field `sc` of a command word: 0 to 31, of which only 0 to 18 are legal scales (R46). -/
abbrev ScaleField := Fin 32

end Sys2Proof
end

