-- ==== Sys2Proof/Syntax.lean ====
section
/-! DEFINITION. The commands of the engine: one constructor per row of `spec/opcode_table.json` (`30_encoding.md` R51),
each with exactly the fields its opcode uses, in the order rd, rs1, rs2, rc, rm, ov, sc, n. -/

namespace Sys2Proof

/-- The eight rounding modes, in the order of the `rm` codes (R44); what each does is R85. -/
inductive RoundingMode where
  | up | down | ceiling | floor | halfUp | halfDown | halfEven | unnecessary
  deriving DecidableEq, Repr, Inhabited

/-- The two overflow modes of the `ov` field (R45). -/
inductive OverflowMode where
  | unchecked | checked
  deriving DecidableEq, Repr, Inhabited

/-- The sign of a DIV128 quotient, the field `n`: POS (0) or NEG (1) (R47, R55). -/
inductive QuotientSign where
  | pos | neg
  deriving DecidableEq, Repr, Inhabited

/-- A command (R51). -/
inductive Instr where
  | add64 (rd rs1 rs2 : Reg) (ov : OverflowMode)
  | sub64 (rd rs1 rs2 : Reg) (ov : OverflowMode)
  | mul64 (rd rs1 rs2 : Reg) (ov : OverflowMode)
  | div64 (rd rs1 rs2 : Reg) (ov : OverflowMode)
  | neg64 (rd rs1 : Reg) (ov : OverflowMode)
  | abs64 (rd rs1 : Reg) (ov : OverflowMode)
  | ucmp64 (rd rs1 rs2 : Reg)
  | udiv64 (rd rs1 rs2 : Reg)
  | wmuls (rd rs1 rs2 rc : Reg)
  | wmulu (rd rs1 rs2 rc : Reg)
  | div128 (rd rs1 rs2 rc : Reg) (rm : RoundingMode) (n : QuotientSign)
  | rclass (rd rs1 rs2 : Reg)
  | rinc (rd rs1 rs2 rc : Reg) (rm : RoundingMode)
  | sfact (rd : Reg) (sc : ScaleField)
  | snlz (rd : Reg) (sc : ScaleField)
  | smaxi (rd : Reg) (sc : ScaleField)
  | smini (rd : Reg) (sc : ScaleField)
  | smul (rd rs1 : Reg) (ov : OverflowMode) (sc : ScaleField)
  | sdiv (rd rs1 : Reg) (sc : ScaleField)
  | smod (rd rs1 : Reg) (sc : ScaleField)
  | smulhi (rd rs1 : Reg) (sc : ScaleField)
  | smullo (rd rs1 : Reg) (sc : ScaleField)
  | dadd (rd rs1 rs2 : Reg) (rm : RoundingMode) (ov : OverflowMode) (sc : ScaleField)
  | dsub (rd rs1 rs2 : Reg) (rm : RoundingMode) (ov : OverflowMode) (sc : ScaleField)
  | dmul (rd rs1 rs2 : Reg) (rm : RoundingMode) (ov : OverflowMode) (sc : ScaleField)
  | dmulu (rd rs1 rs2 rc : Reg) (rm : RoundingMode) (ov : OverflowMode) (sc : ScaleField)
  | ddiv (rd rs1 rs2 : Reg) (rm : RoundingMode) (ov : OverflowMode) (sc : ScaleField)
  | ddivu (rd rs1 rs2 rc : Reg) (rm : RoundingMode) (ov : OverflowMode) (sc : ScaleField)
  | dsqr (rd rs1 : Reg) (rm : RoundingMode) (ov : OverflowMode) (sc : ScaleField)
  | dsqrt (rd rs1 : Reg) (rm : RoundingMode) (ov : OverflowMode) (sc : ScaleField)
  | dpow (rd rs1 rs2 : Reg) (rm : RoundingMode) (ov : OverflowMode) (sc : ScaleField)
  | davg (rd rs1 rs2 : Reg) (rm : RoundingMode) (ov : OverflowMode) (sc : ScaleField)
  | dinv (rd rs1 : Reg) (rm : RoundingMode) (ov : OverflowMode) (sc : ScaleField)
  | dshl (rd rs1 rs2 : Reg) (rm : RoundingMode) (ov : OverflowMode) (sc : ScaleField)
  | dshr (rd rs1 rs2 : Reg) (rm : RoundingMode) (ov : OverflowMode) (sc : ScaleField)
  | dround (rd rs1 rs2 : Reg) (rm : RoundingMode) (ov : OverflowMode) (sc : ScaleField)
  | dcmp (rd rs1 rs2 : Reg) (rm : RoundingMode) (ov : OverflowMode) (sc : ScaleField)
  | dcmpu (rd rs1 rs2 rc : Reg) (rm : RoundingMode) (ov : OverflowMode) (sc : ScaleField)
  | todbl (rd rs1 : Reg) (rm : RoundingMode) (sc : ScaleField)
  | toflt (rd rs1 : Reg) (rm : RoundingMode) (sc : ScaleField)
  | fromdbl (rd rs1 : Reg) (rm : RoundingMode) (sc : ScaleField)
  | fromflt (rd rs1 : Reg) (rm : RoundingMode) (sc : ScaleField)
  | parse (rd : Reg) (rm : RoundingMode) (sc : ScaleField)
  | format (rs1 : Reg) (sc : ScaleField)
  deriving DecidableEq, Repr

end Sys2Proof
end

