-- ==== Sys2Proof/WellFormed.lean ====
section
/-! DEFINITION. Which commands are encodings of the engine. The types of the fields already bound every field (4-bit
register numbers, the eight `rm` codes, the 5-bit `sc`); the one check left is `30_encoding.md` R52 item 3. A scale field
of 19 to 31 is well formed: it is no illegal encoding (R46). -/

namespace Sys2Proof

/-- R49, R52 item 3: the two destinations of WMULS and WMULU differ. -/
def Instr.wellFormed : Instr → Bool
  | .wmuls rd _ _ rc => rd != rc
  | .wmulu rd _ _ rc => rd != rc
  | .add64 .. | .sub64 .. | .mul64 .. | .div64 .. | .neg64 .. | .abs64 .. | .ucmp64 .. | .udiv64 .. => true
  | .div128 .. | .rclass .. | .rinc .. => true
  | .sfact .. | .snlz .. | .smaxi .. | .smini .. | .smul .. | .sdiv .. | .smod .. | .smulhi .. | .smullo .. => true
  | .dadd .. | .dsub .. | .dmul .. | .dmulu .. | .ddiv .. | .ddivu .. | .dsqr .. | .dsqrt .. | .dpow .. => true
  | .davg .. | .dinv .. | .dshl .. | .dshr .. | .dround .. | .dcmp .. | .dcmpu .. => true
  | .todbl .. | .toflt .. | .fromdbl .. | .fromflt .. | .parse .. | .format .. => true

end Sys2Proof
end

