-- ==== Sys2Proof/Decode.lean ====
section
/-! DEFINITION. The command word's fields, the decoder and the encoder (`30_encoding.md`). `decode` is R53, total on all
2^32 words, rejecting by name; `encode` writes the word of a command, unused fields zero. -/

namespace Sys2Proof

/-- The three ILLEGAL_COMMAND subcodes, in the order they are checked (R52). -/
inductive Illegal where
  /-- `op` is not a row of the opcode map (R52 item 1). -/
  | unassignedOpcode
  /-- A field the opcode does not use is not 0 (R52 item 2). -/
  | reservedField
  /-- WMULS or WMULU with rd = rc (R52 item 3). -/
  | destConflict
  deriving DecidableEq, Repr

/-- The nine fields of a command word as they stand in it (R43). -/
structure Fields where
  op : BitVec 6
  rd : BitVec 4 := 0
  rs1 : BitVec 4 := 0
  rs2 : BitVec 4 := 0
  rc : BitVec 4 := 0
  rm : BitVec 3 := 0
  ov : BitVec 1 := 0
  sc : BitVec 5 := 0
  n : BitVec 1 := 0
  deriving DecidableEq, Repr

/-- R43: the field positions. -/
def Fields.unpack (w : CommandWord) : Fields where
  op := w.extractLsb' 26 6
  rd := w.extractLsb' 22 4
  rs1 := w.extractLsb' 18 4
  rs2 := w.extractLsb' 14 4
  rc := w.extractLsb' 10 4
  rm := w.extractLsb' 7 3
  ov := w.extractLsb' 6 1
  sc := w.extractLsb' 1 5
  n := w.extractLsb' 0 1

/-- The word with the given fields: `op<<26 | rd<<22 | rs1<<18 | rs2<<14 | rc<<10 | rm<<7 | ov<<6 | sc<<1 | n` (R43). -/
def Fields.pack (f : Fields) : CommandWord :=
  (f.op.setWidth 32 <<< 26) ||| (f.rd.setWidth 32 <<< 22) ||| (f.rs1.setWidth 32 <<< 18) |||
    (f.rs2.setWidth 32 <<< 14) ||| (f.rc.setWidth 32 <<< 10) ||| (f.rm.setWidth 32 <<< 7) |||
    (f.ov.setWidth 32 <<< 6) ||| (f.sc.setWidth 32 <<< 1) ||| f.n.setWidth 32

/-- The register a 4-bit register field names (R43, R48). -/
def regOfBits (b : BitVec 4) : Reg := ⟨b.toNat, b.isLt⟩

/-- The 4-bit field that names a register (R43). -/
def regBits (r : Reg) : BitVec 4 := BitVec.ofNat 4 r.val

/-- The scale field's number, 0 to 31 (R46). -/
def scaleOfBits (b : BitVec 5) : ScaleField := ⟨b.toNat, b.isLt⟩

/-- The 5-bit field of a scale (R46). -/
def scaleBits (s : ScaleField) : BitVec 5 := BitVec.ofNat 5 s.val

/-- R44: the code of a rounding mode. -/
def RoundingMode.bits : RoundingMode → BitVec 3
  | .up => 0 | .down => 1 | .ceiling => 2 | .floor => 3
  | .halfUp => 4 | .halfDown => 5 | .halfEven => 6 | .unnecessary => 7

/-- R44: the rounding mode of a code; all eight codes are legal. -/
def roundingOfBits (b : BitVec 3) : RoundingMode :=
  match b.toNat with
  | 0 => .up | 1 => .down | 2 => .ceiling | 3 => .floor
  | 4 => .halfUp | 5 => .halfDown | 6 => .halfEven | _ => .unnecessary

/-- R45: 0 is UNCHECKED, 1 is CHECKED. -/
def OverflowMode.bits : OverflowMode → BitVec 1
  | .unchecked => 0 | .checked => 1

/-- R45: the overflow mode of a code. -/
def overflowOfBits (b : BitVec 1) : OverflowMode :=
  if b = 0 then .unchecked else .checked

/-- R47: n = 0 is a non-negative quotient, n = 1 a negative one. -/
def QuotientSign.bits : QuotientSign → BitVec 1
  | .pos => 0 | .neg => 1

/-- R47: the quotient's sign from the bit `n`. -/
def signOfBits (b : BitVec 1) : QuotientSign :=
  if b = 0 then .pos else .neg

/-- The fields read as operands. -/
def Fields.rdReg (f : Fields) : Reg := regOfBits f.rd
def Fields.rs1Reg (f : Fields) : Reg := regOfBits f.rs1
def Fields.rs2Reg (f : Fields) : Reg := regOfBits f.rs2
def Fields.rcReg (f : Fields) : Reg := regOfBits f.rc
def Fields.rmMode (f : Fields) : RoundingMode := roundingOfBits f.rm
def Fields.ovMode (f : Fields) : OverflowMode := overflowOfBits f.ov
def Fields.scField (f : Fields) : ScaleField := scaleOfBits f.sc
def Fields.nSign (f : Fields) : QuotientSign := signOfBits f.n

/-- Which fields an opcode uses (R50; the column "fields used" of R51). -/
structure FieldUse where
  rd : Bool := false
  rs1 : Bool := false
  rs2 : Bool := false
  rc : Bool := false
  rm : Bool := false
  ov : Bool := false
  sc : Bool := false
  n : Bool := false
  deriving DecidableEq, Repr

/-- R50: the table's `mask`: the opcode bits and every unused field. -/
def FieldUse.mask (u : FieldUse) : CommandWord :=
  Fields.pack
    { op := BitVec.allOnes 6
      rd := if u.rd then 0 else BitVec.allOnes 4
      rs1 := if u.rs1 then 0 else BitVec.allOnes 4
      rs2 := if u.rs2 then 0 else BitVec.allOnes 4
      rc := if u.rc then 0 else BitVec.allOnes 4
      rm := if u.rm then 0 else BitVec.allOnes 3
      ov := if u.ov then 0 else BitVec.allOnes 1
      sc := if u.sc then 0 else BitVec.allOnes 5
      n := if u.n then 0 else BitVec.allOnes 1 }

/-- R50: every field the opcode does not use is 0. -/
def Fields.unusedZero (f : Fields) (u : FieldUse) : Bool :=
  (u.rd || f.rd == 0) && (u.rs1 || f.rs1 == 0) && (u.rs2 || f.rs2 == 0) && (u.rc || f.rc == 0) &&
    (u.rm || f.rm == 0) && (u.ov || f.ov == 0) && (u.sc || f.sc == 0) && (u.n || f.n == 0)

/-- A row of the opcode map: the fields the opcode uses, and the command its fields give. -/
structure OpcodeRow where
  use : FieldUse
  build : Fields → Instr

/-- The opcode map (R51), by opcode number; every other opcode is unassigned (R52). -/
def opcodeRow (op : Nat) : Option OpcodeRow :=
  match op with
  | 0x01 => some ⟨{ rd := true, rs1 := true, rs2 := true, ov := true }, fun f => .add64 f.rdReg f.rs1Reg f.rs2Reg f.ovMode⟩
  | 0x02 => some ⟨{ rd := true, rs1 := true, rs2 := true, ov := true }, fun f => .sub64 f.rdReg f.rs1Reg f.rs2Reg f.ovMode⟩
  | 0x03 => some ⟨{ rd := true, rs1 := true, rs2 := true, ov := true }, fun f => .mul64 f.rdReg f.rs1Reg f.rs2Reg f.ovMode⟩
  | 0x04 => some ⟨{ rd := true, rs1 := true, rs2 := true, ov := true }, fun f => .div64 f.rdReg f.rs1Reg f.rs2Reg f.ovMode⟩
  | 0x05 => some ⟨{ rd := true, rs1 := true, ov := true }, fun f => .neg64 f.rdReg f.rs1Reg f.ovMode⟩
  | 0x06 => some ⟨{ rd := true, rs1 := true, ov := true }, fun f => .abs64 f.rdReg f.rs1Reg f.ovMode⟩
  | 0x07 => some ⟨{ rd := true, rs1 := true, rs2 := true }, fun f => .ucmp64 f.rdReg f.rs1Reg f.rs2Reg⟩
  | 0x08 => some ⟨{ rd := true, rs1 := true, rs2 := true }, fun f => .udiv64 f.rdReg f.rs1Reg f.rs2Reg⟩
  | 0x09 => some ⟨{ rd := true, rs1 := true, rs2 := true, rc := true }, fun f => .wmuls f.rdReg f.rs1Reg f.rs2Reg f.rcReg⟩
  | 0x0A => some ⟨{ rd := true, rs1 := true, rs2 := true, rc := true }, fun f => .wmulu f.rdReg f.rs1Reg f.rs2Reg f.rcReg⟩
  | 0x0B => some ⟨{ rd := true, rs1 := true, rs2 := true, rc := true, rm := true, n := true }, fun f => .div128 f.rdReg f.rs1Reg f.rs2Reg f.rcReg f.rmMode f.nSign⟩
  | 0x0C => some ⟨{ rd := true, rs1 := true, rs2 := true }, fun f => .rclass f.rdReg f.rs1Reg f.rs2Reg⟩
  | 0x0D => some ⟨{ rd := true, rs1 := true, rs2 := true, rc := true, rm := true }, fun f => .rinc f.rdReg f.rs1Reg f.rs2Reg f.rcReg f.rmMode⟩
  | 0x10 => some ⟨{ rd := true, sc := true }, fun f => .sfact f.rdReg f.scField⟩
  | 0x11 => some ⟨{ rd := true, sc := true }, fun f => .snlz f.rdReg f.scField⟩
  | 0x12 => some ⟨{ rd := true, sc := true }, fun f => .smaxi f.rdReg f.scField⟩
  | 0x13 => some ⟨{ rd := true, sc := true }, fun f => .smini f.rdReg f.scField⟩
  | 0x14 => some ⟨{ rd := true, rs1 := true, ov := true, sc := true }, fun f => .smul f.rdReg f.rs1Reg f.ovMode f.scField⟩
  | 0x15 => some ⟨{ rd := true, rs1 := true, sc := true }, fun f => .sdiv f.rdReg f.rs1Reg f.scField⟩
  | 0x16 => some ⟨{ rd := true, rs1 := true, sc := true }, fun f => .smod f.rdReg f.rs1Reg f.scField⟩
  | 0x17 => some ⟨{ rd := true, rs1 := true, sc := true }, fun f => .smulhi f.rdReg f.rs1Reg f.scField⟩
  | 0x18 => some ⟨{ rd := true, rs1 := true, sc := true }, fun f => .smullo f.rdReg f.rs1Reg f.scField⟩
  | 0x20 => some ⟨{ rd := true, rs1 := true, rs2 := true, rm := true, ov := true, sc := true }, fun f => .dadd f.rdReg f.rs1Reg f.rs2Reg f.rmMode f.ovMode f.scField⟩
  | 0x21 => some ⟨{ rd := true, rs1 := true, rs2 := true, rm := true, ov := true, sc := true }, fun f => .dsub f.rdReg f.rs1Reg f.rs2Reg f.rmMode f.ovMode f.scField⟩
  | 0x22 => some ⟨{ rd := true, rs1 := true, rs2 := true, rm := true, ov := true, sc := true }, fun f => .dmul f.rdReg f.rs1Reg f.rs2Reg f.rmMode f.ovMode f.scField⟩
  | 0x23 => some ⟨{ rd := true, rs1 := true, rs2 := true, rc := true, rm := true, ov := true, sc := true }, fun f => .dmulu f.rdReg f.rs1Reg f.rs2Reg f.rcReg f.rmMode f.ovMode f.scField⟩
  | 0x24 => some ⟨{ rd := true, rs1 := true, rs2 := true, rm := true, ov := true, sc := true }, fun f => .ddiv f.rdReg f.rs1Reg f.rs2Reg f.rmMode f.ovMode f.scField⟩
  | 0x25 => some ⟨{ rd := true, rs1 := true, rs2 := true, rc := true, rm := true, ov := true, sc := true }, fun f => .ddivu f.rdReg f.rs1Reg f.rs2Reg f.rcReg f.rmMode f.ovMode f.scField⟩
  | 0x26 => some ⟨{ rd := true, rs1 := true, rm := true, ov := true, sc := true }, fun f => .dsqr f.rdReg f.rs1Reg f.rmMode f.ovMode f.scField⟩
  | 0x27 => some ⟨{ rd := true, rs1 := true, rm := true, ov := true, sc := true }, fun f => .dsqrt f.rdReg f.rs1Reg f.rmMode f.ovMode f.scField⟩
  | 0x28 => some ⟨{ rd := true, rs1 := true, rs2 := true, rm := true, ov := true, sc := true }, fun f => .dpow f.rdReg f.rs1Reg f.rs2Reg f.rmMode f.ovMode f.scField⟩
  | 0x29 => some ⟨{ rd := true, rs1 := true, rs2 := true, rm := true, ov := true, sc := true }, fun f => .davg f.rdReg f.rs1Reg f.rs2Reg f.rmMode f.ovMode f.scField⟩
  | 0x2A => some ⟨{ rd := true, rs1 := true, rm := true, ov := true, sc := true }, fun f => .dinv f.rdReg f.rs1Reg f.rmMode f.ovMode f.scField⟩
  | 0x2B => some ⟨{ rd := true, rs1 := true, rs2 := true, rm := true, ov := true, sc := true }, fun f => .dshl f.rdReg f.rs1Reg f.rs2Reg f.rmMode f.ovMode f.scField⟩
  | 0x2C => some ⟨{ rd := true, rs1 := true, rs2 := true, rm := true, ov := true, sc := true }, fun f => .dshr f.rdReg f.rs1Reg f.rs2Reg f.rmMode f.ovMode f.scField⟩
  | 0x2D => some ⟨{ rd := true, rs1 := true, rs2 := true, rm := true, ov := true, sc := true }, fun f => .dround f.rdReg f.rs1Reg f.rs2Reg f.rmMode f.ovMode f.scField⟩
  | 0x2E => some ⟨{ rd := true, rs1 := true, rs2 := true, rm := true, ov := true, sc := true }, fun f => .dcmp f.rdReg f.rs1Reg f.rs2Reg f.rmMode f.ovMode f.scField⟩
  | 0x2F => some ⟨{ rd := true, rs1 := true, rs2 := true, rc := true, rm := true, ov := true, sc := true }, fun f => .dcmpu f.rdReg f.rs1Reg f.rs2Reg f.rcReg f.rmMode f.ovMode f.scField⟩
  | 0x30 => some ⟨{ rd := true, rs1 := true, rm := true, sc := true }, fun f => .todbl f.rdReg f.rs1Reg f.rmMode f.scField⟩
  | 0x31 => some ⟨{ rd := true, rs1 := true, rm := true, sc := true }, fun f => .toflt f.rdReg f.rs1Reg f.rmMode f.scField⟩
  | 0x32 => some ⟨{ rd := true, rs1 := true, rm := true, sc := true }, fun f => .fromdbl f.rdReg f.rs1Reg f.rmMode f.scField⟩
  | 0x33 => some ⟨{ rd := true, rs1 := true, rm := true, sc := true }, fun f => .fromflt f.rdReg f.rs1Reg f.rmMode f.scField⟩
  | 0x34 => some ⟨{ rd := true, rm := true, sc := true }, fun f => .parse f.rdReg f.rmMode f.scField⟩
  | 0x35 => some ⟨{ rs1 := true, sc := true }, fun f => .format f.rs1Reg f.scField⟩
  | _ => none

/-- R53: the opcode first, then the unused fields, then the destination pair of WMULS and WMULU. -/
def decode (w : CommandWord) : Except Illegal Instr :=
  let f := Fields.unpack w
  match opcodeRow f.op.toNat with
  | none => .error .unassignedOpcode
  | some row =>
    if f.unusedZero row.use then
      if (row.build f).wellFormed then .ok (row.build f) else .error .destConflict
    else .error .reservedField

/-- The fields of a command's word: its opcode and operands, every unused field 0 (R50, R51). -/
def Instr.fields : Instr → Fields
  | .add64 rd rs1 rs2 ov => { op := 0x01, rd := regBits rd, rs1 := regBits rs1, rs2 := regBits rs2, ov := ov.bits }
  | .sub64 rd rs1 rs2 ov => { op := 0x02, rd := regBits rd, rs1 := regBits rs1, rs2 := regBits rs2, ov := ov.bits }
  | .mul64 rd rs1 rs2 ov => { op := 0x03, rd := regBits rd, rs1 := regBits rs1, rs2 := regBits rs2, ov := ov.bits }
  | .div64 rd rs1 rs2 ov => { op := 0x04, rd := regBits rd, rs1 := regBits rs1, rs2 := regBits rs2, ov := ov.bits }
  | .neg64 rd rs1 ov => { op := 0x05, rd := regBits rd, rs1 := regBits rs1, ov := ov.bits }
  | .abs64 rd rs1 ov => { op := 0x06, rd := regBits rd, rs1 := regBits rs1, ov := ov.bits }
  | .ucmp64 rd rs1 rs2 => { op := 0x07, rd := regBits rd, rs1 := regBits rs1, rs2 := regBits rs2 }
  | .udiv64 rd rs1 rs2 => { op := 0x08, rd := regBits rd, rs1 := regBits rs1, rs2 := regBits rs2 }
  | .wmuls rd rs1 rs2 rc => { op := 0x09, rd := regBits rd, rs1 := regBits rs1, rs2 := regBits rs2, rc := regBits rc }
  | .wmulu rd rs1 rs2 rc => { op := 0x0A, rd := regBits rd, rs1 := regBits rs1, rs2 := regBits rs2, rc := regBits rc }
  | .div128 rd rs1 rs2 rc rm n => { op := 0x0B, rd := regBits rd, rs1 := regBits rs1, rs2 := regBits rs2, rc := regBits rc, rm := rm.bits, n := n.bits }
  | .rclass rd rs1 rs2 => { op := 0x0C, rd := regBits rd, rs1 := regBits rs1, rs2 := regBits rs2 }
  | .rinc rd rs1 rs2 rc rm => { op := 0x0D, rd := regBits rd, rs1 := regBits rs1, rs2 := regBits rs2, rc := regBits rc, rm := rm.bits }
  | .sfact rd sc => { op := 0x10, rd := regBits rd, sc := scaleBits sc }
  | .snlz rd sc => { op := 0x11, rd := regBits rd, sc := scaleBits sc }
  | .smaxi rd sc => { op := 0x12, rd := regBits rd, sc := scaleBits sc }
  | .smini rd sc => { op := 0x13, rd := regBits rd, sc := scaleBits sc }
  | .smul rd rs1 ov sc => { op := 0x14, rd := regBits rd, rs1 := regBits rs1, ov := ov.bits, sc := scaleBits sc }
  | .sdiv rd rs1 sc => { op := 0x15, rd := regBits rd, rs1 := regBits rs1, sc := scaleBits sc }
  | .smod rd rs1 sc => { op := 0x16, rd := regBits rd, rs1 := regBits rs1, sc := scaleBits sc }
  | .smulhi rd rs1 sc => { op := 0x17, rd := regBits rd, rs1 := regBits rs1, sc := scaleBits sc }
  | .smullo rd rs1 sc => { op := 0x18, rd := regBits rd, rs1 := regBits rs1, sc := scaleBits sc }
  | .dadd rd rs1 rs2 rm ov sc => { op := 0x20, rd := regBits rd, rs1 := regBits rs1, rs2 := regBits rs2, rm := rm.bits, ov := ov.bits, sc := scaleBits sc }
  | .dsub rd rs1 rs2 rm ov sc => { op := 0x21, rd := regBits rd, rs1 := regBits rs1, rs2 := regBits rs2, rm := rm.bits, ov := ov.bits, sc := scaleBits sc }
  | .dmul rd rs1 rs2 rm ov sc => { op := 0x22, rd := regBits rd, rs1 := regBits rs1, rs2 := regBits rs2, rm := rm.bits, ov := ov.bits, sc := scaleBits sc }
  | .dmulu rd rs1 rs2 rc rm ov sc => { op := 0x23, rd := regBits rd, rs1 := regBits rs1, rs2 := regBits rs2, rc := regBits rc, rm := rm.bits, ov := ov.bits, sc := scaleBits sc }
  | .ddiv rd rs1 rs2 rm ov sc => { op := 0x24, rd := regBits rd, rs1 := regBits rs1, rs2 := regBits rs2, rm := rm.bits, ov := ov.bits, sc := scaleBits sc }
  | .ddivu rd rs1 rs2 rc rm ov sc => { op := 0x25, rd := regBits rd, rs1 := regBits rs1, rs2 := regBits rs2, rc := regBits rc, rm := rm.bits, ov := ov.bits, sc := scaleBits sc }
  | .dsqr rd rs1 rm ov sc => { op := 0x26, rd := regBits rd, rs1 := regBits rs1, rm := rm.bits, ov := ov.bits, sc := scaleBits sc }
  | .dsqrt rd rs1 rm ov sc => { op := 0x27, rd := regBits rd, rs1 := regBits rs1, rm := rm.bits, ov := ov.bits, sc := scaleBits sc }
  | .dpow rd rs1 rs2 rm ov sc => { op := 0x28, rd := regBits rd, rs1 := regBits rs1, rs2 := regBits rs2, rm := rm.bits, ov := ov.bits, sc := scaleBits sc }
  | .davg rd rs1 rs2 rm ov sc => { op := 0x29, rd := regBits rd, rs1 := regBits rs1, rs2 := regBits rs2, rm := rm.bits, ov := ov.bits, sc := scaleBits sc }
  | .dinv rd rs1 rm ov sc => { op := 0x2A, rd := regBits rd, rs1 := regBits rs1, rm := rm.bits, ov := ov.bits, sc := scaleBits sc }
  | .dshl rd rs1 rs2 rm ov sc => { op := 0x2B, rd := regBits rd, rs1 := regBits rs1, rs2 := regBits rs2, rm := rm.bits, ov := ov.bits, sc := scaleBits sc }
  | .dshr rd rs1 rs2 rm ov sc => { op := 0x2C, rd := regBits rd, rs1 := regBits rs1, rs2 := regBits rs2, rm := rm.bits, ov := ov.bits, sc := scaleBits sc }
  | .dround rd rs1 rs2 rm ov sc => { op := 0x2D, rd := regBits rd, rs1 := regBits rs1, rs2 := regBits rs2, rm := rm.bits, ov := ov.bits, sc := scaleBits sc }
  | .dcmp rd rs1 rs2 rm ov sc => { op := 0x2E, rd := regBits rd, rs1 := regBits rs1, rs2 := regBits rs2, rm := rm.bits, ov := ov.bits, sc := scaleBits sc }
  | .dcmpu rd rs1 rs2 rc rm ov sc => { op := 0x2F, rd := regBits rd, rs1 := regBits rs1, rs2 := regBits rs2, rc := regBits rc, rm := rm.bits, ov := ov.bits, sc := scaleBits sc }
  | .todbl rd rs1 rm sc => { op := 0x30, rd := regBits rd, rs1 := regBits rs1, rm := rm.bits, sc := scaleBits sc }
  | .toflt rd rs1 rm sc => { op := 0x31, rd := regBits rd, rs1 := regBits rs1, rm := rm.bits, sc := scaleBits sc }
  | .fromdbl rd rs1 rm sc => { op := 0x32, rd := regBits rd, rs1 := regBits rs1, rm := rm.bits, sc := scaleBits sc }
  | .fromflt rd rs1 rm sc => { op := 0x33, rd := regBits rd, rs1 := regBits rs1, rm := rm.bits, sc := scaleBits sc }
  | .parse rd rm sc => { op := 0x34, rd := regBits rd, rm := rm.bits, sc := scaleBits sc }
  | .format rs1 sc => { op := 0x35, rs1 := regBits rs1, sc := scaleBits sc }

/-- The command word of a command (R43, R51). -/
def encode (i : Instr) : CommandWord := i.fields.pack

/-- The opcode number of a command (R51). -/
def Instr.opcode (i : Instr) : BitVec 6 := i.fields.op

/-- The instruction the decoder reads from the word whose bits are `w`, every bit at and above `nbits` being 0. A command
word is the 32-bit value of one host access (R30, R42), so the bits are the word's own. -/
def decodeTableWord (nbits w : Nat) : Option Instr :=
  match decode (BitVec.ofNat 32 (w % 2 ^ nbits)) with
  | .ok i => some i
  | .error _ => none

end Sys2Proof
end

