-- ==== Sys2Proof/Machine/State.lean ====
section
/-! DEFINITION. The engine's state, all of it (`10_state.md` R14), the inputs it takes, and the ways a step can stop. -/

namespace Sys2Proof.Machine

/-- The text buffer as (address, byte) pairs (R24, R28): addresses strictly rising and below 64; an unlisted address has
not been written since reset and reads as no value (R16, R24, R33; log 2). -/
abbrev Memory := List Host.Cell

/-- STATUS's fields (R18); the reserved bits read 0 and are not stored. -/
structure Status where
  /-- bit 0: a fault is recorded and not yet cleared -/
  fault : Bool
  /-- bit 1: a command was dropped while FAULT = 1 -/
  miss : Bool
  /-- bit 2: the CheckedOps overflow signal (R19) -/
  v : Bool
  /-- bits 11:8: the fault code (R119) -/
  err : BitVec 4
  /-- bits 15:12: the fault subcode (R120) -/
  sub : BitVec 4
  deriving DecidableEq, Repr

/-- CTRL's one field (R20); the reserved bits read 0 and are not stored. -/
structure Ctrl where
  /-- bit 0: fault interrupt enable -/
  fie : Bool
  deriving DecidableEq, Repr

/-- The sizes of a host access (R32). -/
inductive Width where
  | one | two | four | eight
  deriving DecidableEq, Repr

/-- What the outside world presents to the engine: a read or a write of the host window at a byte offset (R28, R29; the
engine decodes offset bits 7:0), or the reset input (R138). The data of a write narrower than 8 bytes is in its low
bytes (R30). -/
inductive HostInput where
  | read (offset : BitVec 8) (width : Width)
  | write (offset : BitVec 8) (width : Width) (data : Word)
  | reset
  deriving DecidableEq, Repr

/-- The engine's faults (R119, R120): architectural events that STATUS records, not stops of the model. -/
inductive EngineFault where
  | illegal (k : Illegal)
  | scaleRange
  | paramScaleRange
  | exponentRange
  | precisionRange
  | partCode
  | divisionByZero
  | negativeSqrt
  | nanOrInfinite
  | malformedText
  | overflow
  | roundingNecessary
  deriving DecidableEq, Repr

/-- The state of the machine. -/
structure State where
  /-- X0..X15 (R15) -/
  x : Vector Word 16
  /-- STATUS (R18) -/
  status : Status
  /-- CTRL (R20) -/
  ctrl : Ctrl
  /-- FCMD (R21) -/
  fcmd : CommandWord
  /-- TLEN (R22), legal values 0 to 64 -/
  tlen : BitVec 32
  /-- TBUF (R24) -/
  tbuf : Memory
  /-- R33: for each X register, bit k tells whether its byte k has been written since reset -/
  xWritten : Vector (BitVec 8) 16
  /-- R137, R16: the record of the model fault "read of unwritten register", never cleared but by reset (log 1) -/
  unwrittenRead : Bool
  /-- the MODEL's own: the inputs still to come, oldest first (R37, R143; log 3) -/
  host : List HostInput
  /-- the MODEL's own: what the last access performed returned, a word for a read (log 4) -/
  readData : Option Word
  deriving DecidableEq, Repr

/-- Why the machine stops with a fault: the model fault of R137. -/
inductive Fault where
  /-- Raised by PARSE and by a host read when TBUF[address] has not been written since reset (R16, R24, R117, I5).
  Safe: the chip returns some value, the model gives none. -/
  | unwrittenText (address : Nat)
  deriving DecidableEq, Repr

/-- Why the machine gives an instruction no meaning. -/
inductive Refusal where
  /-- An instruction of the opcode table without a meaning in this model; none is left. Safe: no step is made. -/
  | notModelled (mnemonic : String)
  deriving DecidableEq, Repr

/-- The outcome of a step, a command or an access. -/
abbrev Result := Host.Outcome State Fault Refusal

/-- The machine right after reset (R27, R138): STATUS, CTRL, FCMD and TLEN 0, X and TBUF not written. The registers the
spec leaves unspecified hold 0 (DESIGN CHOICE, log 1); no input waits (log 3). -/
def State.reset : State where
  x := Vector.replicate 16 0
  status := { fault := false, miss := false, v := false, err := 0, sub := 0 }
  ctrl := { fie := false }
  fcmd := 0
  tlen := 0
  tbuf := []
  xWritten := Vector.replicate 16 0
  unwrittenRead := false
  host := []
  readData := none

end Sys2Proof.Machine
end

