-- ==== Sys2Proof/Machine/Numbers.lean ====
section
/-! DEFINITION. The exact numbers of the pseudocode (`00_scope.md` R9, R10, R12): 64-bit range and wraparound, exact
rationals, the integer square root, and powers of two and ten. -/

namespace Sys2Proof.Machine

/-- MIN of R9. -/
def minWord : Int := -9223372036854775808

/-- MAX of R9. -/
def maxWord : Int := 9223372036854775807

/-- R9: `word64(n)`, the two's-complement wraparound of an integer. -/
def word64 (n : Int) : Word := BitVec.ofInt 64 n

/-- R9: `fits64(n)`. -/
abbrev fits64 (n : Int) : Prop := minWord ≤ n ∧ n ≤ maxWord

/-- R10: `sgn(n)` of an integer. -/
def sgn (n : Int) : Int := if n < 0 then -1 else if n = 0 then 0 else 1

/-- An exact rational `num / den` (R9, R12). Every ratio the machine builds has `den ≠ 0`. -/
structure Ratio where
  num : Int
  den : Nat
  deriving DecidableEq, Repr

/-- The rational `n / d` for a divisor of either sign. -/
def Ratio.ofDiv (n d : Int) : Ratio := ⟨n * d.sign, d.natAbs⟩

/-- The rational `n × 2^e` for an exponent of either sign. -/
def Ratio.scale2 (n : Int) (e : Int) : Ratio :=
  if 0 ≤ e then ⟨n * 2 ^ e.toNat, 1⟩ else ⟨n, 2 ^ (-e).toNat⟩

/-- The rational times an integer. -/
def Ratio.mulInt (q : Ratio) (k : Int) : Ratio := ⟨q.num * k, q.den⟩

/-- R10: `trunc(q)`. -/
def Ratio.trunc (q : Ratio) : Int := q.num.tdiv q.den

/-- R10: `floor(q)`. -/
def Ratio.floor (q : Ratio) : Int := q.num.fdiv q.den

/-- The remainder numerator that goes with `trunc` (R10): `q - trunc(q)` is `rem / den`. -/
def Ratio.rem (q : Ratio) : Int := q.num.tmod q.den

/-- Whether the rational is an integer. -/
abbrev Ratio.isInt (q : Ratio) : Prop := q.rem = 0

/-- `q < n` for an integer `n`. -/
abbrev Ratio.ltInt (q : Ratio) (n : Int) : Prop := q.num < n * q.den

/-- `q > n` for an integer `n`. -/
abbrev Ratio.gtInt (q : Ratio) (n : Int) : Prop := n * q.den < q.num

/-- R10: `isqrt(n) = floor(sqrt(n))` for `n < 4 ^ k`: one root bit per step, from the most significant pair of bits. -/
def isqrtBits : Nat → Nat → Nat
  | 0, _ => 0
  | k + 1, n =>
    let r := 2 * isqrtBits k (n / 4)
    if (r + 1) * (r + 1) ≤ n then r + 1 else r

/-- R10: `isqrt(n)`, for every `n` (it is below `4 ^ (log2 n / 2 + 1)`). -/
def isqrt (n : Nat) : Nat := isqrtBits (n.log2 / 2 + 1) n

end Sys2Proof.Machine
end

