-- ==== Sys2Proof/Machine/Ops.lean ====
section
/-! DEFINITION. The shared operations: registers, the text buffer, STATUS and CTRL as words, taking an engine fault and
clearing it, and how a command ends. -/

namespace Sys2Proof.Machine

/-! ### Operand registers -/

/-- R11: `x[i]`, the word register Xi holds. -/
def State.reg (s : State) (r : Reg) : Word := s.x[r.val]

/-- R16, R33: register Xi counts as written: all 8 of its bytes have been written since reset. -/
def State.isWritten (s : State) (r : Reg) : Bool := s.xWritten[r.val] == BitVec.allOnes 8

/-- R16, R137: a read of register Xi; a read of a register that does not count as written is the model fault, recorded
in `unwrittenRead` (log 1). -/
def State.noteRead (s : State) (r : Reg) : State :=
  { s with unwrittenRead := s.unwrittenRead || !s.isWritten r }

/-- R48: the pseudocode's read of `x[r]`: hand on the word, and the state that has noted the read. -/
def readX (r : Reg) (s : State) (k : Word → State → Result) : Result := k (s.reg r) (s.noteRead r)

/-- R11: `x[r] <- w`. All 8 bytes count as written from then on (R33). -/
def State.writeReg (s : State) (r : Reg) (w : Word) : State :=
  { s with
    x := s.x.set r.val w
    xWritten := s.xWritten.set r.val (BitVec.allOnes 8) }

/-! ### The text buffer -/

/-- TBUF[addr], or no value where the byte has not been written since reset (R24). -/
def Memory.read : Memory → Nat → Option Byte
  | [], _ => none
  | (a, b) :: m, addr => if a = addr then some b else Memory.read m addr

/-- Write TBUF[addr], keeping the addresses strictly rising. -/
def Memory.write : Memory → Nat → Byte → Memory
  | [], addr, v => [(addr, v)]
  | (a, b) :: m, addr, v =>
    if addr < a then (addr, v) :: (a, b) :: m
    else if addr = a then (addr, v) :: m
    else (a, b) :: Memory.write m addr v

/-- The canonical form of the text buffer: addresses strictly rising and below 64 (R24). An unlisted address reads as no
value, so no listed byte equals it. -/
abbrev Memory.wf (m : Memory) : Prop := m.Pairwise (fun c d => c.1 < d.1) ∧ ∀ c ∈ m, c.1 < 64

/-- R35: `MemRead(addr, n)`: the bytes in order, or the first address among them that has not been written. -/
def memRead (m : Memory) (addr : Nat) : Nat → Except Nat (List Byte)
  | 0 => .ok []
  | n + 1 =>
    match m.read addr with
    | none => .error addr
    | some b =>
      match memRead m (addr + 1) n with
      | .error a => .error a
      | .ok bs => .ok (b :: bs)

/-- R35: `MemWrite(addr, n, v)` for a byte sequence `v` of length `n`. -/
def memWrite (m : Memory) (addr : Nat) : List Byte → Memory
  | [] => m
  | b :: bs => memWrite (m.write addr b) (addr + 1) bs

/-! ### STATUS, CTRL and the interrupt output -/

/-- R18: STATUS as the host reads it. -/
def Status.word (st : Status) : BitVec 32 :=
  (BitVec.ofBool st.fault).setWidth 32 ||| ((BitVec.ofBool st.miss).setWidth 32 <<< 1) |||
    ((BitVec.ofBool st.v).setWidth 32 <<< 2) ||| (st.err.setWidth 32 <<< 8) ||| (st.sub.setWidth 32 <<< 12)

/-- R20: CTRL as the host reads it. -/
def Ctrl.word (c : Ctrl) : BitVec 32 := (BitVec.ofBool c.fie).setWidth 32

/-- R128: `irq = STATUS.FAULT AND CTRL.FIE`. -/
def State.irq (s : State) : Bool := s.status.fault && s.ctrl.fie

/-! ### Engine faults -/

/-- R119: the code of a fault. -/
def EngineFault.err : EngineFault → BitVec 4
  | .illegal _ => 1
  | .scaleRange | .paramScaleRange | .exponentRange | .precisionRange | .partCode | .divisionByZero | .negativeSqrt
  | .nanOrInfinite | .malformedText => 2
  | .overflow => 3
  | .roundingNecessary => 4

/-- R120: the subcode of a fault. -/
def EngineFault.sub : EngineFault → BitVec 4
  | .illegal .unassignedOpcode => 1
  | .illegal .reservedField => 2
  | .illegal .destConflict => 3
  | .scaleRange => 1
  | .paramScaleRange => 2
  | .exponentRange => 3
  | .precisionRange => 4
  | .partCode => 5
  | .divisionByZero => 6
  | .negativeSqrt => 7
  | .nanOrInfinite => 8
  | .malformedText => 9
  | .overflow => 0
  | .roundingNecessary => 0

/-- R121, R123: a command whose word is `w` ends with a fault: FAULT, ERR, SUB and FCMD are written and nothing else. -/
def takeFault (w : CommandWord) (e : EngineFault) (s : State) : State :=
  { s with
    status := { s.status with fault := true, err := e.err, sub := e.sub }
    fcmd := w }

/-- R18, R125: a host write of `w` to STATUS, the return from a fault: bit 0 clears FAULT, ERR and SUB together, bit 1
clears MISS, and every other bit is ignored. -/
def writeStatus (w : BitVec 32) (s : State) : State :=
  let st := if w.getLsbD 0 then { s.status with fault := false, err := 0, sub := 0 } else s.status
  { s with status := if w.getLsbD 1 then { st with miss := false } else st }

/-- R124: a word written to CMD while FAULT = 1 is dropped and sets MISS. -/
def dropCommand (s : State) : State := { s with status := { s.status with miss := true } }

/-! ### How a command ends -/

/-- R11: `raise Fault` in the command `i`. FCMD receives the command's word, which is `encode i` (R123; log 9). -/
def raise (i : Instr) (e : EngineFault) (s : State) : Result := .next (takeFault (encode i) e s)

/-- A command with one destination ends: its word is written, or its fault is taken and nothing is written (R121). -/
def finish (i : Instr) (rd : Reg) (r : Except EngineFault Word) (s : State) : Result :=
  match r with
  | .ok w => .next (s.writeReg rd w)
  | .error e => raise i e s

end Sys2Proof.Machine
end

