-- ==== Sys2Proof/Machine/Operands.lean ====
section
/-! DEFINITION. The operand forms (`30_encoding.md` R48): the scale of the command word, the second scale in a register,
and the registers read. A check that fails ends the command before the reads that follow it (R11, R91; log 10). -/

namespace Sys2Proof.Machine

/-- R46, R59, R91: the scale check every command that uses `sc` starts with. -/
def withScale (i : Instr) (sc : ScaleField) (s : State) (k : Nat → Result) : Result :=
  if 18 < sc.val then raise i .scaleRange s else k sc.val

/-- R91: a cross-scale command's second scale `t`, read from `rc` as a signed value and checked. -/
def withSecondScale (i : Instr) (rc : Reg) (s : State) (k : Nat → State → Result) : Result :=
  readX rc s fun w s =>
    if w.toInt < 0 ∨ 18 < w.toInt then raise i .paramScaleRange s else k w.toInt.toNat s

/-- Two source registers read, rs1 first (R48, R49); each command reads the words as signed or unsigned as its rule
says. -/
def readX2 (r1 r2 : Reg) (s : State) (k : Word → Word → State → Result) : Result :=
  readX r1 s fun a s => readX r2 s fun b s => k a b s

end Sys2Proof.Machine
end

