-- ==== Sys2Proof/Config.lean ====
section
/-! DEFINITION. The OPEN parameters of the spec (`92_eei_decisions.md` section 1, `00_scope.md` R7): constants without a
body, so that nothing can be proved of their values and every statement holds for every choice of them. -/

namespace Sys2Proof.Config

/-- The two codes `ARITH_FAULT_CHOICE` may return (R88). -/
inductive ArithFault where
  | overflow | roundingNecessary
  deriving DecidableEq, Repr, Inhabited

/-- An outcome of DPOW's general case (R101): a word is written, or one of the two arithmetic faults is raised. -/
inductive PowOutcome where
  | word (w : Word)
  | overflow
  | roundingNecessary
  deriving DecidableEq, Repr, Inhabited

/-- `ENGINE_BASE` (R29, D17, I1): the platform's address of the window. Log 13. -/
opaque engineBase : Word

/-- `UNCHECKED_WRAP(op, operands, sc, rm)` (R88, D11, I2): the word an unchecked composite overflow writes. Log 5. -/
opaque uncheckedWrap (op : BitVec 6) (operands : List Word) (sc : Nat) (rm : RoundingMode) : Word

/-- `ARITH_FAULT_CHOICE(op, operands, sc, rm)` (R88, R122, D15, I3): which fault is recorded when an inexact result under
UNNECESSARY is also out of range with checking on. Log 6. -/
opaque arithFaultChoice (op : BitVec 6) (operands : List Word) (sc : Nat) (rm : RoundingMode) : ArithFault

/-- `POW_RESULT(a, n, s, m, ov)` (R100, R101, D33, I4), before it is held to the admitted set: `Machine.powOutcome` uses
its value where R101 admits it. Log 7. -/
opaque powResult (a n : Int) (s : Nat) (m : RoundingMode) (ov : OverflowMode) : PowOutcome

end Sys2Proof.Config
end

