-- ==== Sys2Proof/Machine/Rounding.lean ====
section
/-! DEFINITION. Rounding (`43_rounding.md`): the TruncatedPart classifier, the increment table, `Round` and `DecResult`. -/

namespace Sys2Proof.Machine

/-- R83: the four TruncatedParts, in the order of their codes. -/
inductive TruncatedPart where
  | zero | lessThanHalf | equalToHalf | greaterThanHalf
  deriving DecidableEq, Repr

/-- R83: the code of a TruncatedPart. -/
def TruncatedPart.code : TruncatedPart → Int
  | .zero => 0 | .lessThanHalf => 1 | .equalToHalf => 2 | .greaterThanHalf => 3

/-- R83: the TruncatedPart of a code; other codes are none (R90). -/
def partOfCode (c : Int) : Option TruncatedPart :=
  if c = 0 then some .zero
  else if c = 1 then some .lessThanHalf
  else if c = 2 then some .equalToHalf
  else if c = 3 then some .greaterThanHalf
  else none

/-- R84: `classify(r, d)`: `2|r|` against `|d|`, exactly. -/
def classify (r d : Int) : TruncatedPart :=
  if r = 0 then .zero
  else if 2 * r.natAbs < d.natAbs then .lessThanHalf
  else if 2 * r.natAbs = d.natAbs then .equalToHalf
  else .greaterThanHalf

/-- R85: the sign of the exact value. -/
def signStep (neg : Bool) : Int := if neg then -1 else 1

/-- R85: `incrementFor(m, neg, odd, part)`; UNNECESSARY raises ROUNDING_NECESSARY on a nonzero part. -/
def incrementFor (m : RoundingMode) (neg odd : Bool) (part : TruncatedPart) : Except EngineFault Int :=
  match part with
  | .zero => .ok 0
  | _ =>
    match m with
    | .up => .ok (signStep neg)
    | .down => .ok 0
    | .ceiling => .ok (if neg then 0 else 1)
    | .floor => .ok (if neg then -1 else 0)
    | .halfUp => .ok (if part = .lessThanHalf then 0 else signStep neg)
    | .halfDown => .ok (if part = .greaterThanHalf then signStep neg else 0)
    | .halfEven =>
      .ok (if part = .greaterThanHalf ∨ (part = .equalToHalf ∧ odd = true) then signStep neg else 0)
    | .unnecessary => .error .roundingNecessary

/-- R86: `Round(E, m)`. -/
def round (q : Ratio) (m : RoundingMode) : Except EngineFault Int :=
  match incrementFor m (decide (q.num < 0)) (decide (q.trunc % 2 ≠ 0)) (classify q.rem q.den) with
  | .error e => .error e
  | .ok inc => .ok (q.trunc + inc)

/-- What the OPEN parameters of R88 are functions of: the opcode, the operand values read, the scale and the rounding
mode (logs 5, 6, 8). -/
structure OpContext where
  op : BitVec 6
  operands : List Word
  sc : Nat
  rm : RoundingMode
  deriving DecidableEq, Repr

/-- `UNCHECKED_WRAP` of a command (R88). -/
def uncheckedWrap (c : OpContext) : Word := Config.uncheckedWrap c.op c.operands c.sc c.rm

/-- `ARITH_FAULT_CHOICE` of a command (R88, R122). -/
def arithFaultChoice (c : OpContext) : EngineFault :=
  match Config.arithFaultChoice c.op c.operands c.sc c.rm with
  | .overflow => .overflow
  | .roundingNecessary => .roundingNecessary

/-- R88: a rounded integer is written if it fits; out of range it faults under checking and wraps otherwise. -/
def fitResult (c : OpContext) (ovm : OverflowMode) (r : Int) : Except EngineFault Word :=
  if fits64 r then .ok (word64 r)
  else if ovm = .checked then .error .overflow
  else .ok (uncheckedWrap c)

/-- R88: `DecResult(E, m, ovm)`. -/
def decResult (c : OpContext) (q : Ratio) (ovm : OverflowMode) : Except EngineFault Word :=
  if c.rm = .unnecessary ∧ ¬ q.isInt then
    if ovm = .checked ∧ (q.ltInt minWord ∨ q.gtInt maxWord) then .error (arithFaultChoice c)
    else .error .roundingNecessary
  else
    match round q c.rm with
    | .error e => .error e
    | .ok r => fitResult c ovm r

/-- A rounding command ends with `x[rd] <- DecResult(E, rm, ovm)` (R88, R91). -/
def finishRounded (i : Instr) (rd : Reg) (operands : List Word) (sc : Nat) (rm : RoundingMode) (ovm : OverflowMode)
    (q : Ratio) (s : State) : Result :=
  finish i rd (decResult ⟨i.opcode, operands, sc, rm⟩ q ovm) s

end Sys2Proof.Machine
end

