-- ==== Sys2Proof/Machine/BinaryFloat.lean ====
section
/-! DEFINITION. IEEE-754 patterns and the four conversions (`46_float.md`). -/

namespace Sys2Proof.Machine

/-- R109: a binary format, by the widths of its fraction and its biased exponent. -/
structure BinaryFormat where
  fracBits : Nat
  expBits : Nat
  deriving DecidableEq, Repr

/-- R109: binary64. -/
def binary64 : BinaryFormat := ⟨52, 11⟩

/-- R109: binary32. -/
def binary32 : BinaryFormat := ⟨23, 8⟩

/-- R109: the significand precision `p`. -/
def BinaryFormat.precision (f : BinaryFormat) : Nat := f.fracBits + 1

/-- R109: the exponent bias. -/
def BinaryFormat.bias (f : BinaryFormat) : Nat := 2 ^ (f.expBits - 1) - 1

/-- R109: the pattern with sign `neg`, biased exponent `x` and fraction `frac`. -/
def BinaryFormat.pattern (f : BinaryFormat) (neg : Bool) (x frac : Nat) : Nat :=
  (if neg then 2 ^ (f.fracBits + f.expBits) else 0) + x * 2 ^ f.fracBits + frac

/-- R109: `decode64`, `decode32`: the exact value of a pattern, none for a NaN or an infinity. Bits above the format's
width are not read. -/
def BinaryFormat.value (f : BinaryFormat) (w : Nat) : Option Ratio :=
  let neg := w / 2 ^ (f.fracBits + f.expBits) % 2 = 1
  let x := w / 2 ^ f.fracBits % 2 ^ f.expBits
  let frac := w % 2 ^ f.fracBits
  let signed (m : Nat) : Int := if neg then -m else m
  if x = 2 ^ f.expBits - 1 then none
  else if x = 0 then some (.scale2 (signed frac) (1 - f.bias - f.fracBits))
  else some (.scale2 (signed (2 ^ f.fracBits + frac)) (x - f.bias - f.fracBits))

/-- R110: whether `2^e ≤ num / den`. -/
def atLeastPow2 (num den : Nat) (e : Int) : Bool :=
  if 0 ≤ e then decide (den * 2 ^ e.toNat ≤ num) else decide (den ≤ num * 2 ^ (-e).toNat)

/-- R110: the integer `e` with `2^e ≤ num / den < 2^(e+1)`, for a positive rational. -/
def binaryExponent (num den : Nat) : Int :=
  let e := (num.log2 : Int) - den.log2
  if atLeastPow2 num den e then e else e - 1

/-- R110: `Y = A / 2^(e - p + 1)`. -/
def significand (f : BinaryFormat) (num den : Nat) (e : Int) : Ratio :=
  let k := e - f.precision + 1
  if 0 ≤ k then ⟨num, den * 2 ^ k.toNat⟩ else ⟨num * 2 ^ (-k).toNat, den⟩

/-- R110: `ToBinary(v, m, fmt)` for a nonzero `v`. The increment table raises ROUNDING_NECESSARY for UNNECESSARY with a
nonzero part; a nonzero increment moves the magnitude away from zero. -/
def toBinary (f : BinaryFormat) (m : RoundingMode) (v : Ratio) : Except EngineFault Word :=
  let neg := decide (v.num < 0)
  let e := binaryExponent v.num.natAbs v.den
  let y := significand f v.num.natAbs v.den e
  let q := y.floor.toNat
  match incrementFor m neg (decide (q % 2 ≠ 0)) (classify y.rem y.den) with
  | .error err => .error err
  | .ok inc =>
    let q := if inc = 0 then q else q + 1
    let carried := q = 2 ^ f.precision
    let e := if carried then e + 1 else e
    let q := if carried then 2 ^ (f.precision - 1) else q
    .ok (BitVec.ofNat 64 (f.pattern neg (e + f.bias).toNat (q - 2 ^ (f.precision - 1))))

/-- R111, R112: the pattern of `a × 10^-s`; zero gives +0.0. -/
def toBinaryResult (f : BinaryFormat) (m : RoundingMode) (a : Int) (sc : Nat) : Except EngineFault Word :=
  if a = 0 then .ok 0 else toBinary f m ⟨a, 10 ^ sc⟩

/-- TODBL (R111). -/
def execTodbl (rd rs1 : Reg) (rm : RoundingMode) (sc : ScaleField) (s : State) : Result :=
  withScale (.todbl rd rs1 rm sc) sc s fun k =>
    readX rs1 s fun a s => finish (.todbl rd rs1 rm sc) rd (toBinaryResult binary64 rm a.toInt k) s

/-- TOFLT (R112): bits 63:32 of the result are 0. -/
def execToflt (rd rs1 : Reg) (rm : RoundingMode) (sc : ScaleField) (s : State) : Result :=
  withScale (.toflt rd rs1 rm sc) sc s fun k =>
    readX rs1 s fun a s => finish (.toflt rd rs1 rm sc) rd (toBinaryResult binary32 rm a.toInt k) s

/-- FROMDBL (R113), always checked. -/
def execFromdbl (rd rs1 : Reg) (rm : RoundingMode) (sc : ScaleField) (s : State) : Result :=
  withScale (.fromdbl rd rs1 rm sc) sc s fun k =>
    readX rs1 s fun w s =>
      match binary64.value w.toNat with
      | none => raise (.fromdbl rd rs1 rm sc) .nanOrInfinite s
      | some d => finishRounded (.fromdbl rd rs1 rm sc) rd [w] k rm .checked (d.mulInt (10 ^ k)) s

/-- FROMFLT (R114), always checked. Bits 63:32 of the source are ignored: the operand, of the OPEN parameter of R88 too,
is the pattern in bits 31:0 (log 8). -/
def execFromflt (rd rs1 : Reg) (rm : RoundingMode) (sc : ScaleField) (s : State) : Result :=
  withScale (.fromflt rd rs1 rm sc) sc s fun k =>
    readX rs1 s fun w s =>
      let p := w.extractLsb' 0 32
      match binary32.value p.toNat with
      | none => raise (.fromflt rd rs1 rm sc) .nanOrInfinite s
      | some d =>
        finishRounded (.fromflt rd rs1 rm sc) rd [p.setWidth 64] k rm .checked (d.mulInt (10 ^ k)) s

end Sys2Proof.Machine
end

