-- ==== Sys2Proof/Machine/Flags.lean ====
section
/-! DEFINITION. STATUS.V, the one flag (R19), and the common end of the six CheckedOps commands (R70). -/

namespace Sys2Proof.Machine

/-- R70: the overflow signal of an exact result. -/
def overflowSignal (e : Int) : Bool := decide (¬ fits64 e)

/-- Write STATUS.V (R19). -/
def State.setV (s : State) (v : Bool) : State := { s with status := { s.status with v := v } }

/-- R70: how ADD64 to ABS64 finish with the exact result `e`: a checked overflow sets V and faults; otherwise the wrapped
result is written and V is the signal. -/
def finishChecked (i : Instr) (rd : Reg) (ov : OverflowMode) (e : Int) (s : State) : Result :=
  if overflowSignal e = true ∧ ov = .checked then raise i .overflow (s.setV true)
  else .next ((s.writeReg rd (word64 e)).setV (overflowSignal e))

/-- R64, R92, R93: how SMUL, DADD and DSUB finish with the exact integer `e`: a checked overflow faults; otherwise the
wrapped result is written. STATUS.V is not touched (R59, R91). -/
def finishWrapping (i : Instr) (rd : Reg) (ov : OverflowMode) (e : Int) (s : State) : Result :=
  if ¬ fits64 e ∧ ov = .checked then raise i .overflow s
  else .next (s.writeReg rd (word64 e))

end Sys2Proof.Machine
end

