-- ==== Sys2Proof/Machine/CheckedOps.lean ====
section
/-! DEFINITION. CheckedOps and Unsigned64 (`41_checkedops.md`). -/

namespace Sys2Proof.Machine

/-- ADD64 (R71). -/
def execAdd64 (rd rs1 rs2 : Reg) (ov : OverflowMode) (s : State) : Result :=
  readX2 rs1 rs2 s fun a b s => finishChecked (.add64 rd rs1 rs2 ov) rd ov (a.toInt + b.toInt) s

/-- SUB64 (R72). -/
def execSub64 (rd rs1 rs2 : Reg) (ov : OverflowMode) (s : State) : Result :=
  readX2 rs1 rs2 s fun a b s => finishChecked (.sub64 rd rs1 rs2 ov) rd ov (a.toInt - b.toInt) s

/-- MUL64 (R73). -/
def execMul64 (rd rs1 rs2 : Reg) (ov : OverflowMode) (s : State) : Result :=
  readX2 rs1 rs2 s fun a b s => finishChecked (.mul64 rd rs1 rs2 ov) rd ov (a.toInt * b.toInt) s

/-- DIV64 (R74): the divisor is read and checked first. -/
def execDiv64 (rd rs1 rs2 : Reg) (ov : OverflowMode) (s : State) : Result :=
  readX rs2 s fun b s =>
    if b.toInt = 0 then raise (.div64 rd rs1 rs2 ov) .divisionByZero s
    else readX rs1 s fun a s => finishChecked (.div64 rd rs1 rs2 ov) rd ov (a.toInt.tdiv b.toInt) s

/-- NEG64 (R75). -/
def execNeg64 (rd rs1 : Reg) (ov : OverflowMode) (s : State) : Result :=
  readX rs1 s fun a s => finishChecked (.neg64 rd rs1 ov) rd ov (-a.toInt) s

/-- ABS64 (R76). -/
def execAbs64 (rd rs1 : Reg) (ov : OverflowMode) (s : State) : Result :=
  readX rs1 s fun a s => finishChecked (.abs64 rd rs1 ov) rd ov a.toInt.natAbs s

/-- UCMP64 (R77). -/
def execUcmp64 (rd rs1 rs2 : Reg) (s : State) : Result :=
  readX2 rs1 rs2 s fun a b s => .next (s.writeReg rd (word64 (sgn ((a.toNat : Int) - b.toNat))))

/-- UDIV64 (R78). -/
def execUdiv64 (rd rs1 rs2 : Reg) (s : State) : Result :=
  readX rs2 s fun b s =>
    if b.toNat = 0 then raise (.udiv64 rd rs1 rs2) .divisionByZero s
    else readX rs1 s fun a s => .next (s.writeReg rd (BitVec.ofNat 64 (a.toNat / b.toNat)))

end Sys2Proof.Machine
end

