-- ==== Sys2Proof/Machine/DecimalArith.lean ====
section
/-! DEFINITION. Decimal arithmetic (`44_arith.md`), DPOW apart: each command computes its exact result and rounds it once
(R86, R91). -/

namespace Sys2Proof.Machine

/-- DADD (R92): the scale is checked and does not enter the sum; `rm` has no effect. -/
def execDadd (rd rs1 rs2 : Reg) (rm : RoundingMode) (ov : OverflowMode) (sc : ScaleField) (s : State) : Result :=
  withScale (.dadd rd rs1 rs2 rm ov sc) sc s fun _ =>
    readX2 rs1 rs2 s fun a b s => finishWrapping (.dadd rd rs1 rs2 rm ov sc) rd ov (a.toInt + b.toInt) s

/-- DSUB (R93). -/
def execDsub (rd rs1 rs2 : Reg) (rm : RoundingMode) (ov : OverflowMode) (sc : ScaleField) (s : State) : Result :=
  withScale (.dsub rd rs1 rs2 rm ov sc) sc s fun _ =>
    readX2 rs1 rs2 s fun a b s => finishWrapping (.dsub rd rs1 rs2 rm ov sc) rd ov (a.toInt - b.toInt) s

/-- DMUL (R94). -/
def execDmul (rd rs1 rs2 : Reg) (rm : RoundingMode) (ov : OverflowMode) (sc : ScaleField) (s : State) : Result :=
  withScale (.dmul rd rs1 rs2 rm ov sc) sc s fun k =>
    readX2 rs1 rs2 s fun a b s =>
      finishRounded (.dmul rd rs1 rs2 rm ov sc) rd [a, b] k rm ov ⟨a.toInt * b.toInt, 10 ^ k⟩ s

/-- DMULU (R95): the second factor is at scale `t = x[rc]`. -/
def execDmulu (rd rs1 rs2 rc : Reg) (rm : RoundingMode) (ov : OverflowMode) (sc : ScaleField) (s : State) : Result :=
  withScale (.dmulu rd rs1 rs2 rc rm ov sc) sc s fun k =>
    withSecondScale (.dmulu rd rs1 rs2 rc rm ov sc) rc s fun t s =>
      readX2 rs1 rs2 s fun a b s =>
        finishRounded (.dmulu rd rs1 rs2 rc rm ov sc) rd [a, b, BitVec.ofNat 64 t] k rm ov
          ⟨a.toInt * b.toInt, 10 ^ t⟩ s

/-- DDIV (R96). -/
def execDdiv (rd rs1 rs2 : Reg) (rm : RoundingMode) (ov : OverflowMode) (sc : ScaleField) (s : State) : Result :=
  withScale (.ddiv rd rs1 rs2 rm ov sc) sc s fun k =>
    readX rs2 s fun b s =>
      if b.toInt = 0 then raise (.ddiv rd rs1 rs2 rm ov sc) .divisionByZero s
      else readX rs1 s fun a s =>
        finishRounded (.ddiv rd rs1 rs2 rm ov sc) rd [a, b] k rm ov (.ofDiv (a.toInt * 10 ^ k) b.toInt) s

/-- DDIVU (R97): the divisor is at scale `t = x[rc]`. -/
def execDdivu (rd rs1 rs2 rc : Reg) (rm : RoundingMode) (ov : OverflowMode) (sc : ScaleField) (s : State) : Result :=
  withScale (.ddivu rd rs1 rs2 rc rm ov sc) sc s fun k =>
    withSecondScale (.ddivu rd rs1 rs2 rc rm ov sc) rc s fun t s =>
      readX rs2 s fun b s =>
        if b.toInt = 0 then raise (.ddivu rd rs1 rs2 rc rm ov sc) .divisionByZero s
        else readX rs1 s fun a s =>
          finishRounded (.ddivu rd rs1 rs2 rc rm ov sc) rd [a, b, BitVec.ofNat 64 t] k rm ov
            (.ofDiv (a.toInt * 10 ^ t) b.toInt) s

/-- DSQR (R98). -/
def execDsqr (rd rs1 : Reg) (rm : RoundingMode) (ov : OverflowMode) (sc : ScaleField) (s : State) : Result :=
  withScale (.dsqr rd rs1 rm ov sc) sc s fun k =>
    readX rs1 s fun a s =>
      finishRounded (.dsqr rd rs1 rm ov sc) rd [a] k rm ov ⟨a.toInt * a.toInt, 10 ^ k⟩ s

/-- R99: the root of `n` rounded under `rm`; an inexact root is never a tie. -/
def roundedRoot (n : Nat) (rm : RoundingMode) : Except EngineFault Int :=
  let r := isqrt n
  if r * r = n then .ok r
  else
    match incrementFor rm false (decide (r % 2 ≠ 0))
        (if r * r + r + 1 ≤ n then .greaterThanHalf else .lessThanHalf) with
    | .error e => .error e
    | .ok inc => .ok (r + inc)

/-- DSQRT (R99). -/
def execDsqrt (rd rs1 : Reg) (rm : RoundingMode) (ov : OverflowMode) (sc : ScaleField) (s : State) : Result :=
  withScale (.dsqrt rd rs1 rm ov sc) sc s fun k =>
    readX rs1 s fun a s =>
      if a.toInt < 0 then raise (.dsqrt rd rs1 rm ov sc) .negativeSqrt s
      else finish (.dsqrt rd rs1 rm ov sc) rd ((roundedRoot (a.toInt.toNat * 10 ^ k) rm).map word64) s

/-- DAVG (R102). -/
def execDavg (rd rs1 rs2 : Reg) (rm : RoundingMode) (ov : OverflowMode) (sc : ScaleField) (s : State) : Result :=
  withScale (.davg rd rs1 rs2 rm ov sc) sc s fun k =>
    readX2 rs1 rs2 s fun a b s =>
      finishRounded (.davg rd rs1 rs2 rm ov sc) rd [a, b] k rm ov ⟨a.toInt + b.toInt, 2⟩ s

/-- DINV (R103). -/
def execDinv (rd rs1 : Reg) (rm : RoundingMode) (ov : OverflowMode) (sc : ScaleField) (s : State) : Result :=
  withScale (.dinv rd rs1 rm ov sc) sc s fun k =>
    readX rs1 s fun a s =>
      if a.toInt = 0 then raise (.dinv rd rs1 rm ov sc) .divisionByZero s
      else finishRounded (.dinv rd rs1 rm ov sc) rd [a] k rm ov (.ofDiv (10 ^ (2 * k)) a.toInt) s

end Sys2Proof.Machine
end

