-- ==== Sys2Proof/Machine/Power.lean ====
section
/-! DEFINITION. DPOW (`44_arith.md` R100, R101): its special cases are exact; otherwise its outcome is the OPEN parameter
`POW_RESULT`, one of the outcomes R101 admits. -/

namespace Sys2Proof.Machine

/-- R100: the exact result `(a / 10^s)^n × 10^s`. -/
def powExact (a n : Int) (sc : Nat) : Ratio :=
  if 0 ≤ n then ⟨a ^ n.toNat * 10 ^ sc, 10 ^ (sc * n.toNat)⟩
  else .ofDiv (10 ^ (sc * (-n).toNat) * 10 ^ sc) (a ^ (-n).toNat)

/-- R101: `|r - E| < 2`. -/
abbrev withinTwo (q : Ratio) (r : Int) : Prop := (r * q.den - q.num).natAbs < 2 * q.den

/-- R101: the candidates `C`: the integers within two units of the exact result; each is one of these four. -/
def candidates (q : Ratio) : List Int :=
  [q.floor - 1, q.floor, q.floor + 1, q.floor + 2].filter fun r => decide (withinTwo q r)

/-- R101: some candidate does not fit. -/
def someCandidateUnfit (q : Ratio) : Bool := (candidates q).any fun r => decide (¬ fits64 r)

/-- R101: the outcomes admitted for the exact result `q` under the modes `m` and `ov`. -/
def admitted (q : Ratio) (m : RoundingMode) (ov : OverflowMode) : Config.PowOutcome → Bool
  | .word w =>
    (decide (m ≠ .unnecessary) && decide (withinTwo q w.toInt)) ||
      (decide (m = .unnecessary) && decide (w.toInt * q.den = q.num)) ||
      (decide (ov = .unchecked) && someCandidateUnfit q)
  | .overflow => decide (ov = .checked) && someCandidateUnfit q
  | .roundingNecessary => decide (m = .unnecessary)

/-- An outcome of POW_RESULT as a command's result. -/
def powResultOf : Config.PowOutcome → Except EngineFault Word
  | .word w => .ok w
  | .overflow => .error .overflow
  | .roundingNecessary => .error .roundingNecessary

/-- R101: POW_RESULT: the parameter's outcome where it is an admitted one, and otherwise the conforming choice
`DecResult(E, m, ov)`, which is always admitted. Every function that keeps to R101 is some value of the parameter, and
nothing else is (log 7). -/
def powOutcome (c : OpContext) (a n : Int) (ov : OverflowMode) : Except EngineFault Word :=
  if admitted (powExact a n c.sc) c.rm ov (Config.powResult a n c.sc c.rm ov) then
    powResultOf (Config.powResult a n c.sc c.rm ov)
  else decResult c (powExact a n c.sc) ov

/-- DPOW (R100). -/
def execDpow (rd rs1 rs2 : Reg) (rm : RoundingMode) (ov : OverflowMode) (sc : ScaleField) (s : State) : Result :=
  withScale (.dpow rd rs1 rs2 rm ov sc) sc s fun k =>
    readX rs2 s fun e s =>
      if e.toInt < -999999999 ∨ 999999999 < e.toInt then raise (.dpow rd rs1 rs2 rm ov sc) .exponentRange s
      else
        readX rs1 s fun w s =>
          let a := w.toInt
          let n := e.toInt
          if n = 0 then .next (s.writeReg rd (word64 (10 ^ k)))
          else if a = 0 then
            if n < 0 then raise (.dpow rd rs1 rs2 rm ov sc) .divisionByZero s else .next (s.writeReg rd 0)
          else if n = 1 then .next (s.writeReg rd w)
          else if a = 10 ^ k then .next (s.writeReg rd (word64 (10 ^ k)))
          else if a = -10 ^ k then
            .next (s.writeReg rd (word64 (if n % 2 = 0 then 10 ^ k else -10 ^ k)))
          else
            finish (.dpow rd rs1 rs2 rm ov sc) rd (powOutcome ⟨(Instr.dpow rd rs1 rs2 rm ov sc).opcode, [w, e], k, rm⟩ a n ov) s

end Sys2Proof.Machine
end

