-- ==== Sys2Proof/Machine/RoundingCommands.lean ====
section
/-! DEFINITION. RCLASS and RINC (`43_rounding.md` R89, R90). -/

namespace Sys2Proof.Machine

/-- RCLASS (R89). -/
def execRclass (rd rs1 rs2 : Reg) (s : State) : Result :=
  readX2 rs1 rs2 s fun r d s => .next (s.writeReg rd (word64 (classify r.toInt d.toInt).code))

/-- RINC (R90): `neg` is bit 63 of `x[rs1]`, `odd` bit 0 of `x[rs2]`, the part is the code in `x[rc]`. -/
def execRinc (rd rs1 rs2 rc : Reg) (rm : RoundingMode) (s : State) : Result :=
  readX2 rs1 rs2 s fun a b s =>
    readX rc s fun p s =>
      match partOfCode p.toInt with
      | none => raise (.rinc rd rs1 rs2 rc rm) .partCode s
      | some part =>
        match incrementFor rm (a.getLsbD 63) (b.getLsbD 0) part with
        | .error e => raise (.rinc rd rs1 rs2 rc rm) e s
        | .ok inc => .next (s.writeReg rd (word64 inc))

end Sys2Proof.Machine
end

