-- ==== Sys2Proof/Machine/ScaleMetrics.lean ====
section
/-! DEFINITION. ScaleMetrics (`40_scalemetrics.md`): the constants of a scale and the nine commands that use them. -/

namespace Sys2Proof.Machine

/-- R57: `scaleFactor(s) = 10^s`. -/
def scaleFactor (sc : Nat) : Nat := 10 ^ sc

/-- R57: `nlzFactor(s) = 63 - floor(log2(10^s))`. -/
def nlzFactor (sc : Nat) : Nat := 63 - (scaleFactor sc).log2

/-- R57: `maxInt(s) = trunc(MAX / 10^s)`. -/
def maxInt (sc : Nat) : Int := maxWord.tdiv (scaleFactor sc)

/-- R57: `minInt(s) = trunc(MIN / 10^s)`. -/
def minInt (sc : Nat) : Int := minWord.tdiv (scaleFactor sc)

/-- SFACT (R60). -/
def execSfact (rd : Reg) (sc : ScaleField) (s : State) : Result :=
  withScale (.sfact rd sc) sc s fun k => .next (s.writeReg rd (word64 (scaleFactor k)))

/-- SNLZ (R61). -/
def execSnlz (rd : Reg) (sc : ScaleField) (s : State) : Result :=
  withScale (.snlz rd sc) sc s fun k => .next (s.writeReg rd (word64 (nlzFactor k)))

/-- SMAXI (R62). -/
def execSmaxi (rd : Reg) (sc : ScaleField) (s : State) : Result :=
  withScale (.smaxi rd sc) sc s fun k => .next (s.writeReg rd (word64 (maxInt k)))

/-- SMINI (R63). -/
def execSmini (rd : Reg) (sc : ScaleField) (s : State) : Result :=
  withScale (.smini rd sc) sc s fun k => .next (s.writeReg rd (word64 (minInt k)))

/-- SMUL (R64). -/
def execSmul (rd rs1 : Reg) (ov : OverflowMode) (sc : ScaleField) (s : State) : Result :=
  withScale (.smul rd rs1 ov sc) sc s fun k =>
    readX rs1 s fun a s => finishWrapping (.smul rd rs1 ov sc) rd ov (a.toInt * scaleFactor k) s

/-- SDIV (R65). -/
def execSdiv (rd rs1 : Reg) (sc : ScaleField) (s : State) : Result :=
  withScale (.sdiv rd rs1 sc) sc s fun k =>
    readX rs1 s fun a s => .next (s.writeReg rd (word64 (a.toInt.tdiv (scaleFactor k))))

/-- SMOD (R66). -/
def execSmod (rd rs1 : Reg) (sc : ScaleField) (s : State) : Result :=
  withScale (.smod rd rs1 sc) sc s fun k =>
    readX rs1 s fun a s =>
      .next (s.writeReg rd (word64 (a.toInt - scaleFactor k * a.toInt.tdiv (scaleFactor k))))

/-- R68, R69: the exact product of bits 31:0 of a register, unsigned, and the scale factor. -/
def halfProduct (a : Word) (sc : Nat) : Nat := (a.extractLsb' 0 32).toNat * scaleFactor sc

/-- SMULHI (R68): bits 63:32 of the product, zero-extended. -/
def execSmulhi (rd rs1 : Reg) (sc : ScaleField) (s : State) : Result :=
  withScale (.smulhi rd rs1 sc) sc s fun k =>
    readX rs1 s fun a s => .next (s.writeReg rd (BitVec.ofNat 64 (halfProduct a k / 2 ^ 32 % 2 ^ 32)))

/-- SMULLO (R69): bits 31:0 of the product, zero-extended. -/
def execSmullo (rd rs1 : Reg) (sc : ScaleField) (s : State) : Result :=
  withScale (.smullo rd rs1 sc) sc s fun k =>
    readX rs1 s fun a s => .next (s.writeReg rd (BitVec.ofNat 64 (halfProduct a k % 2 ^ 32)))

end Sys2Proof.Machine
end

