-- ==== Sys2Proof/Machine/ShiftRoundCompare.lean ====
section
/-! DEFINITION. Shift, round and compare (`45_shift_round_compare.md`). -/

namespace Sys2Proof.Machine

/-- R104: `a × 2^n` for a count that may be any 64-bit number. A count above 64 gives the result of 64 (a nonzero value
out of range), one below -66 that of -66 (a nonzero fraction under one half), so that no astronomical power is formed;
`DecResult` of it is that of the exact value (log 12). -/
def shiftedExact (a n : Int) : Ratio := .scale2 a (max (-66) (min 64 n))

/-- DSHL (R104). -/
def execDshl (rd rs1 rs2 : Reg) (rm : RoundingMode) (ov : OverflowMode) (sc : ScaleField) (s : State) : Result :=
  withScale (.dshl rd rs1 rs2 rm ov sc) sc s fun k =>
    readX2 rs1 rs2 s fun a n s =>
      finishRounded (.dshl rd rs1 rs2 rm ov sc) rd [a, n] k rm ov (shiftedExact a.toInt n.toInt) s

/-- DSHR (R105): `a / 2^n`. -/
def execDshr (rd rs1 rs2 : Reg) (rm : RoundingMode) (ov : OverflowMode) (sc : ScaleField) (s : State) : Result :=
  withScale (.dshr rd rs1 rs2 rm ov sc) sc s fun k =>
    readX2 rs1 rs2 s fun a n s =>
      finishRounded (.dshr rd rs1 rs2 rm ov sc) rd [a, n] k rm ov (shiftedExact a.toInt (-n.toInt)) s

/-- R106: `Round(a / 10^k, rm) × 10^k`, written if it fits. -/
def roundedTo (c : OpContext) (a : Int) (k : Nat) (ov : OverflowMode) : Except EngineFault Word :=
  match round ⟨a, 10 ^ k⟩ c.rm with
  | .error e => .error e
  | .ok r => fitResult c ov (r * 10 ^ k)

/-- DROUND (R106). -/
def execDround (rd rs1 rs2 : Reg) (rm : RoundingMode) (ov : OverflowMode) (sc : ScaleField) (s : State) : Result :=
  withScale (.dround rd rs1 rs2 rm ov sc) sc s fun k =>
    readX rs2 s fun p s =>
      if 18 < (k : Int) - p.toInt then raise (.dround rd rs1 rs2 rm ov sc) .precisionRange s
      else
        readX rs1 s fun a s =>
          if (k : Int) ≤ p.toInt then .next (s.writeReg rd a)
          else
            finish (.dround rd rs1 rs2 rm ov sc) rd
              (roundedTo ⟨(Instr.dround rd rs1 rs2 rm ov sc).opcode, [a, p], k, rm⟩ a.toInt ((k : Int) - p.toInt).toNat ov) s

/-- DCMP (R107): `rm` and `ov` have no effect. -/
def execDcmp (rd rs1 rs2 : Reg) (rm : RoundingMode) (ov : OverflowMode) (sc : ScaleField) (s : State) : Result :=
  withScale (.dcmp rd rs1 rs2 rm ov sc) sc s fun _ =>
    readX2 rs1 rs2 s fun a b s => .next (s.writeReg rd (word64 (sgn (a.toInt - b.toInt))))

/-- DCMPU (R108): the sign of `a × 10^t - b × 10^s`. -/
def execDcmpu (rd rs1 rs2 rc : Reg) (rm : RoundingMode) (ov : OverflowMode) (sc : ScaleField) (s : State) : Result :=
  withScale (.dcmpu rd rs1 rs2 rc rm ov sc) sc s fun k =>
    withSecondScale (.dcmpu rd rs1 rs2 rc rm ov sc) rc s fun t s =>
      readX2 rs1 rs2 s fun a b s => .next (s.writeReg rd (word64 (sgn (a.toInt * 10 ^ t - b.toInt * 10 ^ k))))

end Sys2Proof.Machine
end

