-- ==== Sys2Proof/Machine/Text.lean ====
section
/-! DEFINITION. Decimal text and the two commands on it (`47_string.md`), in the ASCII codes of `20_memory.md` R31. -/

namespace Sys2Proof.Machine

/-- R31: `'+'`. -/
def plusChar : Byte := 0x2B
/-- R31: `'-'`. -/
def minusChar : Byte := 0x2D
/-- R31: `'.'`. -/
def pointChar : Byte := 0x2E
/-- R31: the code of a decimal digit. -/
def digitChar (d : Nat) : Byte := BitVec.ofNat 8 (0x30 + d)

/-- R31, R115: the digit a character stands for. -/
def digitValue (c : Byte) : Option Nat :=
  if 0x30 ≤ c.toNat ∧ c.toNat ≤ 0x39 then some (c.toNat - 0x30) else none

/-- The longest run of digits a text starts with, and the rest. -/
def takeDigits : List Byte → List Nat × List Byte
  | [] => ([], [])
  | c :: cs =>
    match digitValue c with
    | none => ([], c :: cs)
    | some d => (d :: (takeDigits cs).1, (takeDigits cs).2)

/-- The number a digit sequence denotes in base ten. -/
def digitsNumber (ds : List Nat) : Nat := ds.foldl (fun n d => 10 * n + d) 0

/-- R115: the optional sign: whether it is `-`, and the rest. -/
def takeSign : List Byte → Bool × List Byte
  | [] => (false, [])
  | c :: cs => if c = plusChar then (false, cs) else if c = minusChar then (true, cs) else (false, c :: cs)

/-- R115: the value of a literal with the given sign, integral digits and fractional digits. -/
def literalValue (neg : Bool) (ip fp : List Nat) : Ratio :=
  let n : Int := digitsNumber (ip ++ fp)
  ⟨if neg then -n else n, 10 ^ fp.length⟩

/-- R115: the value of a text that is a literal, none for any other text. -/
def parseLiteral (t : List Byte) : Option Ratio :=
  let sign := takeSign t
  let int := takeDigits sign.2
  if int.1 = [] then none
  else
    match int.2 with
    | [] => some (literalValue sign.1 int.1 [])
    | c :: cs =>
      let frac := takeDigits cs
      if c = pointChar ∧ frac.1 ≠ [] ∧ frac.2 = [] then some (literalValue sign.1 int.1 frac.1) else none

/-- PARSE (R117), always checked. A byte below TLEN that has not been written stops the model (R24, I5; log 2). -/
def execParse (rd : Reg) (rm : RoundingMode) (sc : ScaleField) (s : State) : Result :=
  withScale (.parse rd rm sc) sc s fun k =>
    match memRead s.tbuf 0 s.tlen.toNat with
    | .error a => .fault (.unwrittenText a)
    | .ok t =>
      match parseLiteral t with
      | none => raise (.parse rd rm sc) .malformedText s
      | some v =>
        finishRounded (.parse rd rm sc) rd (t.map (BitVec.setWidth 64)) k rm .checked (v.mulInt (10 ^ k)) s

/-- R116: the decimal digits of a number below `10 ^ (fuel + 1)`, without leading zeros; "0" for 0. -/
def decimalText : Nat → Nat → List Byte
  | 0, n => [digitChar (n % 10)]
  | fuel + 1, n => if n < 10 then [digitChar n] else decimalText fuel (n / 10) ++ [digitChar (n % 10)]

/-- R116: the last `k` decimal digits of a number, left-padded with "0". -/
def paddedText : Nat → Nat → List Byte
  | 0, _ => []
  | k + 1, n => paddedText k (n / 10) ++ [digitChar (n % 10)]

/-- R116: `Text(a, s)`. The integral part is at most 2^63, so 20 digits are enough. -/
def formatText (a : Int) (sc : Nat) : List Byte :=
  let ip := a.natAbs / 10 ^ sc
  let fp := a.natAbs - ip * 10 ^ sc
  (if a < 0 then [minusChar] else []) ++ decimalText 19 ip ++
    (if 0 < sc then pointChar :: paddedText sc fp else [])

/-- FORMAT (R118): the text goes to TBUF from address 0 and its length to TLEN. -/
def execFormat (rs1 : Reg) (sc : ScaleField) (s : State) : Result :=
  withScale (.format rs1 sc) sc s fun k =>
    readX rs1 s fun a s =>
      let t := formatText a.toInt k
      .next { s with tbuf := memWrite s.tbuf 0 t, tlen := BitVec.ofNat 32 t.length }

end Sys2Proof.Machine
end

