-- ==== Sys2Proof/Machine/Wide128.lean ====
section
/-! DEFINITION. Wide128 (`42_wide128.md`): only the exact 128-bit results are architectural (R79). -/

namespace Sys2Proof.Machine

/-- R80, R81: write a 128-bit pattern, its high half to `rd` and its low half to `rc`. -/
def writeWide (rd rc : Reg) (w : BitVec 128) (s : State) : State :=
  (s.writeReg rd (w.extractLsb' 64 64)).writeReg rc (w.extractLsb' 0 64)

/-- WMULS (R80). The word with rd = rc is illegal (R52); decode never gives it. -/
def execWmuls (rd rs1 rs2 rc : Reg) (s : State) : Result :=
  if rd = rc then raise (.wmuls rd rs1 rs2 rc) (.illegal .destConflict) s
  else readX2 rs1 rs2 s fun a b s => .next (writeWide rd rc (BitVec.ofInt 128 (a.toInt * b.toInt)) s)

/-- WMULU (R81). The word with rd = rc is illegal (R52); decode never gives it. -/
def execWmulu (rd rs1 rs2 rc : Reg) (s : State) : Result :=
  if rd = rc then raise (.wmulu rd rs1 rs2 rc) (.illegal .destConflict) s
  else readX2 rs1 rs2 s fun a b s => .next (writeWide rd rc (BitVec.ofNat 128 (a.toNat * b.toNat)) s)

/-- R82: the exact quotient of a 128-bit magnitude by an unsigned divisor, with the sign of `n`. -/
def wideQuotient (hi lo v : Word) (n : QuotientSign) : Ratio :=
  let d : Int := hi.toNat * 2 ^ 64 + lo.toNat
  ⟨match n with | .pos => d | .neg => -d, v.toNat⟩

/-- DIV128 (R82), always checked. -/
def execDiv128 (rd rs1 rs2 rc : Reg) (rm : RoundingMode) (n : QuotientSign) (s : State) : Result :=
  readX2 rs1 rs2 s fun hi lo s =>
    readX rc s fun v s =>
      if v.toNat = 0 then raise (.div128 rd rs1 rs2 rc rm n) .divisionByZero s
      else finishRounded (.div128 rd rs1 rs2 rc rm n) rd [hi, lo, v, n.bits.setWidth 64] 0 rm .checked
        (wideQuotient hi lo v n) s

end Sys2Proof.Machine
end

