-- ==== Sys2Proof/Machine/Dispatch.lean ====
section
/-! DEFINITION. `Execute(d)` of R121: one arm per command, each its own meaning. -/

namespace Sys2Proof.Machine

/-- The effect of a decoded command (R121), its fault included. -/
def exec (i : Instr) (s : State) : Host.Outcome State Fault Refusal :=
  match i with
  | .add64 rd rs1 rs2 ov => Sys2Proof.Machine.execAdd64 rd rs1 rs2 ov s
  | .sub64 rd rs1 rs2 ov => Sys2Proof.Machine.execSub64 rd rs1 rs2 ov s
  | .mul64 rd rs1 rs2 ov => Sys2Proof.Machine.execMul64 rd rs1 rs2 ov s
  | .div64 rd rs1 rs2 ov => Sys2Proof.Machine.execDiv64 rd rs1 rs2 ov s
  | .neg64 rd rs1 ov => Sys2Proof.Machine.execNeg64 rd rs1 ov s
  | .abs64 rd rs1 ov => Sys2Proof.Machine.execAbs64 rd rs1 ov s
  | .ucmp64 rd rs1 rs2 => Sys2Proof.Machine.execUcmp64 rd rs1 rs2 s
  | .udiv64 rd rs1 rs2 => Sys2Proof.Machine.execUdiv64 rd rs1 rs2 s
  | .wmuls rd rs1 rs2 rc => Sys2Proof.Machine.execWmuls rd rs1 rs2 rc s
  | .wmulu rd rs1 rs2 rc => Sys2Proof.Machine.execWmulu rd rs1 rs2 rc s
  | .div128 rd rs1 rs2 rc rm n => Sys2Proof.Machine.execDiv128 rd rs1 rs2 rc rm n s
  | .rclass rd rs1 rs2 => Sys2Proof.Machine.execRclass rd rs1 rs2 s
  | .rinc rd rs1 rs2 rc rm => Sys2Proof.Machine.execRinc rd rs1 rs2 rc rm s
  | .sfact rd sc => Sys2Proof.Machine.execSfact rd sc s
  | .snlz rd sc => Sys2Proof.Machine.execSnlz rd sc s
  | .smaxi rd sc => Sys2Proof.Machine.execSmaxi rd sc s
  | .smini rd sc => Sys2Proof.Machine.execSmini rd sc s
  | .smul rd rs1 ov sc => Sys2Proof.Machine.execSmul rd rs1 ov sc s
  | .sdiv rd rs1 sc => Sys2Proof.Machine.execSdiv rd rs1 sc s
  | .smod rd rs1 sc => Sys2Proof.Machine.execSmod rd rs1 sc s
  | .smulhi rd rs1 sc => Sys2Proof.Machine.execSmulhi rd rs1 sc s
  | .smullo rd rs1 sc => Sys2Proof.Machine.execSmullo rd rs1 sc s
  | .dadd rd rs1 rs2 rm ov sc => Sys2Proof.Machine.execDadd rd rs1 rs2 rm ov sc s
  | .dsub rd rs1 rs2 rm ov sc => Sys2Proof.Machine.execDsub rd rs1 rs2 rm ov sc s
  | .dmul rd rs1 rs2 rm ov sc => Sys2Proof.Machine.execDmul rd rs1 rs2 rm ov sc s
  | .dmulu rd rs1 rs2 rc rm ov sc => Sys2Proof.Machine.execDmulu rd rs1 rs2 rc rm ov sc s
  | .ddiv rd rs1 rs2 rm ov sc => Sys2Proof.Machine.execDdiv rd rs1 rs2 rm ov sc s
  | .ddivu rd rs1 rs2 rc rm ov sc => Sys2Proof.Machine.execDdivu rd rs1 rs2 rc rm ov sc s
  | .dsqr rd rs1 rm ov sc => Sys2Proof.Machine.execDsqr rd rs1 rm ov sc s
  | .dsqrt rd rs1 rm ov sc => Sys2Proof.Machine.execDsqrt rd rs1 rm ov sc s
  | .dpow rd rs1 rs2 rm ov sc => Sys2Proof.Machine.execDpow rd rs1 rs2 rm ov sc s
  | .davg rd rs1 rs2 rm ov sc => Sys2Proof.Machine.execDavg rd rs1 rs2 rm ov sc s
  | .dinv rd rs1 rm ov sc => Sys2Proof.Machine.execDinv rd rs1 rm ov sc s
  | .dshl rd rs1 rs2 rm ov sc => Sys2Proof.Machine.execDshl rd rs1 rs2 rm ov sc s
  | .dshr rd rs1 rs2 rm ov sc => Sys2Proof.Machine.execDshr rd rs1 rs2 rm ov sc s
  | .dround rd rs1 rs2 rm ov sc => Sys2Proof.Machine.execDround rd rs1 rs2 rm ov sc s
  | .dcmp rd rs1 rs2 rm ov sc => Sys2Proof.Machine.execDcmp rd rs1 rs2 rm ov sc s
  | .dcmpu rd rs1 rs2 rc rm ov sc => Sys2Proof.Machine.execDcmpu rd rs1 rs2 rc rm ov sc s
  | .todbl rd rs1 rm sc => Sys2Proof.Machine.execTodbl rd rs1 rm sc s
  | .toflt rd rs1 rm sc => Sys2Proof.Machine.execToflt rd rs1 rm sc s
  | .fromdbl rd rs1 rm sc => Sys2Proof.Machine.execFromdbl rd rs1 rm sc s
  | .fromflt rd rs1 rm sc => Sys2Proof.Machine.execFromflt rd rs1 rm sc s
  | .parse rd rm sc => Sys2Proof.Machine.execParse rd rm sc s
  | .format rs1 sc => Sys2Proof.Machine.execFormat rs1 sc s

end Sys2Proof.Machine
end

