-- ==== Sys2Proof/Machine/Window.lean ====
section
/-! DEFINITION. The host window (`20_memory.md` R28..R34): its address map, and reads and writes of everything but CMD. -/

namespace Sys2Proof.Machine

/-- R29: the platform's address of a window offset. The engine itself decodes offset bits 7:0 only (log 13). -/
def windowAddress (offset : BitVec 8) : Word := Config.engineBase + offset.setWidth 64

/-- R32: the size of an access in bytes. -/
def Width.bytes : Width → Nat
  | .one => 1 | .two => 2 | .four => 4 | .eight => 8

/-- What an access of the window reaches (R29, R32). -/
inductive Target where
  /-- byte `byte` onward of register X`reg` -/
  | x (reg : Reg) (byte : Nat)
  | cmd
  | status
  | fcmd
  | ctrl
  | tlen
  /-- TBUF from address `addr` onward -/
  | tbuf (addr : Nat)
  /-- a reserved offset: reads 0, ignores writes -/
  | reserved
  /-- an access that is not accepted: reads 0, changes nothing -/
  | notAccepted
  deriving DecidableEq, Repr

/-- R32: which 32-bit register a 4-byte access at an offset of 0x080..0x093 reaches. -/
def locateControl (o : Nat) : Target :=
  if o = 0x80 then .cmd
  else if o = 0x84 then .status
  else if o = 0x88 then .fcmd
  else if o = 0x8C then .ctrl
  else .tlen

/-- R29, R32: the address map. -/
def locate (offset : BitVec 8) (w : Width) : Target :=
  let o := offset.toNat
  if o % w.bytes ≠ 0 then .notAccepted
  else if o < 0x80 then .x (Fin.ofNat 16 (o / 8)) (o % 8)
  else if o < 0x94 then if w = .four then locateControl o else .notAccepted
  else if o < 0xC0 then .reserved
  else .tbuf (o - 0xC0)

/-- R30: the word whose bytes are the given ones, the first the least significant. -/
def bytesToWord : List Byte → Word
  | [] => 0
  | b :: bs => b.setWidth 64 ||| (bytesToWord bs <<< 8)

/-- R30: the low `n` bytes of a word, the least significant first. -/
def wordToBytes : Nat → Word → List Byte
  | 0, _ => []
  | n + 1, w => w.setWidth 8 :: wordToBytes n (w >>> 8)

/-- R30: bits `8k .. 8(k+n)-1` of a word, zero-extended. -/
def wordBytes (w : Word) (k n : Nat) : Word := (w >>> (8 * k)) &&& BitVec.ofNat 64 (2 ^ (8 * n) - 1)

/-- R33: the bits of a word that a write of `n` bytes from byte `k` changes. -/
def byteMask (k n : Nat) : Word := BitVec.ofNat 64 (2 ^ (8 * n) - 1) <<< (8 * k)

/-- R33: a host write of the low `n` bytes of `d` to bytes `k..k+n-1` of register Xi; the other bytes keep their values,
and only these count as written. -/
def writeRegBytes (r : Reg) (k n : Nat) (d : Word) (s : State) : State :=
  { s with
    x := s.x.set r.val ((s.reg r &&& ~~~ byteMask k n) ||| ((d <<< (8 * k)) &&& byteMask k n))
    xWritten := s.xWritten.set r.val (s.xWritten[r.val] ||| (BitVec.ofNat 8 (2 ^ n - 1) <<< k)) }

/-- R20: a host write of CTRL: only FIE is writable. -/
def writeCtrl (w : BitVec 32) (s : State) : State := { s with ctrl := { fie := w.getLsbD 0 } }

/-- R22: a host write of TLEN: an illegal length is ignored. -/
def writeTlen (w : BitVec 32) (s : State) : State := if w.toNat ≤ 64 then { s with tlen := w } else s

/-- What a read returns to the host; the state is otherwise unchanged (R34; log 4). -/
def returnData (w : Word) (s : State) : Result := .next { s with readData := some w }

/-- A host read of the window (R29, R32). CMD reads 0 (R23). A read of an X register that does not count as written is
noted (R16, R33), and one of a TBUF byte not written stops the model (R24, I5). -/
def readWindow (offset : BitVec 8) (w : Width) (s : State) : Result :=
  match locate offset w with
  | .x r k => readX r s fun v s => returnData (wordBytes v k w.bytes) s
  | .cmd => returnData 0 s
  | .status => returnData (s.status.word.setWidth 64) s
  | .fcmd => returnData (s.fcmd.setWidth 64) s
  | .ctrl => returnData (s.ctrl.word.setWidth 64) s
  | .tlen => returnData (s.tlen.setWidth 64) s
  | .tbuf a =>
    match memRead s.tbuf a w.bytes with
    | .error a => .fault (.unwrittenText a)
    | .ok bs => returnData (bytesToWord bs) s
  | .reserved => returnData 0 s
  | .notAccepted => returnData 0 s

/-- A host write of the window to anything but CMD (R29, R32). -/
def writeWindow (t : Target) (w : Width) (d : Word) (s : State) : State :=
  match t with
  | .x r k => writeRegBytes r k w.bytes d s
  | .cmd => s
  | .status => writeStatus (d.setWidth 32) s
  | .fcmd => s
  | .ctrl => writeCtrl (d.setWidth 32) s
  | .tlen => writeTlen (d.setWidth 32) s
  | .tbuf a => { s with tbuf := memWrite s.tbuf a (wordToBytes w.bytes d) }
  | .reserved => s
  | .notAccepted => s

end Sys2Proof.Machine
end

