-- ==== Sys2Proof/Machine/Issue.lean ====
section
/-! DEFINITION. Issuing a command (`60_exceptions.md` R121, R124) and performing one input of the engine. -/

namespace Sys2Proof.Machine

/-- R121: a host write of `w` to CMD: dropped while FAULT = 1, else decoded and executed; an illegal word faults. -/
def issueCommand (w : CommandWord) (s : State) : Result :=
  if s.status.fault then .next (dropCommand s)
  else
    match decode w with
    | .error k => .next (takeFault w (.illegal k) s)
    | .ok i => exec i s

/-- A host write of the window: at CMD it issues a command, elsewhere it writes (R34). -/
def performWrite (offset : BitVec 8) (w : Width) (d : Word) (s : State) : Result :=
  match locate offset w with
  | .cmd => issueCommand (d.setWidth 32) s
  | t => .next (writeWindow t w d s)

/-- One input, to completion (R37): a read, a write, or reset (R138), after which the inputs still to come are performed
on the reset state. -/
def perform (a : HostInput) (s : State) : Result :=
  match a with
  | .read o w => readWindow o w s
  | .write o w d => performWrite o w d { s with readData := none }
  | .reset => .next { State.reset with host := s.host }

/-- The engine's next move: the oldest input that waits is performed (R37); with none the engine is idle (R136). -/
def performNext (s : State) : Result :=
  match s.host with
  | [] => .next s
  | a :: rest => perform a { s with host := rest }

/-- The host access that issues a command: a 4-byte write at 0x080 (R23, R32). -/
def commandWrite (w : CommandWord) : HostInput := .write 0x80 .four (w.setWidth 64)

/-- The state in which the next step issues the word `w`: it is the host's next access, and no fault is recorded (a host
clears it by writing STATUS bit 0, R125; log 3). -/
def placeCommand (w : CommandWord) (s : State) : State :=
  { s with
    host := commandWrite w :: s.host
    status := { s.status with fault := false, err := 0, sub := 0 } }

end Sys2Proof.Machine
end

