-- ==== Sys2Proof/Machine/Step.lean ====
section
/-! DEFINITION. The step function: one input of the engine per step (`20_memory.md` R37). -/

namespace Sys2Proof.Machine

/-- One step: the oldest input that waits is performed to completion; with none the engine is idle. -/
def step (s : State) : Host.Outcome State Fault Refusal := performNext s

/-- The state whose very next step runs the command whose bits are `w`, every bit at and above `nbits` being 0: the word
is the host's next write to CMD and no fault is recorded. -/
def State.withFetchWord (s : State) (nbits w : Nat) : State :=
  placeCommand (BitVec.ofNat 32 (w % 2 ^ nbits)) s

end Sys2Proof.Machine
end

