-- ==== Sys2Proof/Safety.lean ====
section
/-! DEFINITION. The terms the statements use: the invariant of the machine, what it means that a command completed or
faulted with everything else unchanged, and the spec's rounding, roots and texts said in exact rationals, independently of
how the machine computes them. -/

namespace Sys2Proof.Machine

/-! ### The invariant -/

/-- R120: the pairs (ERR, SUB) that are ever recorded. -/
def recordedPair (err sub : BitVec 4) : Bool :=
  (err == 1 && 1 ≤ sub.toNat && sub.toNat ≤ 3) || (err == 2 && 1 ≤ sub.toNat && sub.toNat ≤ 9) ||
    (err == 3 && sub == 0) || (err == 4 && sub == 0)

/-- What every state of a run keeps: the text buffer's canonical form, a legal TLEN (R22), and a fault record that is
empty while FAULT = 0 (R18) and one of R120's pairs while FAULT = 1. -/
structure Inv (s : State) : Prop where
  tbuf : s.tbuf.wf
  tlen : s.tlen.toNat ≤ 64
  cleared : s.status.fault = false → s.status.err = 0 ∧ s.status.sub = 0
  recorded : s.status.fault = true → recordedPair s.status.err s.status.sub = true

/-- R143: the first `k` inputs of `s` are one run, which ends in `t`: no reset is among them (a run that contains a reset
is two runs, I12), no read of an unwritten TBUF byte stopped it, and no read of an unwritten register occurred in it
(R137). What is observed at its end is `t` and `t.irq`. -/
def WellFormedRun (k : Nat) (s t : State) : Prop :=
  .reset ∉ s.host.take k ∧ Sys2Proof.core.run k s = .next t ∧ t.unwrittenRead = false

/-! ### Frames -/

/-- TLEN and every byte of TBUF read the same. -/
def SameText (s t : State) : Prop := t.tlen = s.tlen ∧ ∀ a, t.tbuf.read a = s.tbuf.read a

/-- CTRL and the model's own input and output fields are the same. -/
def SameOutside (s t : State) : Prop := t.ctrl = s.ctrl ∧ t.host = s.host ∧ t.readData = s.readData

/-- Every X register but those listed holds what it held, and as many of its bytes count as written. -/
def SameRegsBut (rds : List Reg) (s t : State) : Prop :=
  ∀ r : Reg, r ∉ rds → t.reg r = s.reg r ∧ t.xWritten[r.val] = s.xWritten[r.val]

/-- R16, R137: the registers `srcs` were read: the record of an unwritten read is set if one of them does not count as
written, and is otherwise as before. -/
def NotesReads (srcs : List Reg) (s t : State) : Prop :=
  t.unwrittenRead = (s.unwrittenRead || srcs.any fun r => !s.isWritten r)

/-- A command completed: it read `srcs`, wrote the word `w` to `rd`, left STATUS.V at `v`, and changed nothing else. -/
structure CompletesV (rd : Reg) (w : Word) (v : Bool) (srcs : List Reg) (s t : State) : Prop where
  dest : t.reg rd = w
  destWritten : t.isWritten rd = true
  regs : SameRegsBut [rd] s t
  status : t.status = { s.status with v := v }
  fcmd : t.fcmd = s.fcmd
  text : SameText s t
  outside : SameOutside s t
  noted : NotesReads srcs s t

/-- A command completed: it read `srcs`, wrote the word `w` to `rd`, and changed nothing else, STATUS included. -/
abbrev Completes (rd : Reg) (w : Word) (srcs : List Reg) (s t : State) : Prop := CompletesV rd w s.status.v srcs s t

/-- R123: the command whose word is `w` faulted with code `err` and subcode `sub`, having read `srcs`: FAULT, ERR, SUB and
FCMD are written, STATUS.V is `v`, and nothing else changed. -/
structure Faults (w : CommandWord) (err sub : BitVec 4) (v : Bool) (srcs : List Reg) (s t : State) : Prop where
  regs : SameRegsBut [] s t
  status : t.status = { fault := true, miss := s.status.miss, v := v, err := err, sub := sub }
  fcmd : t.fcmd = w
  text : SameText s t
  outside : SameOutside s t
  noted : NotesReads srcs s t

/-! ### Rounding in exact rationals -/

/-- R85, R87: the integer `r` is the exact value `q` rounded under the mode `m`. Under UNNECESSARY only an integer has
one. -/
def RoundsTo (q : ℚ) (m : RoundingMode) (r : Int) : Prop :=
  match m with
  | .up => r = if 0 ≤ q then ⌈q⌉ else ⌊q⌋
  | .down => r = if 0 ≤ q then ⌊q⌋ else ⌈q⌉
  | .ceiling => r = ⌈q⌉
  | .floor => r = ⌊q⌋
  | .halfUp => |q - r| ≤ 1 / 2 ∧ (|q - r| = 1 / 2 → |q| < |(r : ℚ)|)
  | .halfDown => |q - r| ≤ 1 / 2 ∧ (|q - r| = 1 / 2 → |(r : ℚ)| < |q|)
  | .halfEven => |q - r| ≤ 1 / 2 ∧ (|q - r| = 1 / 2 → r % 2 = 0)
  | .unnecessary => (r : ℚ) = q

/-- R99: the integer `r` is the square root of `n` rounded under the mode `m`; a root is never a tie. -/
def RootRoundsTo (n : Nat) (m : RoundingMode) (r : Nat) : Prop :=
  match m with
  | .down | .floor => r * r ≤ n ∧ n < (r + 1) * (r + 1)
  | .up | .ceiling => n ≤ r * r ∧ ∀ k, k < r → k * k < n
  | .halfUp | .halfDown | .halfEven => 4 * n < (2 * r + 1) * (2 * r + 1) ∧ (0 < r → (2 * r - 1) * (2 * r - 1) < 4 * n)
  | .unnecessary => r * r = n

/-- A word as an integer fits trivially; an exact value is out of the range of a word (R88). -/
def OutOfRange (q : ℚ) : Prop := q < minWord ∨ (maxWord : ℚ) < q

/-! ### How a command that rounds an exact value ends (R88, R91) -/

/-- Where the exact value `q` rounds to a word under `m`, the command completes and writes it. -/
def RoundsAndCompletes (i : Instr) (rd : Reg) (srcs : List Reg) (q : ℚ) (m : RoundingMode) (s : State) : Prop :=
  ∀ r : Int, RoundsTo q m r → fits64 r → ∃ t, exec i s = .next t ∧ Completes rd (BitVec.ofInt 64 r) srcs s t

/-- Where the exact value is not an integer and the mode is UNNECESSARY, the command faults with ROUNDING_NECESSARY. -/
def InexactFaults (i : Instr) (srcs : List Reg) (q : ℚ) (m : RoundingMode) (s : State) : Prop :=
  m = .unnecessary → (¬ ∃ r : Int, (r : ℚ) = q) →
    ∃ t, exec i s = .next t ∧ Faults (encode i) 4 0 s.status.v srcs s t

/-- Where it is out of range as well, under checking, the fault is OVERFLOW or ROUNDING_NECESSARY (ARITH_FAULT_CHOICE). -/
def InexactOutOfRangeFaults (i : Instr) (srcs : List Reg) (q : ℚ) (m : RoundingMode) (s : State) : Prop :=
  m = .unnecessary → (¬ ∃ r : Int, (r : ℚ) = q) → OutOfRange q →
    ∃ t, exec i s = .next t ∧
      (Faults (encode i) 3 0 s.status.v srcs s t ∨ Faults (encode i) 4 0 s.status.v srcs s t)

/-- Where the rounded value does not fit, under checking, the command faults with OVERFLOW. -/
def OverflowFaults (i : Instr) (srcs : List Reg) (q : ℚ) (m : RoundingMode) (s : State) : Prop :=
  ∀ r : Int, RoundsTo q m r → ¬ fits64 r →
    ∃ t, exec i s = .next t ∧ Faults (encode i) 3 0 s.status.v srcs s t

/-- Where the rounded value does not fit, without checking, the command completes with some word (UNCHECKED_WRAP). -/
def OverflowWraps (i : Instr) (rd : Reg) (srcs : List Reg) (q : ℚ) (m : RoundingMode) (s : State) : Prop :=
  ∀ r : Int, RoundsTo q m r → ¬ fits64 r → ∃ t w, exec i s = .next t ∧ Completes rd w srcs s t

/-- The other ends of a command with an overflow mode. -/
def RoundsOrFaults (i : Instr) (rd : Reg) (srcs : List Reg) (q : ℚ) (m : RoundingMode) (ov : OverflowMode)
    (s : State) : Prop :=
  (ov = .unchecked ∨ ¬ OutOfRange q → InexactFaults i srcs q m s) ∧
    (ov = .checked → InexactOutOfRangeFaults i srcs q m s ∧ OverflowFaults i srcs q m s) ∧
    (ov = .unchecked → OverflowWraps i rd srcs q m s)

/-- The other ends of a command that is always checked. -/
def RoundsOrFaultsChecked (i : Instr) (srcs : List Reg) (q : ℚ) (m : RoundingMode) (s : State) : Prop :=
  (¬ OutOfRange q → InexactFaults i srcs q m s) ∧ InexactOutOfRangeFaults i srcs q m s ∧ OverflowFaults i srcs q m s

/-- The other ends of a command whose exact value is in range wherever it is not an integer (the shifts). -/
def ShiftsOrFaults (i : Instr) (rd : Reg) (srcs : List Reg) (q : ℚ) (m : RoundingMode) (ov : OverflowMode)
    (s : State) : Prop :=
  InexactFaults i srcs q m s ∧ (ov = .checked → OverflowFaults i srcs q m s) ∧
    (ov = .unchecked → OverflowWraps i rd srcs q m s)

/-! ### Texts -/

/-- R31: the character of a decimal digit. -/
def asciiDigit (d : Nat) : Byte := BitVec.ofNat 8 (48 + d)

/-- The number a list of decimal digits, the most significant first, denotes. -/
def denotes (ds : List Nat) : Nat := Nat.ofDigits 10 ds.reverse

/-- R115: the text `t` is a literal and denotes the value `v`: an optional sign, one or more digits, and optionally a
point and one or more digits. -/
def IsLiteral (t : List Byte) (v : ℚ) : Prop :=
  ∃ (sign : List Byte) (ip fp : List Nat),
    (sign = [] ∨ sign = [0x2B] ∨ sign = [0x2D]) ∧ ip ≠ [] ∧ (∀ d ∈ ip ++ fp, d < 10) ∧
      t = sign ++ ip.map asciiDigit ++ (if fp = [] then [] else 0x2E :: fp.map asciiDigit) ∧
      v = (if sign = [0x2D] then -1 else 1) * ((denotes (ip ++ fp) : ℚ) / 10 ^ fp.length)

/-- R116: the text `t` is `Text(a, s)`: a `-` only for a negative value, the integral part without leading zeros ("0" for
zero), and exactly `s` fractional digits after a point that stands only when `s > 0`. -/
def IsTextOf (a : Int) (sc : Nat) (t : List Byte) : Prop :=
  ∃ ip fp : List Nat,
    ip ≠ [] ∧ (ip.head? = some 0 → ip = [0]) ∧ fp.length = sc ∧ (∀ d ∈ ip ++ fp, d < 10) ∧
      denotes (ip ++ fp) = a.natAbs ∧
      t = (if a < 0 then [0x2D] else []) ++ ip.map asciiDigit ++ (if sc = 0 then [] else 0x2E :: fp.map asciiDigit)

/-- The bytes of TBUF below TLEN, all written, are the text `t` (R22, R24). -/
def HoldsText (s : State) (t : List Byte) : Prop :=
  s.tlen.toNat = t.length ∧ ∀ k : Nat, k < t.length → s.tbuf.read k = t[k]?

/-! ### The spec's printed tables -/

/-- R51's columns op, match and mask, as printed. -/
def opcodeMap : List (Nat × CommandWord × CommandWord) :=
  [(0x01, 0x04000000, 0xFC003FBF), (0x02, 0x08000000, 0xFC003FBF), (0x03, 0x0C000000, 0xFC003FBF),
   (0x04, 0x10000000, 0xFC003FBF), (0x05, 0x14000000, 0xFC03FFBF), (0x06, 0x18000000, 0xFC03FFBF),
   (0x07, 0x1C000000, 0xFC003FFF), (0x08, 0x20000000, 0xFC003FFF), (0x09, 0x24000000, 0xFC0003FF),
   (0x0A, 0x28000000, 0xFC0003FF), (0x0B, 0x2C000000, 0xFC00007E), (0x0C, 0x30000000, 0xFC003FFF),
   (0x0D, 0x34000000, 0xFC00007F), (0x10, 0x40000000, 0xFC3FFFC1), (0x11, 0x44000000, 0xFC3FFFC1),
   (0x12, 0x48000000, 0xFC3FFFC1), (0x13, 0x4C000000, 0xFC3FFFC1), (0x14, 0x50000000, 0xFC03FF81),
   (0x15, 0x54000000, 0xFC03FFC1), (0x16, 0x58000000, 0xFC03FFC1), (0x17, 0x5C000000, 0xFC03FFC1),
   (0x18, 0x60000000, 0xFC03FFC1), (0x20, 0x80000000, 0xFC003C01), (0x21, 0x84000000, 0xFC003C01),
   (0x22, 0x88000000, 0xFC003C01), (0x23, 0x8C000000, 0xFC000001), (0x24, 0x90000000, 0xFC003C01),
   (0x25, 0x94000000, 0xFC000001), (0x26, 0x98000000, 0xFC03FC01), (0x27, 0x9C000000, 0xFC03FC01),
   (0x28, 0xA0000000, 0xFC003C01), (0x29, 0xA4000000, 0xFC003C01), (0x2A, 0xA8000000, 0xFC03FC01),
   (0x2B, 0xAC000000, 0xFC003C01), (0x2C, 0xB0000000, 0xFC003C01), (0x2D, 0xB4000000, 0xFC003C01),
   (0x2E, 0xB8000000, 0xFC003C01), (0x2F, 0xBC000000, 0xFC000001), (0x30, 0xC0000000, 0xFC03FC41),
   (0x31, 0xC4000000, 0xFC03FC41), (0x32, 0xC8000000, 0xFC03FC41), (0x33, 0xCC000000, 0xFC03FC41),
   (0x34, 0xD0000000, 0xFC3FFC41), (0x35, 0xD4000000, 0xFFC3FFC1)]

/-- R58's columns s, scaleFactor (hex), nlzFactor, maxInt and minInt, as printed. -/
def scaleTable : List (Nat × Word × Nat × Int × Int) :=
  [(0, 0x0000000000000001, 63, 9223372036854775807, -9223372036854775808),
   (1, 0x000000000000000A, 60, 922337203685477580, -922337203685477580),
   (2, 0x0000000000000064, 57, 92233720368547758, -92233720368547758),
   (3, 0x00000000000003E8, 54, 9223372036854775, -9223372036854775),
   (4, 0x0000000000002710, 50, 922337203685477, -922337203685477),
   (5, 0x00000000000186A0, 47, 92233720368547, -92233720368547),
   (6, 0x00000000000F4240, 44, 9223372036854, -9223372036854),
   (7, 0x0000000000989680, 40, 922337203685, -922337203685),
   (8, 0x0000000005F5E100, 37, 92233720368, -92233720368),
   (9, 0x000000003B9ACA00, 34, 9223372036, -9223372036),
   (10, 0x00000002540BE400, 30, 922337203, -922337203),
   (11, 0x000000174876E800, 27, 92233720, -92233720),
   (12, 0x000000E8D4A51000, 24, 9223372, -9223372),
   (13, 0x000009184E72A000, 20, 922337, -922337),
   (14, 0x00005AF3107A4000, 17, 92233, -92233),
   (15, 0x00038D7EA4C68000, 14, 9223, -9223),
   (16, 0x002386F26FC10000, 10, 922, -922),
   (17, 0x016345785D8A0000, 7, 92, -92),
   (18, 0x0DE0B6B3A7640000, 4, 9, -9)]

/-- R85's table: the row of a mode, its columns ZERO, LESS_THAN_HALF, EQUAL_TO_HALF, GREATER_THAN_HALF; UNNECESSARY has an
entry for ZERO only and faults elsewhere. -/
def incrementRow (m : RoundingMode) (neg odd : Bool) : List Int :=
  let step : Int := if neg then -1 else 1
  match m with
  | .up => [0, step, step, step]
  | .down => [0, 0, 0, 0]
  | .ceiling => if neg then [0, 0, 0, 0] else [0, 1, 1, 1]
  | .floor => if neg then [0, -1, -1, -1] else [0, 0, 0, 0]
  | .halfUp => [0, 0, step, step]
  | .halfDown => [0, 0, 0, step]
  | .halfEven => [0, 0, if odd then step else 0, step]
  | .unnecessary => [0]

/-- R101: some integer within two units of the exact value does not fit. -/
def SomeNeighbourUnfit (q : ℚ) : Prop := ∃ r : Int, |(r : ℚ) - q| < 2 ∧ ¬ fits64 r

/-- R110: the pattern `w` is the nonzero exact value `v` rounded to the format: its value is `r` units of the last place
of `v`'s binade, where `r` is `v` in those units rounded under `m`. -/
def IsRoundedBinary (f : BinaryFormat) (v : ℚ) (m : RoundingMode) (w : Word) : Prop :=
  ∃ (d : Ratio) (e r : Int),
    f.value w.toNat = some d ∧ (2 : ℚ) ^ e ≤ |v| ∧ |v| < (2 : ℚ) ^ (e + 1) ∧
      RoundsTo (v / (2 : ℚ) ^ (e - f.fracBits)) m r ∧ (d.num : ℚ) / d.den = r * (2 : ℚ) ^ (e - f.fracBits)

/-- R109: the exact value is that of some pattern of the format, NaN and infinities apart. -/
def Representable (f : BinaryFormat) (v : ℚ) : Prop :=
  ∃ (w : Nat) (d : Ratio), f.value w = some d ∧ (d.num : ℚ) / d.den = v

/-! ### Which commands use what -/

/-- The scale field of a command that has one (R51). -/
def scaleFieldOf : Instr → Option ScaleField
  | .sfact _ sc | .snlz _ sc | .smaxi _ sc | .smini _ sc => some sc
  | .smul _ _ _ sc | .sdiv _ _ sc | .smod _ _ sc | .smulhi _ _ sc | .smullo _ _ sc => some sc
  | .dadd _ _ _ _ _ sc | .dsub _ _ _ _ _ sc | .dmul _ _ _ _ _ sc | .dmulu _ _ _ _ _ _ sc => some sc
  | .ddiv _ _ _ _ _ sc | .ddivu _ _ _ _ _ _ sc | .dsqr _ _ _ _ sc | .dsqrt _ _ _ _ sc => some sc
  | .dpow _ _ _ _ _ sc | .davg _ _ _ _ _ sc | .dinv _ _ _ _ sc | .dshl _ _ _ _ _ sc => some sc
  | .dshr _ _ _ _ _ sc | .dround _ _ _ _ _ sc | .dcmp _ _ _ _ _ sc | .dcmpu _ _ _ _ _ _ sc => some sc
  | .todbl _ _ _ sc | .toflt _ _ _ sc | .fromdbl _ _ _ sc | .fromflt _ _ _ sc => some sc
  | .parse _ _ sc | .format _ sc => some sc
  | .add64 .. | .sub64 .. | .mul64 .. | .div64 .. | .neg64 .. | .abs64 .. | .ucmp64 .. | .udiv64 .. => none
  | .wmuls .. | .wmulu .. | .div128 .. | .rclass .. | .rinc .. => none

/-- R19: the six commands that write STATUS.V. -/
def isCheckedOp : Instr → Bool
  | .add64 .. | .sub64 .. | .mul64 .. | .div64 .. | .neg64 .. | .abs64 .. => true
  | .ucmp64 .. | .udiv64 .. | .wmuls .. | .wmulu .. | .div128 .. | .rclass .. | .rinc .. => false
  | .sfact .. | .snlz .. | .smaxi .. | .smini .. | .smul .. | .sdiv .. | .smod .. | .smulhi .. | .smullo .. => false
  | .dadd .. | .dsub .. | .dmul .. | .dmulu .. | .ddiv .. | .ddivu .. | .dsqr .. | .dsqrt .. | .dpow .. => false
  | .davg .. | .dinv .. | .dshl .. | .dshr .. | .dround .. | .dcmp .. | .dcmpu .. => false
  | .todbl .. | .toflt .. | .fromdbl .. | .fromflt .. | .parse .. | .format .. => false

end Sys2Proof.Machine
end

