-- ==== Sys2Proof/Certificates/Slice0/Obligations.lean ====
section
/-! DEFINITION. The statements for the provers. Each is about the machine, in the terms of `Safety.lean`.

Throughout, a read of an X register that does not count as written goes on with the value held and is noted
(`NotesReads`): the model's choice, log 1, where R16 and R137 make it a model fault. Which registers a command that fails a
check counts as having read is the model's inference from the order of the pseudocode, log 10. -/

open Sys2Proof Sys2Proof.Machine

/-! ### Encoding -/

/-- R43, R50, R51, R53: decoding the word of a well-formed command gives the command back, whatever its operands. -/
def Obligations.EncodeThenDecodeGivesTheCommand : Prop :=
  ∀ i : Instr, i.wellFormed = true → decode (encode i) = .ok i

/-- R53 on all 2^32 words, with the masks and matches R51 prints: the three refusals in their order, and otherwise the
command whose fields are the word's. -/
def Obligations.DecodeFollowsTheOpcodeMap : Prop :=
  ∀ w : CommandWord,
    ((∀ row ∈ opcodeMap, row.1 ≠ w.toNat / 2 ^ 26) → decode w = .error .unassignedOpcode) ∧
      ∀ op mtch mask, (op, mtch, mask) ∈ opcodeMap → op = w.toNat / 2 ^ 26 →
        (w &&& mask ≠ mtch → decode w = .error .reservedField) ∧
          (w &&& mask = mtch → (op = 0x09 ∨ op = 0x0A) → w.extractLsb' 22 4 = w.extractLsb' 10 4 →
            decode w = .error .destConflict) ∧
          (w &&& mask = mtch → ¬ ((op = 0x09 ∨ op = 0x0A) ∧ w.extractLsb' 22 4 = w.extractLsb' 10 4) →
            ∃ i, decode w = .ok i ∧
              i.fields =
                { op := w.extractLsb' 26 6, rd := w.extractLsb' 22 4, rs1 := w.extractLsb' 18 4,
                  rs2 := w.extractLsb' 14 4, rc := w.extractLsb' 10 4, rm := w.extractLsb' 7 3,
                  ov := w.extractLsb' 6 1, sc := w.extractLsb' 1 5, n := w.extractLsb' 0 1 } ∧
              i.wellFormed = true ∧ encode i = w)

/-- Words of `95_test_vectors.md` sections 2.1 and 2.2 decode to the commands they stand for. -/
def Obligations.SampleWordsDecodeAsWritten : Prop :=
  decode 0x8D848E44 = .ok (.dmulu 6 1 2 3 .halfUp .checked 2) ∧
    decode 0x04C48040 = .ok (.add64 3 1 2 .checked) ∧
    decode 0x2CC49201 = .ok (.div128 3 1 2 4 .halfUp .neg) ∧
    decode 0x35048F00 = .ok (.rinc 4 1 2 3 .halfEven) ∧
    decode 0xC0840302 = .ok (.todbl 2 1 .halfEven 1) ∧
    decode 0x28C48C00 = .error .destConflict ∧
    decode 0x04C480C0 = .error .reservedField ∧
    decode 0x00000000 = .error .unassignedOpcode

/-! ### The step: issuing commands, faults, and the host's accesses -/

/-- R23, R121: a 4-byte write at 0x080 while FAULT = 0, of a word that decodes to `i`, makes the step `exec` of `i`, on
the state whose next input is the one after the write and whose last access returned nothing. -/
def Obligations.StepExecutesTheDecodedCommand : Prop :=
  ∀ (s : State) (d : Word) (rest : List HostInput) (i : Instr),
    s.host = .write 0x80 .four d :: rest → s.status.fault = false → decode (d.setWidth 32) = .ok i →
      step s = exec i { s with host := rest, readData := none }

/-- R52, R121, R123: a word that does not decode faults with ILLEGAL_COMMAND and the refusal's subcode, and FCMD is the
word. -/
def Obligations.IllegalWordIsRecorded : Prop :=
  ∀ (s : State) (d : Word) (rest : List HostInput) (k : Illegal),
    s.host = .write 0x80 .four d :: rest → s.status.fault = false → decode (d.setWidth 32) = .error k →
      ∃ t, step s = .next t ∧
        Faults (d.setWidth 32) 1 (match k with | .unassignedOpcode => 1 | .reservedField => 2 | .destConflict => 3)
          s.status.v [] { s with host := rest, readData := none } t

/-- R124: while FAULT = 1 a word written to CMD is dropped, whatever it is: MISS becomes 1 and nothing else changes. -/
def Obligations.FaultedEngineDropsCommands : Prop :=
  ∀ (s : State) (d : Word) (rest : List HostInput),
    s.host = .write 0x80 .four d :: rest → s.status.fault = true →
      ∃ t, step s = .next t ∧ t.status = { s.status with miss := true } ∧ t.fcmd = s.fcmd ∧
        SameRegsBut [] s t ∧ SameText s t ∧ t.ctrl = s.ctrl ∧ t.unwrittenRead = s.unwrittenRead ∧
        t.host = rest ∧ t.readData = none

/-- R126: over a run of any length from a state with FAULT = 1, in which the host neither writes STATUS nor resets, the
fault and its record ERR, SUB and FCMD stay as they are, and an X register that no write of the host addresses keeps its
value and its written bytes. -/
def Obligations.FaultRecordIsNeverOverwritten : Prop :=
  ∀ (k : Nat) (s t : State),
    s.status.fault = true → (∀ w d, .write 0x84 w d ∉ s.host) → .reset ∉ s.host →
      Sys2Proof.core.run k s = .next t →
        t.status.fault = true ∧ t.status.err = s.status.err ∧ t.status.sub = s.status.sub ∧ t.fcmd = s.fcmd ∧
          ∀ r : Reg, (∀ o w d, .write o w d ∈ s.host → o.toNat / 8 ≠ r.val) →
            t.reg r = s.reg r ∧ t.xWritten[r.val] = s.xWritten[r.val]

/-- R18, R125: a 4-byte write of STATUS: bit 0 clears FAULT, ERR and SUB together and deasserts `irq`, bit 1 clears MISS,
the other bits are ignored; V, FCMD, CTRL and everything else stay. -/
def Obligations.StatusWriteClears : Prop :=
  ∀ (s : State) (d : Word) (rest : List HostInput), s.host = .write 0x84 .four d :: rest →
    ∃ t, step s = .next t ∧
      t.status.fault = (s.status.fault && !d.getLsbD 0) ∧
      t.status.err = (if d.getLsbD 0 then 0 else s.status.err) ∧
      t.status.sub = (if d.getLsbD 0 then 0 else s.status.sub) ∧
      t.status.miss = (s.status.miss && !d.getLsbD 1) ∧
      t.status.v = s.status.v ∧ (d.getLsbD 0 = true → t.irq = false) ∧
      t.fcmd = s.fcmd ∧ t.ctrl = s.ctrl ∧ SameRegsBut [] s t ∧ SameText s t ∧
      t.unwrittenRead = s.unwrittenRead ∧ t.host = rest ∧ t.readData = none

/-- R18, R29: a 4-byte read of STATUS returns FAULT in bit 0, MISS in bit 1, V in bit 2, ERR in bits 11:8, SUB in bits
15:12, and 0 in every reserved bit, and changes nothing. -/
def Obligations.StatusReadsByItsLayout : Prop :=
  ∀ (s : State) (rest : List HostInput), s.host = .read 0x84 .four :: rest →
    ∃ w : Word, step s = .next { s with host := rest, readData := some w } ∧
      w.toNat = s.status.fault.toNat + 2 * s.status.miss.toNat + 4 * s.status.v.toNat +
        2 ^ 8 * s.status.err.toNat + 2 ^ 12 * s.status.sub.toNat

/-- R20: CTRL reads FIE in bit 0 and 0 elsewhere; a write sets FIE to bit 0 and ignores the rest; both values are legal;
`irq` is asserted while FAULT = 1 and FIE = 1; no command writes CTRL; it is 0 after reset. -/
def Obligations.CtrlHoldsTheInterruptEnable : Prop :=
  (∀ (s : State) (rest : List HostInput), s.host = .read 0x8C .four :: rest →
      step s = .next { s with host := rest, readData := some (if s.ctrl.fie then 1 else 0) }) ∧
    (∀ (s : State) (d : Word) (rest : List HostInput), s.host = .write 0x8C .four d :: rest →
      step s = .next { s with host := rest, readData := none, ctrl := { fie := d.getLsbD 0 } }) ∧
    (∀ s : State, s.irq = true ↔ s.status.fault = true ∧ s.ctrl.fie = true) ∧
    (∀ (i : Instr) (s t : State), exec i s = .next t → t.ctrl = s.ctrl) ∧
    State.reset.ctrl.fie = false

/-- R21: FCMD reads as the word of the command that faulted last: a command that faults stores its word, one that completes
or is dropped leaves it, and so does every other input but reset, a write of STATUS or of FCMD itself included; it is 0
after reset. -/
def Obligations.FcmdHoldsTheLastFaultingWord : Prop :=
  (∀ (s : State) (rest : List HostInput), s.host = .read 0x88 .four :: rest →
      step s = .next { s with host := rest, readData := some (s.fcmd.setWidth 64) }) ∧
    (∀ (s : State) (d : Word) (rest : List HostInput), s.host = .write 0x88 .four d :: rest →
      step s = .next { s with host := rest, readData := none }) ∧
    (∀ (s t : State) (a : HostInput) (rest : List HostInput), s.host = a :: rest →
      (∀ d, a ≠ .write 0x80 .four d) → a ≠ .reset → step s = .next t → t.fcmd = s.fcmd) ∧
    (∀ (s t : State) (d : Word) (rest : List HostInput), s.host = .write 0x80 .four d :: rest → step s = .next t →
      t.fcmd = if s.status.fault = false ∧ t.status.fault = true then d.setWidth 32 else s.fcmd) ∧
    State.reset.fcmd = 0

/-- R22: TLEN reads as it stands; a write of at most 64 sets it, a larger one is ignored; every command but FORMAT leaves
it, and FORMAT leaves a legal value; it is 0 after reset. -/
def Obligations.TlenHoldsALegalLength : Prop :=
  (∀ (s : State) (rest : List HostInput), s.host = .read 0x90 .four :: rest →
      step s = .next { s with host := rest, readData := some (s.tlen.setWidth 64) }) ∧
    (∀ (s : State) (d : Word) (rest : List HostInput), s.host = .write 0x90 .four d :: rest →
      ∃ t, step s = .next t ∧ t.tlen = (if (d.setWidth 32).toNat ≤ 64 then d.setWidth 32 else s.tlen) ∧
        t.status = s.status ∧ t.fcmd = s.fcmd ∧ t.ctrl = s.ctrl ∧ SameRegsBut [] s t ∧
        (∀ a, t.tbuf.read a = s.tbuf.read a)) ∧
    (∀ (i : Instr) (s t : State), (∀ r sc, i ≠ .format r sc) → exec i s = .next t → t.tlen = s.tlen) ∧
    (∀ (r : Reg) (sc : ScaleField) (s t : State), exec (.format r sc) s = .next t →
      t.status.fault = false → t.tlen.toNat ≤ 21) ∧
    State.reset.tlen = 0

/-- R34: a host read changes nothing but what it returns (and the model's record of unwritten reads), and reading the
same place again returns the same data. -/
def Obligations.HostReadsHaveNoEffect : Prop :=
  ∀ (s t : State) (o : BitVec 8) (w : Width) (rest : List HostInput),
    s.host = .read o w :: rest → step s = .next t →
      (∃ d, t.readData = some d ∧
        t = { s with host := rest, readData := some d, unwrittenRead := t.unwrittenRead }) ∧
        ∃ u, step { t with host := .read o w :: rest } = .next u ∧ u.readData = t.readData

/-- R29, R32: an access that is not aligned, one of another width than 4 bytes at 0x080..0x093, and any access of the
reserved offsets 0x094..0x0BF: a read returns 0 and a write changes nothing, without a fault. -/
def Obligations.AccessesNotAcceptedDoNothing : Prop :=
  ∀ (s : State) (o : BitVec 8) (w : Width) (d : Word) (rest : List HostInput),
    (o.toNat % w.bytes ≠ 0 ∨ (0x80 ≤ o.toNat ∧ o.toNat < 0x94 ∧ w ≠ .four) ∨ (0x94 ≤ o.toNat ∧ o.toNat < 0xC0)) →
      (s.host = .read o w :: rest → step s = .next { s with host := rest, readData := some 0 }) ∧
        (s.host = .write o w d :: rest → step s = .next { s with host := rest, readData := none })

/-- R23: a host read of CMD returns 0 and has no effect. -/
def Obligations.CmdReadsZero : Prop :=
  ∀ (s : State) (rest : List HostInput), s.host = .read 0x80 .four :: rest →
    step s = .next { s with host := rest, readData := some 0 }

/-- R29, R30, R32: an aligned read of 1, 2, 4 or 8 bytes at offset 8i + k returns bytes k onward of Xi, the lowest first,
zero-extended. That a read of a register that does not count as written goes on, returns the value held and is only noted is
the model's choice (log 1). -/
def Obligations.RegisterWindowIsLittleEndian : Prop :=
  ∀ (s : State) (i : Reg) (k : Nat) (w : Width) (rest : List HostInput),
    k + w.bytes ≤ 8 → k % w.bytes = 0 → s.host = .read (BitVec.ofNat 8 (8 * i.val + k)) w :: rest →
      ∃ (t : State) (d : Word), step s = .next t ∧ t.readData = some d ∧
        (∀ j, j < w.bytes → d.extractLsb' (8 * j) 8 = (s.reg i).extractLsb' (8 * (k + j)) 8) ∧
        d.toNat < 2 ^ (8 * w.bytes) ∧ NotesReads [i] s t

/-- R33: an accepted write of a register, of any width, changes only the addressed bytes of it; only those bytes count as
written by it, the register counts as written exactly when all 8 of its bytes do, and a TBUF byte counts as written (it
reads as some byte) once it has been written. -/
def Obligations.PartialWritesChangeOnlyTheirBytes : Prop :=
  (∀ (s : State) (i : Reg) (k : Nat) (w : Width) (d : Word) (rest : List HostInput),
      k + w.bytes ≤ 8 → k % w.bytes = 0 → s.host = .write (BitVec.ofNat 8 (8 * i.val + k)) w d :: rest →
        ∃ t, step s = .next t ∧
          (∀ j, j < 8 → (t.reg i).extractLsb' (8 * j) 8 =
            if k ≤ j ∧ j < k + w.bytes then d.extractLsb' (8 * (j - k)) 8 else (s.reg i).extractLsb' (8 * j) 8) ∧
          (∀ j, j < 8 → t.xWritten[i.val].getLsbD j =
            (decide (k ≤ j ∧ j < k + w.bytes) || s.xWritten[i.val].getLsbD j)) ∧
          (t.isWritten i = true ↔ ∀ j, j < 8 → t.xWritten[i.val].getLsbD j = true) ∧
          SameRegsBut [i] s t ∧ t.status = s.status ∧ t.fcmd = s.fcmd ∧ t.ctrl = s.ctrl ∧ SameText s t ∧
          t.unwrittenRead = s.unwrittenRead) ∧
    (∀ (s : State) (j : Nat) (d : Word) (rest : List HostInput), j < 64 →
      s.host = .write (BitVec.ofNat 8 (0xC0 + j)) .one d :: rest →
        ∃ t, step s = .next t ∧ t.tbuf.read j = some (d.setWidth 8))

/-- R24, R30: an aligned write of TBUF stores its bytes in order and changes no other byte and nothing else; the same read
afterwards returns the low bytes of the data. -/
def Obligations.TextWindowStoresAndReturnsBytes : Prop :=
  ∀ (s : State) (j : Nat) (w : Width) (d : Word) (rest : List HostInput),
    j + w.bytes ≤ 64 → j % w.bytes = 0 → s.host = .write (BitVec.ofNat 8 (0xC0 + j)) w d :: rest →
      ∃ t, step s = .next t ∧
        (∀ k, k < w.bytes → t.tbuf.read (j + k) = some (d.extractLsb' (8 * k) 8)) ∧
        (∀ a, (a < j ∨ j + w.bytes ≤ a) → t.tbuf.read a = s.tbuf.read a) ∧
        t.tlen = s.tlen ∧ SameRegsBut [] s t ∧ t.status = s.status ∧ t.fcmd = s.fcmd ∧ t.ctrl = s.ctrl ∧
        ∃ u, step { t with host := .read (BitVec.ofNat 8 (0xC0 + j)) w :: rest } = .next u ∧
          u.readData = some (BitVec.ofNat 64 (d.toNat % 2 ^ (8 * w.bytes)))

/-- R16, R24, I5: a host read of a TBUF byte that has not been written stops the model, at the first such byte. -/
def Obligations.ReadingUnwrittenTextStops : Prop :=
  ∀ (s : State) (j a : Nat) (w : Width) (rest : List HostInput),
    j + w.bytes ≤ 64 → j % w.bytes = 0 → s.host = .read (BitVec.ofNat 8 (0xC0 + j)) w :: rest →
      j ≤ a → a < j + w.bytes → s.tbuf.read a = none → (∀ b, j ≤ b → b < a → s.tbuf.read b ≠ none) →
        step s = .fault (.unwrittenText a)

/-- R27, R138 (X and TBUF apart, which the spec leaves unspecified: log 1, log 2): the values after reset, and the reset
input gives that state with the inputs still to come. -/
def Obligations.ResetClearsTheControlState : Prop :=
  State.reset.status.word = 0 ∧ State.reset.ctrl.word = 0 ∧ State.reset.fcmd = 0 ∧ State.reset.tlen = 0 ∧
    State.reset.irq = false ∧ (∀ r : Reg, State.reset.isWritten r = false) ∧
    (∀ a, State.reset.tbuf.read a = none) ∧ State.reset.unwrittenRead = false ∧
    ∀ (s : State) (rest : List HostInput), s.host = .reset :: rest →
      step s = .next { State.reset with host := rest }

/-! ### Invariants and whole-machine rules -/

/-- Reset meets the invariant. -/
def Obligations.ResetMeetsTheInvariant : Prop := Inv State.reset

/-- R18, R22, R24, R120: from every state that meets the invariant, a step that answers a next state keeps it: TBUF stays
in canonical form, TLEN stays legal, and the fault record is empty or one of R120's pairs. -/
def Obligations.EveryStepKeepsTheInvariant : Prop :=
  ∀ s t : State, Inv s → step s = .next t → Inv t

/-- Two text buffers in canonical form that read the same are the same data. -/
def Obligations.CanonicalTextIsUnique : Prop :=
  ∀ m m' : Memory, m.wf → m'.wf → (∀ a, m.read a = m'.read a) → m = m'

/-- R121: every command completes or faults; only PARSE of a byte that has not been written stops the model. That a
command which reads an X register not written goes on is the model's choice (log 1), where R16 and R137 stop the model. -/
def Obligations.EveryCommandEnds : Prop :=
  ∀ (i : Instr) (s : State),
    ((∀ rd rm sc, i ≠ .parse rd rm sc) ∨ ∀ a, a < s.tlen.toNat → s.tbuf.read a ≠ none) →
      ∃ t, exec i s = .next t

/-- R117, I5: PARSE at a legal scale stops at the first byte below TLEN that has not been written. -/
def Obligations.ParsingUnwrittenTextStops : Prop :=
  ∀ (s : State) (rd : Reg) (rm : RoundingMode) (sc : ScaleField) (a : Nat),
    sc.val ≤ 18 → a < s.tlen.toNat → s.tbuf.read a = none → (∀ b, b < a → s.tbuf.read b ≠ none) →
      exec (.parse rd rm sc) s = .fault (.unwrittenText a)

/-- R121, R123: a command run while FAULT = 0 either records a fault and changes no X register, TLEN or TBUF byte, or
completes and leaves FAULT, ERR, SUB and FCMD; MISS and CTRL are left in both cases. -/
def Obligations.FaultsArePrecise : Prop :=
  ∀ (i : Instr) (s t : State), s.status.fault = false → exec i s = .next t →
    t.status.miss = s.status.miss ∧ t.ctrl = s.ctrl ∧
      (t.status.fault = true → t.fcmd = encode i ∧ recordedPair t.status.err t.status.sub = true ∧
        SameRegsBut [] s t ∧ SameText s t) ∧
      (t.status.fault = false → t.fcmd = s.fcmd ∧ t.status.err = s.status.err ∧ t.status.sub = s.status.sub)

/-- R19: no command but the six CheckedOps changes STATUS.V, and no input but a command or reset does. -/
def Obligations.OnlyCheckedOpsChangeV : Prop :=
  (∀ (i : Instr) (s t : State), isCheckedOp i = false → exec i s = .next t → t.status.v = s.status.v) ∧
    ∀ (s t : State) (a : HostInput) (rest : List HostInput),
      s.host = a :: rest → (∀ d, a ≠ .write 0x80 .four d) → a ≠ .reset → step s = .next t →
        t.status.v = s.status.v

/-- R26: what a command does depends on the X registers, TLEN and TBUF alone: from two states with FAULT = 0 that agree on
these, a command leaves the same X registers, TLEN and TBUF, and the same fault with the same record. -/
def Obligations.CommandsSeeNoHiddenState : Prop :=
  ∀ (i : Instr) (s s' t : State),
    s.x = s'.x → s.tlen = s'.tlen → s.tbuf = s'.tbuf → s.status.fault = false → s'.status.fault = false →
      exec i s = .next t →
        ∃ t', exec i s' = .next t' ∧ t'.x = t.x ∧ t'.tlen = t.tlen ∧ t'.tbuf = t.tbuf ∧
          t'.status.fault = t.status.fault ∧
          (t.status.fault = true →
            t'.status.err = t.status.err ∧ t'.status.sub = t.status.sub ∧ t'.fcmd = t.fcmd)

/-- R137, R143: the record of an unwritten read is never cleared but by reset, so that every beginning of a well-formed
run is well formed (the record is the model's own, log 1; a run holds no reset, log 11). -/
def Obligations.UnwrittenReadRecordIsSticky : Prop :=
  (∀ s t : State, s.unwrittenRead = true → s.host.head? ≠ some .reset → step s = .next t → t.unwrittenRead = true) ∧
    ∀ (j k : Nat) (s t : State), j ≤ k → WellFormedRun k s t → ∃ u, WellFormedRun j s u

/-- R46, R122: every command with a scale field, at a scale of 19 to 31, faults with INVALID_INPUT / SCALE_RANGE. That it
then counts no register as read is the model's choice (log 10). -/
def Obligations.IllegalScaleFaultsFirst : Prop :=
  ∀ (i : Instr) (sc : ScaleField) (s : State), scaleFieldOf i = some sc → 18 < sc.val →
    ∃ t, exec i s = .next t ∧ Faults (encode i) 2 1 s.status.v [] s t

/-! ### CheckedOps, Unsigned64, Wide128 -/

/-- R70 to R73, R75, R76: with an exact result in range, or UNCHECKED, each writes the two's-complement result and sets V
to the overflow signal. -/
def Obligations.CheckedOpsWriteTheWrappedResult : Prop :=
  ∀ (s : State) (rd rs1 rs2 : Reg) (ov : OverflowMode),
    (fits64 ((s.reg rs1).toInt + (s.reg rs2).toInt) ∨ ov = .unchecked →
        ∃ t, exec (.add64 rd rs1 rs2 ov) s = .next t ∧
          CompletesV rd (s.reg rs1 + s.reg rs2) (decide (¬ fits64 ((s.reg rs1).toInt + (s.reg rs2).toInt)))
            [rs1, rs2] s t) ∧
      (fits64 ((s.reg rs1).toInt - (s.reg rs2).toInt) ∨ ov = .unchecked →
        ∃ t, exec (.sub64 rd rs1 rs2 ov) s = .next t ∧
          CompletesV rd (s.reg rs1 - s.reg rs2) (decide (¬ fits64 ((s.reg rs1).toInt - (s.reg rs2).toInt)))
            [rs1, rs2] s t) ∧
      (fits64 ((s.reg rs1).toInt * (s.reg rs2).toInt) ∨ ov = .unchecked →
        ∃ t, exec (.mul64 rd rs1 rs2 ov) s = .next t ∧
          CompletesV rd (s.reg rs1 * s.reg rs2) (decide (¬ fits64 ((s.reg rs1).toInt * (s.reg rs2).toInt)))
            [rs1, rs2] s t) ∧
      (s.reg rs1 ≠ 0x8000000000000000 ∨ ov = .unchecked →
        (∃ t, exec (.neg64 rd rs1 ov) s = .next t ∧
          CompletesV rd (-s.reg rs1) (decide (s.reg rs1 = 0x8000000000000000)) [rs1] s t) ∧
        ∃ t, exec (.abs64 rd rs1 ov) s = .next t ∧
          CompletesV rd (if (s.reg rs1).toInt < 0 then -s.reg rs1 else s.reg rs1)
            (decide (s.reg rs1 = 0x8000000000000000)) [rs1] s t)

/-- R70: a CHECKED command whose exact result is out of range faults with OVERFLOW, sets V, and writes no register. -/
def Obligations.CheckedOverflowFaultsAndSetsV : Prop :=
  ∀ (s : State) (rd rs1 rs2 : Reg),
    (¬ fits64 ((s.reg rs1).toInt + (s.reg rs2).toInt) →
        ∃ t, exec (.add64 rd rs1 rs2 .checked) s = .next t ∧
          Faults (encode (.add64 rd rs1 rs2 .checked)) 3 0 true [rs1, rs2] s t) ∧
      (¬ fits64 ((s.reg rs1).toInt - (s.reg rs2).toInt) →
        ∃ t, exec (.sub64 rd rs1 rs2 .checked) s = .next t ∧
          Faults (encode (.sub64 rd rs1 rs2 .checked)) 3 0 true [rs1, rs2] s t) ∧
      (¬ fits64 ((s.reg rs1).toInt * (s.reg rs2).toInt) →
        ∃ t, exec (.mul64 rd rs1 rs2 .checked) s = .next t ∧
          Faults (encode (.mul64 rd rs1 rs2 .checked)) 3 0 true [rs1, rs2] s t) ∧
      (s.reg rs1 = 0x8000000000000000 → s.reg rs2 = -1 →
        ∃ t, exec (.div64 rd rs1 rs2 .checked) s = .next t ∧
          Faults (encode (.div64 rd rs1 rs2 .checked)) 3 0 true [rs2, rs1] s t) ∧
      (s.reg rs1 = 0x8000000000000000 →
        (∃ t, exec (.neg64 rd rs1 .checked) s = .next t ∧
          Faults (encode (.neg64 rd rs1 .checked)) 3 0 true [rs1] s t) ∧
        ∃ t, exec (.abs64 rd rs1 .checked) s = .next t ∧
          Faults (encode (.abs64 rd rs1 .checked)) 3 0 true [rs1] s t)

/-- R74: DIV64 truncates toward zero; MIN / -1 is its only overflow; a zero divisor faults whatever `ov` is, V unchanged.
That only `rs2` then counts as read is the model's choice (log 10). -/
def Obligations.Div64TruncatesAndRefusesZero : Prop :=
  ∀ (s : State) (rd rs1 rs2 : Reg) (ov : OverflowMode),
    (s.reg rs2 ≠ 0 → (¬ (s.reg rs1 = 0x8000000000000000 ∧ s.reg rs2 = -1) ∨ ov = .unchecked) →
        ∃ t, exec (.div64 rd rs1 rs2 ov) s = .next t ∧
          CompletesV rd ((s.reg rs1).sdiv (s.reg rs2))
            (decide (s.reg rs1 = 0x8000000000000000 ∧ s.reg rs2 = -1)) [rs2, rs1] s t) ∧
      (s.reg rs2 = 0 → ∃ t, exec (.div64 rd rs1 rs2 ov) s = .next t ∧
          Faults (encode (.div64 rd rs1 rs2 ov)) 2 6 s.status.v [rs2] s t)

/-- R77, R78: UCMP64 gives the unsigned order as -1, 0 or +1; UDIV64 the unsigned quotient, or DIVISION_BY_ZERO. That only
`rs2` then counts as read is the model's choice (log 10). -/
def Obligations.UnsignedCompareAndDivide : Prop :=
  ∀ (s : State) (rd rs1 rs2 : Reg),
    (∃ t, exec (.ucmp64 rd rs1 rs2) s = .next t ∧
        Completes rd (if (s.reg rs1).ult (s.reg rs2) then -1 else if s.reg rs1 = s.reg rs2 then 0 else 1)
          [rs1, rs2] s t) ∧
      (s.reg rs2 ≠ 0 → ∃ t, exec (.udiv64 rd rs1 rs2) s = .next t ∧
        Completes rd (s.reg rs1 / s.reg rs2) [rs2, rs1] s t) ∧
      (s.reg rs2 = 0 → ∃ t, exec (.udiv64 rd rs1 rs2) s = .next t ∧
        Faults (encode (.udiv64 rd rs1 rs2)) 2 6 s.status.v [rs2] s t)

/-- R80, R81: the two destinations together are the exact 128-bit product, signed or unsigned, also where they are
sources; nothing else changes. One register named twice faults with DEST_CONFLICT (R52; that `exec` does so for such a
term, which decode never gives, is the model's choice, log 16). -/
def Obligations.WideProductsAreExact : Prop :=
  ∀ (s : State) (rd rs1 rs2 rc : Reg),
    (rd ≠ rc →
        (∃ t, exec (.wmuls rd rs1 rs2 rc) s = .next t ∧
          (t.reg rd).toInt * 2 ^ 64 + (t.reg rc).toNat = (s.reg rs1).toInt * (s.reg rs2).toInt ∧
          t.isWritten rd = true ∧ t.isWritten rc = true ∧ SameRegsBut [rd, rc] s t ∧ t.status = s.status ∧
          t.fcmd = s.fcmd ∧ SameText s t ∧ SameOutside s t ∧ NotesReads [rs1, rs2] s t) ∧
        ∃ t, exec (.wmulu rd rs1 rs2 rc) s = .next t ∧
          (t.reg rd).toNat * 2 ^ 64 + (t.reg rc).toNat = (s.reg rs1).toNat * (s.reg rs2).toNat ∧
          t.isWritten rd = true ∧ t.isWritten rc = true ∧ SameRegsBut [rd, rc] s t ∧ t.status = s.status ∧
          t.fcmd = s.fcmd ∧ SameText s t ∧ SameOutside s t ∧ NotesReads [rs1, rs2] s t) ∧
      (rd = rc →
        (∃ t, exec (.wmuls rd rs1 rs2 rc) s = .next t ∧
          Faults (encode (.wmuls rd rs1 rs2 rc)) 1 3 s.status.v [] s t) ∧
        ∃ t, exec (.wmulu rd rs1 rs2 rc) s = .next t ∧
          Faults (encode (.wmulu rd rs1 rs2 rc)) 1 3 s.status.v [] s t)

/-- R82, R88: DIV128 rounds the exact quotient of the 128-bit magnitude, with the sign of `n`, always checked; a zero
divisor faults. -/
def Obligations.Div128RoundsTheExactQuotient : Prop :=
  ∀ (s : State) (rd rs1 rs2 rc : Reg) (rm : RoundingMode) (n : QuotientSign),
    (s.reg rc ≠ 0 →
        RoundsAndCompletes (.div128 rd rs1 rs2 rc rm n) rd [rs1, rs2, rc]
          ((if n = .neg then -1 else 1) *
            (((s.reg rs1).toNat * 2 ^ 64 + (s.reg rs2).toNat : ℚ) / (s.reg rc).toNat)) rm s ∧
        RoundsOrFaultsChecked (.div128 rd rs1 rs2 rc rm n) [rs1, rs2, rc]
          ((if n = .neg then -1 else 1) *
            (((s.reg rs1).toNat * 2 ^ 64 + (s.reg rs2).toNat : ℚ) / (s.reg rc).toNat)) rm s) ∧
      (s.reg rc = 0 → ∃ t, exec (.div128 rd rs1 rs2 rc rm n) s = .next t ∧
        Faults (encode (.div128 rd rs1 rs2 rc rm n)) 2 6 s.status.v [rs1, rs2, rc] s t)

/-! ### Rounding -/

/-- R85, R86, R87: `Round` of an exact rational is that rational rounded under the mode, for every mode and sign; and
every mode but UNNECESSARY gives a result. (The reading of the modes, `RoundsTo`, is the spec's own inference, R87:
"These properties follow from rules R85 and R86".) -/
def Obligations.RoundIsTheRationalRounding : Prop :=
  ∀ (q : Ratio) (m : RoundingMode), q.den ≠ 0 →
    (∀ r : Int, Machine.round q m = .ok r ↔ RoundsTo ((q.num : ℚ) / q.den) m r) ∧
      (m ≠ .unnecessary → ∃ r : Int, Machine.round q m = .ok r)

/-- R83, R84, R89: RCLASS writes the code of the remainder against half the divisor, compared exactly by magnitude, for
every operand, a zero divisor included. That it completes with a source not written, and notes the read, is the model's
choice (log 1). -/
def Obligations.RclassComparesWithHalfTheDivisor : Prop :=
  ∀ (s : State) (rd rs1 rs2 : Reg), ∃ (t : State) (c : Nat),
    exec (.rclass rd rs1 rs2) s = .next t ∧ Completes rd (BitVec.ofNat 64 c) [rs1, rs2] s t ∧ c ≤ 3 ∧
      (c = 0 ↔ s.reg rs1 = 0) ∧
      (c = 1 ↔ s.reg rs1 ≠ 0 ∧ 2 * |(s.reg rs1).toInt| < |(s.reg rs2).toInt|) ∧
      (c = 2 ↔ s.reg rs1 ≠ 0 ∧ 2 * |(s.reg rs1).toInt| = |(s.reg rs2).toInt|) ∧
      (c = 3 ↔ s.reg rs1 ≠ 0 ∧ |(s.reg rs2).toInt| < 2 * |(s.reg rs1).toInt|)

/-- R85, R90: RINC writes the entry of R85's table for the sign of `x[rs1]`, the parity of `x[rs2]` and the part coded in
`x[rc]`; where the table has "fault" it faults with ROUNDING_NECESSARY; a code outside 0..3 faults with PART_CODE. That it ends
so with a source not written, and notes the read, is the model's choice (log 1). -/
def Obligations.RincReadsTheIncrementTable : Prop :=
  ∀ (s : State) (rd rs1 rs2 rc : Reg) (rm : RoundingMode),
    (∀ inc : Int,
      0 ≤ (s.reg rc).toInt →
        (incrementRow rm (decide ((s.reg rs1).toInt < 0)) (decide ((s.reg rs2).toInt % 2 = 1)))[(s.reg rc).toNat]? =
          some inc →
        ∃ t, exec (.rinc rd rs1 rs2 rc rm) s = .next t ∧
          Completes rd (BitVec.ofInt 64 inc) [rs1, rs2, rc] s t) ∧
      (rm = .unnecessary → 1 ≤ (s.reg rc).toInt → (s.reg rc).toInt ≤ 3 →
        ∃ t, exec (.rinc rd rs1 rs2 rc rm) s = .next t ∧
          Faults (encode (.rinc rd rs1 rs2 rc rm)) 4 0 s.status.v [rs1, rs2, rc] s t) ∧
      ((s.reg rc).toInt < 0 ∨ 3 < (s.reg rc).toInt →
        ∃ t, exec (.rinc rd rs1 rs2 rc rm) s = .next t ∧
          Faults (encode (.rinc rd rs1 rs2 rc rm)) 2 5 s.status.v [rs1, rs2, rc] s t)

/-! ### ScaleMetrics -/

/-- R58, R60 to R63: SFACT, SNLZ, SMAXI and SMINI write the entries of R58's table, at each of the 19 scales, and the
entries scaled back stay in the range of a word. (The printed values are the spec's own inference, R58: "computed from
rule R57".) -/
def Obligations.ScaleConstantsMatchTheTable : Prop :=
  ∀ (s : State) (rd : Reg) (sc : ScaleField) (factor : Word) (nlz : Nat) (hi lo : Int),
    (sc.val, factor, nlz, hi, lo) ∈ scaleTable →
      (∃ t, exec (.sfact rd sc) s = .next t ∧ Completes rd factor [] s t) ∧
        (∃ t, exec (.snlz rd sc) s = .next t ∧ Completes rd (BitVec.ofNat 64 nlz) [] s t) ∧
        (∃ t, exec (.smaxi rd sc) s = .next t ∧ Completes rd (BitVec.ofInt 64 hi) [] s t) ∧
        (∃ t, exec (.smini rd sc) s = .next t ∧ Completes rd (BitVec.ofInt 64 lo) [] s t) ∧
        hi * 10 ^ sc.val ≤ maxWord ∧ minWord ≤ lo * 10 ^ sc.val

/-- R64 to R66, R68, R69: SMUL wraps or faults, SDIV and SMOD truncate toward zero, SMULHI and SMULLO are the two 32-bit
halves of the low 64 bits of the product of bits 31:0. -/
def Obligations.ScaleFactorArithmetic : Prop :=
  ∀ (s : State) (rd rs1 : Reg) (ov : OverflowMode) (sc : ScaleField), sc.val ≤ 18 →
    (fits64 ((s.reg rs1).toInt * 10 ^ sc.val) ∨ ov = .unchecked →
        ∃ t, exec (.smul rd rs1 ov sc) s = .next t ∧
          Completes rd (s.reg rs1 * BitVec.ofNat 64 (10 ^ sc.val)) [rs1] s t) ∧
      (¬ fits64 ((s.reg rs1).toInt * 10 ^ sc.val) → ov = .checked →
        ∃ t, exec (.smul rd rs1 ov sc) s = .next t ∧
          Faults (encode (.smul rd rs1 ov sc)) 3 0 s.status.v [rs1] s t) ∧
      (∃ t, exec (.sdiv rd rs1 sc) s = .next t ∧
        Completes rd ((s.reg rs1).sdiv (BitVec.ofNat 64 (10 ^ sc.val))) [rs1] s t) ∧
      (∃ t, exec (.smod rd rs1 sc) s = .next t ∧
        Completes rd ((s.reg rs1).srem (BitVec.ofNat 64 (10 ^ sc.val))) [rs1] s t) ∧
      (∃ t w, exec (.smulhi rd rs1 sc) s = .next t ∧ Completes rd w [rs1] s t ∧
        w.toNat = (s.reg rs1).toNat % 2 ^ 32 * 10 ^ sc.val % 2 ^ 64 / 2 ^ 32) ∧
      ∃ t w, exec (.smullo rd rs1 sc) s = .next t ∧ Completes rd w [rs1] s t ∧
        w.toNat = (s.reg rs1).toNat % 2 ^ 32 * 10 ^ sc.val % 2 ^ 64 % 2 ^ 32

/-- R67: at every legal scale, with the word in `rx`, SDIV, then SMOD, then SMUL CHECKED of the quotient, into three
further registers: the product plus the remainder is the word, and no command faults. (That the product cannot overflow
is the spec's own inference, R67.) -/
def Obligations.DivideMultiplyAndRemainderGiveTheWordBack : Prop :=
  ∀ (s : State) (rx rq rr rp : Reg) (sc : ScaleField), sc.val ≤ 18 → s.status.fault = false →
    rq ≠ rx → rr ≠ rx → rr ≠ rq → rp ≠ rr →
      ∃ t u v, exec (.sdiv rq rx sc) s = .next t ∧ exec (.smod rr rx sc) t = .next u ∧
        exec (.smul rp rq .checked sc) u = .next v ∧ v.status.fault = false ∧
        (v.reg rp).toInt + (v.reg rr).toInt = (s.reg rx).toInt

/-! ### Decimal arithmetic -/

/-- R92, R93: DADD and DSUB are exact whatever `rm` and the legal scale; they wrap, or fault under checking, and leave V. -/
def Obligations.DecimalSumsAreExact : Prop :=
  ∀ (s : State) (rd rs1 rs2 : Reg) (rm : RoundingMode) (ov : OverflowMode) (sc : ScaleField), sc.val ≤ 18 →
    (fits64 ((s.reg rs1).toInt + (s.reg rs2).toInt) ∨ ov = .unchecked →
        ∃ t, exec (.dadd rd rs1 rs2 rm ov sc) s = .next t ∧
          Completes rd (s.reg rs1 + s.reg rs2) [rs1, rs2] s t) ∧
      (¬ fits64 ((s.reg rs1).toInt + (s.reg rs2).toInt) → ov = .checked →
        ∃ t, exec (.dadd rd rs1 rs2 rm ov sc) s = .next t ∧
          Faults (encode (.dadd rd rs1 rs2 rm ov sc)) 3 0 s.status.v [rs1, rs2] s t) ∧
      (fits64 ((s.reg rs1).toInt - (s.reg rs2).toInt) ∨ ov = .unchecked →
        ∃ t, exec (.dsub rd rs1 rs2 rm ov sc) s = .next t ∧
          Completes rd (s.reg rs1 - s.reg rs2) [rs1, rs2] s t) ∧
      (¬ fits64 ((s.reg rs1).toInt - (s.reg rs2).toInt) → ov = .checked →
        ∃ t, exec (.dsub rd rs1 rs2 rm ov sc) s = .next t ∧
          Faults (encode (.dsub rd rs1 rs2 rm ov sc)) 3 0 s.status.v [rs1, rs2] s t)

/-- R94, R95, R98: DMUL, DMULU (second factor at scale `t = x[rc]`) and DSQR round the exact product once. -/
def Obligations.DecimalProductsRoundOnce : Prop :=
  ∀ (s : State) (rd rs1 rs2 rc : Reg) (rm : RoundingMode) (ov : OverflowMode) (sc : ScaleField), sc.val ≤ 18 →
    (RoundsAndCompletes (.dmul rd rs1 rs2 rm ov sc) rd [rs1, rs2]
        (((s.reg rs1).toInt * (s.reg rs2).toInt : ℚ) / 10 ^ sc.val) rm s ∧
      RoundsOrFaults (.dmul rd rs1 rs2 rm ov sc) rd [rs1, rs2]
        (((s.reg rs1).toInt * (s.reg rs2).toInt : ℚ) / 10 ^ sc.val) rm ov s) ∧
    (∀ t : Nat, t ≤ 18 → (s.reg rc).toInt = t →
      RoundsAndCompletes (.dmulu rd rs1 rs2 rc rm ov sc) rd [rc, rs1, rs2]
          (((s.reg rs1).toInt * (s.reg rs2).toInt : ℚ) / 10 ^ t) rm s ∧
        RoundsOrFaults (.dmulu rd rs1 rs2 rc rm ov sc) rd [rc, rs1, rs2]
          (((s.reg rs1).toInt * (s.reg rs2).toInt : ℚ) / 10 ^ t) rm ov s) ∧
    RoundsAndCompletes (.dsqr rd rs1 rm ov sc) rd [rs1] (((s.reg rs1).toInt : ℚ) ^ 2 / 10 ^ sc.val) rm s ∧
      RoundsOrFaults (.dsqr rd rs1 rm ov sc) rd [rs1] (((s.reg rs1).toInt : ℚ) ^ 2 / 10 ^ sc.val) rm ov s

/-- R96, R97, R103: DDIV, DDIVU (divisor at scale `t = x[rc]`) and DINV round the exact quotient once. -/
def Obligations.DecimalQuotientsRoundOnce : Prop :=
  ∀ (s : State) (rd rs1 rs2 rc : Reg) (rm : RoundingMode) (ov : OverflowMode) (sc : ScaleField), sc.val ≤ 18 →
    (s.reg rs2 ≠ 0 →
      RoundsAndCompletes (.ddiv rd rs1 rs2 rm ov sc) rd [rs2, rs1]
          (((s.reg rs1).toInt : ℚ) * 10 ^ sc.val / (s.reg rs2).toInt) rm s ∧
        RoundsOrFaults (.ddiv rd rs1 rs2 rm ov sc) rd [rs2, rs1]
          (((s.reg rs1).toInt : ℚ) * 10 ^ sc.val / (s.reg rs2).toInt) rm ov s ∧
        ∀ t : Nat, t ≤ 18 → (s.reg rc).toInt = t →
          RoundsAndCompletes (.ddivu rd rs1 rs2 rc rm ov sc) rd [rc, rs2, rs1]
              (((s.reg rs1).toInt : ℚ) * 10 ^ t / (s.reg rs2).toInt) rm s ∧
            RoundsOrFaults (.ddivu rd rs1 rs2 rc rm ov sc) rd [rc, rs2, rs1]
              (((s.reg rs1).toInt : ℚ) * 10 ^ t / (s.reg rs2).toInt) rm ov s) ∧
    (s.reg rs1 ≠ 0 →
      RoundsAndCompletes (.dinv rd rs1 rm ov sc) rd [rs1] ((10 : ℚ) ^ (2 * sc.val) / (s.reg rs1).toInt) rm s ∧
        RoundsOrFaults (.dinv rd rs1 rm ov sc) rd [rs1] ((10 : ℚ) ^ (2 * sc.val) / (s.reg rs1).toInt) rm ov s)

/-- R96, R97, R103, R120: a zero divisor of DDIV, DDIVU or DINV faults with DIVISION_BY_ZERO. That DDIV and DDIVU then do
not count `rs1` as read is the model's choice (log 10). -/
def Obligations.DecimalDivisionByZeroFaults : Prop :=
  ∀ (s : State) (rd rs1 rs2 rc : Reg) (rm : RoundingMode) (ov : OverflowMode) (sc : ScaleField), sc.val ≤ 18 →
    (s.reg rs2 = 0 →
      (∃ t, exec (.ddiv rd rs1 rs2 rm ov sc) s = .next t ∧
        Faults (encode (.ddiv rd rs1 rs2 rm ov sc)) 2 6 s.status.v [rs2] s t) ∧
      (0 ≤ (s.reg rc).toInt → (s.reg rc).toInt ≤ 18 →
        ∃ t, exec (.ddivu rd rs1 rs2 rc rm ov sc) s = .next t ∧
          Faults (encode (.ddivu rd rs1 rs2 rc rm ov sc)) 2 6 s.status.v [rc, rs2] s t)) ∧
    (s.reg rs1 = 0 → ∃ t, exec (.dinv rd rs1 rm ov sc) s = .next t ∧
      Faults (encode (.dinv rd rs1 rm ov sc)) 2 6 s.status.v [rs1] s t)

/-- R91, R122: a second scale outside 0 to 18 faults DMULU, DDIVU and DCMPU with PARAM_SCALE_RANGE, whatever the other
operands are, a zero divisor included. That only `rc` then counts as read is the model's choice (log 10). -/
def Obligations.IllegalSecondScaleFaults : Prop :=
  ∀ (s : State) (rd rs1 rs2 rc : Reg) (rm : RoundingMode) (ov : OverflowMode) (sc : ScaleField), sc.val ≤ 18 →
    ((s.reg rc).toInt < 0 ∨ 18 < (s.reg rc).toInt) →
      (∃ t, exec (.dmulu rd rs1 rs2 rc rm ov sc) s = .next t ∧
        Faults (encode (.dmulu rd rs1 rs2 rc rm ov sc)) 2 2 s.status.v [rc] s t) ∧
      (∃ t, exec (.ddivu rd rs1 rs2 rc rm ov sc) s = .next t ∧
        Faults (encode (.ddivu rd rs1 rs2 rc rm ov sc)) 2 2 s.status.v [rc] s t) ∧
      ∃ t, exec (.dcmpu rd rs1 rs2 rc rm ov sc) s = .next t ∧
        Faults (encode (.dcmpu rd rs1 rs2 rc rm ov sc)) 2 2 s.status.v [rc] s t

/-- R99: DSQRT writes the root of `a × 10^s` rounded under the mode, and never overflows; an inexact root under
UNNECESSARY and a negative operand fault. (That the result is the rounded real root is the spec's own inference, R99:
"with `Round` … extended to this irrational value".) -/
def Obligations.SquareRootIsRounded : Prop :=
  ∀ (s : State) (rd rs1 : Reg) (rm : RoundingMode) (ov : OverflowMode) (sc : ScaleField), sc.val ≤ 18 →
    (0 ≤ (s.reg rs1).toInt → ∀ r : Nat, RootRoundsTo ((s.reg rs1).toNat * 10 ^ sc.val) rm r →
        r < 2 ^ 63 ∧ ∃ t, exec (.dsqrt rd rs1 rm ov sc) s = .next t ∧ Completes rd (BitVec.ofNat 64 r) [rs1] s t) ∧
      (0 ≤ (s.reg rs1).toInt → rm ≠ .unnecessary → ∃ r : Nat, RootRoundsTo ((s.reg rs1).toNat * 10 ^ sc.val) rm r) ∧
      (0 ≤ (s.reg rs1).toInt → rm = .unnecessary →
        (¬ ∃ r : Nat, r * r = (s.reg rs1).toNat * 10 ^ sc.val) →
          ∃ t, exec (.dsqrt rd rs1 rm ov sc) s = .next t ∧
            Faults (encode (.dsqrt rd rs1 rm ov sc)) 4 0 s.status.v [rs1] s t) ∧
      ((s.reg rs1).toInt < 0 → ∃ t, exec (.dsqrt rd rs1 rm ov sc) s = .next t ∧
        Faults (encode (.dsqrt rd rs1 rm ov sc)) 2 7 s.status.v [rs1] s t)

/-- R102: DAVG rounds the exact mean and never overflows; an odd sum under UNNECESSARY faults. -/
def Obligations.AverageNeverOverflows : Prop :=
  ∀ (s : State) (rd rs1 rs2 : Reg) (rm : RoundingMode) (ov : OverflowMode) (sc : ScaleField), sc.val ≤ 18 →
    (∀ r : Int, RoundsTo (((s.reg rs1).toInt + (s.reg rs2).toInt : ℚ) / 2) rm r →
      fits64 r ∧ ∃ t, exec (.davg rd rs1 rs2 rm ov sc) s = .next t ∧
        Completes rd (BitVec.ofInt 64 r) [rs1, rs2] s t) ∧
    (rm = .unnecessary → ((s.reg rs1).toInt + (s.reg rs2).toInt) % 2 = 1 →
      ∃ t, exec (.davg rd rs1 rs2 rm ov sc) s = .next t ∧
        Faults (encode (.davg rd rs1 rs2 rm ov sc)) 4 0 s.status.v [rs1, rs2] s t)

/-! ### DPOW -/

/-- R100: the exact special cases of DPOW, and its faults before the power is formed. That only `rs2` counts as read where
the exponent is out of range is the model's choice (log 10). -/
def Obligations.PowerSpecialCases : Prop :=
  ∀ (s : State) (rd rs1 rs2 : Reg) (rm : RoundingMode) (ov : OverflowMode) (sc : ScaleField) (a n : Int),
    sc.val ≤ 18 → a = (s.reg rs1).toInt → n = (s.reg rs2).toInt →
      (n < -999999999 ∨ 999999999 < n → ∃ t, exec (.dpow rd rs1 rs2 rm ov sc) s = .next t ∧
        Faults (encode (.dpow rd rs1 rs2 rm ov sc)) 2 3 s.status.v [rs2] s t) ∧
      (-999999999 ≤ n → n ≤ 999999999 →
        (n = 0 → ∃ t, exec (.dpow rd rs1 rs2 rm ov sc) s = .next t ∧
          Completes rd (BitVec.ofInt 64 (10 ^ sc.val)) [rs2, rs1] s t) ∧
        (a = 0 → 0 < n → ∃ t, exec (.dpow rd rs1 rs2 rm ov sc) s = .next t ∧ Completes rd 0 [rs2, rs1] s t) ∧
        (a = 0 → n < 0 → ∃ t, exec (.dpow rd rs1 rs2 rm ov sc) s = .next t ∧
          Faults (encode (.dpow rd rs1 rs2 rm ov sc)) 2 6 s.status.v [rs2, rs1] s t) ∧
        (n = 1 → ∃ t, exec (.dpow rd rs1 rs2 rm ov sc) s = .next t ∧ Completes rd (s.reg rs1) [rs2, rs1] s t) ∧
        (a = 10 ^ sc.val → ∃ t, exec (.dpow rd rs1 rs2 rm ov sc) s = .next t ∧
          Completes rd (BitVec.ofInt 64 (10 ^ sc.val)) [rs2, rs1] s t) ∧
        (a = -10 ^ sc.val → n % 2 = 0 → ∃ t, exec (.dpow rd rs1 rs2 rm ov sc) s = .next t ∧
          Completes rd (BitVec.ofInt 64 (10 ^ sc.val)) [rs2, rs1] s t) ∧
        (a = -10 ^ sc.val → n % 2 = 1 → ∃ t, exec (.dpow rd rs1 rs2 rm ov sc) s = .next t ∧
          Completes rd (BitVec.ofInt 64 (-10 ^ sc.val)) [rs2, rs1] s t))

/-- R101: outside the special cases DPOW ends in an outcome admitted for the exact power, whatever POW_RESULT is; and where
the mode is not UNNECESSARY and every candidate fits (or nothing is checked), it completes. -/
def Obligations.PowerStaysInTheAdmittedSet : Prop :=
  ∀ (s : State) (rd rs1 rs2 : Reg) (rm : RoundingMode) (ov : OverflowMode) (sc : ScaleField) (a n : Int) (q : ℚ),
    sc.val ≤ 18 → a = (s.reg rs1).toInt → n = (s.reg rs2).toInt → -999999999 ≤ n → n ≤ 999999999 →
      n ≠ 0 → n ≠ 1 → a ≠ 0 → a ≠ 10 ^ sc.val → a ≠ -10 ^ sc.val →
        q = ((a : ℚ) / 10 ^ sc.val) ^ n * 10 ^ sc.val →
          (∃ t, exec (.dpow rd rs1 rs2 rm ov sc) s = .next t ∧
            ((∃ w, Completes rd w [rs2, rs1] s t ∧
                ((rm ≠ .unnecessary ∧ |(w.toInt : ℚ) - q| < 2) ∨ (rm = .unnecessary ∧ (w.toInt : ℚ) = q) ∨
                  (ov = .unchecked ∧ SomeNeighbourUnfit q))) ∨
              (Faults (encode (.dpow rd rs1 rs2 rm ov sc)) 3 0 s.status.v [rs2, rs1] s t ∧ ov = .checked ∧
                SomeNeighbourUnfit q) ∨
              (Faults (encode (.dpow rd rs1 rs2 rm ov sc)) 4 0 s.status.v [rs2, rs1] s t ∧ rm = .unnecessary))) ∧
          (rm ≠ .unnecessary → (ov = .unchecked ∨ ¬ SomeNeighbourUnfit q) →
            ∃ t w, exec (.dpow rd rs1 rs2 rm ov sc) s = .next t ∧ Completes rd w [rs2, rs1] s t)

/-! ### Shift, round, compare -/

/-- R104, R105: DSHL and DSHR round the exact `a × 2^n` and `a × 2^-n` once, for every count `n`, however large. -/
def Obligations.ShiftsRoundTheExactProduct : Prop :=
  ∀ (s : State) (rd rs1 rs2 : Reg) (rm : RoundingMode) (ov : OverflowMode) (sc : ScaleField), sc.val ≤ 18 →
    (RoundsAndCompletes (.dshl rd rs1 rs2 rm ov sc) rd [rs1, rs2]
        (((s.reg rs1).toInt : ℚ) * (2 : ℚ) ^ (s.reg rs2).toInt) rm s ∧
      ShiftsOrFaults (.dshl rd rs1 rs2 rm ov sc) rd [rs1, rs2]
        (((s.reg rs1).toInt : ℚ) * (2 : ℚ) ^ (s.reg rs2).toInt) rm ov s) ∧
    RoundsAndCompletes (.dshr rd rs1 rs2 rm ov sc) rd [rs1, rs2]
        (((s.reg rs1).toInt : ℚ) / (2 : ℚ) ^ (s.reg rs2).toInt) rm s ∧
      ShiftsOrFaults (.dshr rd rs1 rs2 rm ov sc) rd [rs1, rs2]
        (((s.reg rs1).toInt : ℚ) / (2 : ℚ) ^ (s.reg rs2).toInt) rm ov s

/-- R106: DROUND to a precision at or above the scale returns the operand; below it, the multiple of `10^k` the mode picks,
or OVERFLOW, or an unchecked word; a dropped nonzero digit under UNNECESSARY faults, and so does `s - p > 18`, where that
only `rs2` counts as read is the model's choice (log 10). -/
def Obligations.RoundToPrecision : Prop :=
  ∀ (s : State) (rd rs1 rs2 : Reg) (rm : RoundingMode) (ov : OverflowMode) (sc : ScaleField), sc.val ≤ 18 →
    ((sc.val : Int) ≤ (s.reg rs2).toInt → ∃ t, exec (.dround rd rs1 rs2 rm ov sc) s = .next t ∧
        Completes rd (s.reg rs1) [rs2, rs1] s t) ∧
      (18 < (sc.val : Int) - (s.reg rs2).toInt → ∃ t, exec (.dround rd rs1 rs2 rm ov sc) s = .next t ∧
        Faults (encode (.dround rd rs1 rs2 rm ov sc)) 2 4 s.status.v [rs2] s t) ∧
      ∀ k : Nat, 1 ≤ k → k ≤ 18 → (sc.val : Int) - (s.reg rs2).toInt = k →
        (∀ r : Int, RoundsTo (((s.reg rs1).toInt : ℚ) / 10 ^ k) rm r →
          (fits64 (r * 10 ^ k) → ∃ t, exec (.dround rd rs1 rs2 rm ov sc) s = .next t ∧
            Completes rd (BitVec.ofInt 64 (r * 10 ^ k)) [rs2, rs1] s t) ∧
          (¬ fits64 (r * 10 ^ k) → ov = .checked → ∃ t, exec (.dround rd rs1 rs2 rm ov sc) s = .next t ∧
            Faults (encode (.dround rd rs1 rs2 rm ov sc)) 3 0 s.status.v [rs2, rs1] s t) ∧
          (¬ fits64 (r * 10 ^ k) → ov = .unchecked → ∃ t w, exec (.dround rd rs1 rs2 rm ov sc) s = .next t ∧
            Completes rd w [rs2, rs1] s t)) ∧
        (rm = .unnecessary → ¬ ((10 : Int) ^ k ∣ (s.reg rs1).toInt) →
          ∃ t, exec (.dround rd rs1 rs2 rm ov sc) s = .next t ∧
            Faults (encode (.dround rd rs1 rs2 rm ov sc)) 4 0 s.status.v [rs2, rs1] s t)

/-- R107, R108: DCMP and DCMPU write the order of the decimal values as -1, 0 or +1, exactly, whatever `rm` and `ov`. -/
def Obligations.ComparisonsAreExact : Prop :=
  ∀ (s : State) (rd rs1 rs2 rc : Reg) (rm : RoundingMode) (ov : OverflowMode) (sc : ScaleField), sc.val ≤ 18 →
    (∃ t, exec (.dcmp rd rs1 rs2 rm ov sc) s = .next t ∧
      Completes rd (if (s.reg rs1).slt (s.reg rs2) then -1 else if s.reg rs1 = s.reg rs2 then 0 else 1)
        [rs1, rs2] s t) ∧
    ∀ (t : Nat) (x y : ℚ), t ≤ 18 → (s.reg rc).toInt = t →
      x = ((s.reg rs1).toInt : ℚ) / 10 ^ sc.val → y = ((s.reg rs2).toInt : ℚ) / 10 ^ t →
        ∃ u w, exec (.dcmpu rd rs1 rs2 rc rm ov sc) s = .next u ∧ Completes rd w [rc, rs1, rs2] s u ∧
          (x < y → w = -1) ∧ (x = y → w = 0) ∧ (y < x → w = 1)

/-! ### Binary conversion -/

/-- R109: the value of a binary64 and of a binary32 pattern, from its sign, exponent and fraction bits. -/
def Obligations.PatternValuesFollowIeee : Prop :=
  (∀ (w : Word) (x fr : Nat) (sg : ℚ), x = (w.extractLsb' 52 11).toNat → fr = (w.extractLsb' 0 52).toNat →
      sg = (if w.getLsbD 63 then -1 else 1) →
      (x = 2047 → binary64.value w.toNat = none) ∧
        (x = 0 → ∃ d, binary64.value w.toNat = some d ∧ d.den ≠ 0 ∧
          (d.num : ℚ) / d.den = sg * fr * (2 : ℚ) ^ (-1074 : Int)) ∧
        (0 < x → x < 2047 → ∃ d, binary64.value w.toNat = some d ∧ d.den ≠ 0 ∧
          (d.num : ℚ) / d.den = sg * (2 ^ 52 + fr) * (2 : ℚ) ^ ((x : Int) - 1075))) ∧
    ∀ (w : BitVec 32) (x fr : Nat) (sg : ℚ), x = (w.extractLsb' 23 8).toNat → fr = (w.extractLsb' 0 23).toNat →
      sg = (if w.getLsbD 31 then -1 else 1) →
      (x = 255 → binary32.value w.toNat = none) ∧
        (x = 0 → ∃ d, binary32.value w.toNat = some d ∧ d.den ≠ 0 ∧
          (d.num : ℚ) / d.den = sg * fr * (2 : ℚ) ^ (-149 : Int)) ∧
        (0 < x → x < 255 → ∃ d, binary32.value w.toNat = some d ∧ d.den ≠ 0 ∧
          (d.num : ℚ) / d.den = sg * (2 ^ 23 + fr) * (2 : ℚ) ^ ((x : Int) - 150))

/-- R110, R111, R112: TODBL and TOFLT write the pattern of `a × 10^-s` correctly rounded to the format (TOFLT with bits
63:32 zero); zero gives +0.0; under UNNECESSARY a value the format does not hold faults. (That the result is the one
`Round` picks among the two neighbours is the spec's own inference, R110.) -/
def Obligations.DecimalToBinaryIsCorrectlyRounded : Prop :=
  ∀ (s : State) (rd rs1 : Reg) (rm : RoundingMode) (sc : ScaleField) (v : ℚ), sc.val ≤ 18 →
    v = ((s.reg rs1).toInt : ℚ) / 10 ^ sc.val →
      (s.reg rs1 = 0 →
        (∃ t, exec (.todbl rd rs1 rm sc) s = .next t ∧ Completes rd 0 [rs1] s t) ∧
          ∃ t, exec (.toflt rd rs1 rm sc) s = .next t ∧ Completes rd 0 [rs1] s t) ∧
      (s.reg rs1 ≠ 0 → (rm ≠ .unnecessary ∨ Representable binary64 v) →
        ∃ t w, exec (.todbl rd rs1 rm sc) s = .next t ∧ Completes rd w [rs1] s t ∧ IsRoundedBinary binary64 v rm w) ∧
      (s.reg rs1 ≠ 0 → (rm ≠ .unnecessary ∨ Representable binary32 v) →
        ∃ t w, exec (.toflt rd rs1 rm sc) s = .next t ∧ Completes rd w [rs1] s t ∧ w.toNat < 2 ^ 32 ∧
          IsRoundedBinary binary32 v rm w) ∧
      (rm = .unnecessary → ¬ Representable binary64 v → ∃ t, exec (.todbl rd rs1 rm sc) s = .next t ∧
        Faults (encode (.todbl rd rs1 rm sc)) 4 0 s.status.v [rs1] s t) ∧
      (rm = .unnecessary → ¬ Representable binary32 v → ∃ t, exec (.toflt rd rs1 rm sc) s = .next t ∧
        Faults (encode (.toflt rd rs1 rm sc)) 4 0 s.status.v [rs1] s t)

/-- R113, R114: FROMDBL and FROMFLT round `d × 10^s` once, always checked; NaN and infinities fault; FROMFLT ignores bits
63:32: two sources that agree in bits 31:0 give the same word, or the same fault with the same record. -/
def Obligations.BinaryToDecimalRoundsOnce : Prop :=
  ∀ (s : State) (rd rs1 : Reg) (rm : RoundingMode) (sc : ScaleField), sc.val ≤ 18 →
    (∀ d : Ratio, binary64.value (s.reg rs1).toNat = some d →
      RoundsAndCompletes (.fromdbl rd rs1 rm sc) rd [rs1] ((d.num : ℚ) / d.den * 10 ^ sc.val) rm s ∧
        RoundsOrFaultsChecked (.fromdbl rd rs1 rm sc) [rs1] ((d.num : ℚ) / d.den * 10 ^ sc.val) rm s) ∧
    (∀ d : Ratio, binary32.value ((s.reg rs1).toNat % 2 ^ 32) = some d →
      RoundsAndCompletes (.fromflt rd rs1 rm sc) rd [rs1] ((d.num : ℚ) / d.den * 10 ^ sc.val) rm s ∧
        RoundsOrFaultsChecked (.fromflt rd rs1 rm sc) [rs1] ((d.num : ℚ) / d.den * 10 ^ sc.val) rm s) ∧
    ((s.reg rs1).extractLsb' 52 11 = 0x7FF → ∃ t, exec (.fromdbl rd rs1 rm sc) s = .next t ∧
      Faults (encode (.fromdbl rd rs1 rm sc)) 2 8 s.status.v [rs1] s t) ∧
    ((s.reg rs1).extractLsb' 23 8 = 0xFF → ∃ t, exec (.fromflt rd rs1 rm sc) s = .next t ∧
      Faults (encode (.fromflt rd rs1 rm sc)) 2 8 s.status.v [rs1] s t) ∧
    ∀ s' : State, (s'.reg rs1).extractLsb' 0 32 = (s.reg rs1).extractLsb' 0 32 →
      ∃ t t', exec (.fromflt rd rs1 rm sc) s = .next t ∧ exec (.fromflt rd rs1 rm sc) s' = .next t' ∧
        ((∃ w, Completes rd w [rs1] s t ∧ Completes rd w [rs1] s' t') ∨
          ∃ err sub, Faults (encode (.fromflt rd rs1 rm sc)) err sub s.status.v [rs1] s t ∧
            Faults (encode (.fromflt rd rs1 rm sc)) err sub s'.status.v [rs1] s' t')

/-! ### Text -/

/-- R115, R117: PARSE of a text that is a literal rounds its exact value once, always checked; every other text, the empty
one included, faults with MALFORMED_TEXT; an illegal scale faults before the text is read, and a byte below TLEN that has
not been written is the model fault (R24, R137). -/
def Obligations.ParseAcceptsExactlyTheGrammar : Prop :=
  ∀ (s : State) (rd : Reg) (rm : RoundingMode) (sc : ScaleField),
    (18 < sc.val → ∃ t, exec (.parse rd rm sc) s = .next t ∧
      Faults (encode (.parse rd rm sc)) 2 1 s.status.v [] s t) ∧
    (sc.val ≤ 18 → (∃ a, a < s.tlen.toNat ∧ s.tbuf.read a = none) →
      ∃ a, exec (.parse rd rm sc) s = .fault (.unwrittenText a)) ∧
    ∀ txt : List Byte, sc.val ≤ 18 → HoldsText s txt →
      (∀ v : ℚ, IsLiteral txt v →
        RoundsAndCompletes (.parse rd rm sc) rd [] (v * 10 ^ sc.val) rm s ∧
          RoundsOrFaultsChecked (.parse rd rm sc) [] (v * 10 ^ sc.val) rm s) ∧
      ((¬ ∃ v : ℚ, IsLiteral txt v) → ∃ t, exec (.parse rd rm sc) s = .next t ∧
        Faults (encode (.parse rd rm sc)) 2 9 s.status.v [] s t)

/-- R116, R118: FORMAT writes `Text(a, s)` to TBUF from address 0 and its length, at most 21, to TLEN; no other byte of
TBUF changes, no X register, and nothing else. (The bound 21 is the spec's own inference, R116: "The longest text has 21
characters.") -/
def Obligations.FormatWritesTheText : Prop :=
  ∀ (s : State) (rs1 : Reg) (sc : ScaleField), sc.val ≤ 18 →
    ∃ (t : State) (txt : List Byte), exec (.format rs1 sc) s = .next t ∧ IsTextOf (s.reg rs1).toInt sc.val txt ∧
      txt.length ≤ 21 ∧ HoldsText t txt ∧ (∀ a, txt.length ≤ a → t.tbuf.read a = s.tbuf.read a) ∧
      SameRegsBut [] s t ∧ t.status = s.status ∧ t.fcmd = s.fcmd ∧ SameOutside s t ∧ NotesReads [rs1] s t

/-- R118: PARSE of the text FORMAT wrote, at the same scale and under every mode, UNNECESSARY included, gives the value
back, without a fault. (The round trip is the spec's own inference, marked derived in R118.) -/
def Obligations.FormatThenParseGivesTheValueBack : Prop :=
  ∀ (s : State) (rs1 rd : Reg) (rm : RoundingMode) (sc : ScaleField), sc.val ≤ 18 →
    ∃ t u, exec (.format rs1 sc) s = .next t ∧ exec (.parse rd rm sc) t = .next u ∧
      Completes rd (s.reg rs1) [] t u
end

