-- ==== Sys2Proof/Laws/Encoding.lean ====
section
/-! SUPPORT. Lemmas of the command word's fields (`30_encoding.md` R43, R50): packing and unpacking are inverse, and so
are the codes of each field. -/

namespace Sys2Proof

theorem Fields.unpack_pack (f : Fields) : Fields.unpack f.pack = f := by
  cases f
  simp only [Fields.unpack, Fields.pack, Fields.mk.injEq]
  refine ⟨?_, ?_, ?_, ?_, ?_, ?_, ?_, ?_, ?_⟩ <;>
    (ext i hi; interval_cases i <;> simp)

theorem Fields.pack_unpack (w : CommandWord) : (Fields.unpack w).pack = w := by
  simp only [Fields.unpack, Fields.pack]
  ext i hi
  interval_cases i <;> simp

/-- A word is its fields. -/
theorem Fields.unpack_inj {v w : CommandWord} (h : Fields.unpack v = Fields.unpack w) : v = w := by
  rw [← Fields.pack_unpack v, h, Fields.pack_unpack]

/-- Masking a word masks its fields. -/
theorem Fields.unpack_and (v w : CommandWord) :
    Fields.unpack (v &&& w) =
      { op := (Fields.unpack v).op &&& (Fields.unpack w).op, rd := (Fields.unpack v).rd &&& (Fields.unpack w).rd
        rs1 := (Fields.unpack v).rs1 &&& (Fields.unpack w).rs1, rs2 := (Fields.unpack v).rs2 &&& (Fields.unpack w).rs2
        rc := (Fields.unpack v).rc &&& (Fields.unpack w).rc, rm := (Fields.unpack v).rm &&& (Fields.unpack w).rm
        ov := (Fields.unpack v).ov &&& (Fields.unpack w).ov, sc := (Fields.unpack v).sc &&& (Fields.unpack w).sc
        n := (Fields.unpack v).n &&& (Fields.unpack w).n } := by
  simp [Fields.unpack, BitVec.extractLsb'_and]

@[simp] theorem regOfBits_regBits (r : Reg) : regOfBits (regBits r) = r := by
  simp [regOfBits, regBits]

@[simp] theorem regBits_regOfBits (b : BitVec 4) : regBits (regOfBits b) = b := by
  simp [regOfBits, regBits]

@[simp] theorem scaleOfBits_scaleBits (s : ScaleField) : scaleOfBits (scaleBits s) = s := by
  simp [scaleOfBits, scaleBits]

@[simp] theorem scaleBits_scaleOfBits (b : BitVec 5) : scaleBits (scaleOfBits b) = b := by
  simp [scaleOfBits, scaleBits]

@[simp] theorem roundingOfBits_bits (m : RoundingMode) : roundingOfBits m.bits = m := by
  cases m <;> rfl

@[simp] theorem bits_roundingOfBits (b : BitVec 3) : (roundingOfBits b).bits = b := by
  revert b; decide

@[simp] theorem overflowOfBits_bits (o : OverflowMode) : overflowOfBits o.bits = o := by
  cases o <;> rfl

@[simp] theorem bits_overflowOfBits (b : BitVec 1) : (overflowOfBits b).bits = b := by
  revert b; decide

@[simp] theorem signOfBits_bits (n : QuotientSign) : signOfBits n.bits = n := by
  cases n <;> rfl

@[simp] theorem bits_signOfBits (b : BitVec 1) : (signOfBits b).bits = b := by
  revert b; decide

end Sys2Proof
end

