-- ==== Sys2Proof/Laws/Memory.lean ====
section
/-! SUPPORT. The laws of the text buffer (`20_memory.md` R24, R35): a read after a write, and the canonical form, which
every operation keeps and reset has. -/

namespace Sys2Proof.Machine

theorem Memory.read_write_same (m : Memory) (a : Nat) (v : Byte) : (m.write a v).read a = some v := by
  induction m with
  | nil => simp [Memory.write, Memory.read]
  | cons c m ih =>
    obtain ⟨b, w⟩ := c
    simp only [Memory.write]
    split
    · simp [Memory.read]
    · split
      · simp [Memory.read]
      · rename_i h1 h2
        have : b ≠ a := fun e => h2 e.symm
        simp [Memory.read, this, ih]

theorem Memory.read_write_ne (m : Memory) (a b : Nat) (v : Byte) (h : b ≠ a) :
    (m.write a v).read b = m.read b := by
  induction m with
  | nil => simp [Memory.write, Memory.read, Ne.symm h]
  | cons c m ih =>
    obtain ⟨k, w⟩ := c
    simp only [Memory.write]
    split
    · simp [Memory.read, Ne.symm h]
    · split
      · rename_i h2
        subst h2
        simp [Memory.read, Ne.symm h]
      · simp [Memory.read, ih]

theorem Memory.mem_write (m : Memory) (a : Nat) (v : Byte) (c : Host.Cell) (h : c ∈ m.write a v) :
    c = (a, v) ∨ c ∈ m := by
  induction m with
  | nil => simpa [Memory.write] using h
  | cons d m ih =>
    obtain ⟨k, w⟩ := d
    simp only [Memory.write] at h
    split at h
    · simpa using h
    · split at h
      · rcases List.mem_cons.mp h with h | h
        · exact .inl h
        · exact .inr (List.mem_cons_of_mem _ h)
      · rcases List.mem_cons.mp h with h | h
        · exact .inr (by simp [h])
        · rcases ih h with h | h
          · exact .inl h
          · exact .inr (List.mem_cons_of_mem _ h)

theorem Memory.wf_write (m : Memory) (a : Nat) (v : Byte) (ha : a < 64) (h : m.wf) : (m.write a v).wf := by
  refine ⟨?_, ?_⟩
  · replace h := h.1
    induction m with
    | nil => simp [Memory.write]
    | cons d m ih =>
      obtain ⟨k, w⟩ := d
      rw [List.pairwise_cons] at h
      simp only [Memory.write]
      split
      · rename_i hlt
        refine List.pairwise_cons.mpr ⟨?_, List.pairwise_cons.mpr h⟩
        intro c hc
        rcases List.mem_cons.mp hc with hc | hc
        · rw [hc]
          exact hlt
        · exact lt_trans hlt (h.1 c hc)
      · split
        · rename_i heq
          subst heq
          exact List.pairwise_cons.mpr h
        · rename_i hlt hne
          refine List.pairwise_cons.mpr ⟨?_, ih h.2⟩
          intro c hc
          rcases Memory.mem_write m a v c hc with hc | hc
          · rw [hc]
            change k < a
            omega
          · exact h.1 c hc
  · intro c hc
    rcases Memory.mem_write m a v c hc with hc | hc
    · rw [hc]
      exact ha
    · exact h.2 c hc

/-- A read after a write of a byte sequence: the bytes written where they stand, the old ones elsewhere. -/
theorem memWrite_read (m : Memory) (a : Nat) (bs : List Byte) (k : Nat) :
    (memWrite m a bs).read k = if a ≤ k ∧ k < a + bs.length then bs[k - a]? else m.read k := by
  induction bs generalizing m a with
  | nil =>
    have : ¬ (a ≤ k ∧ k < a) := by omega
    simp [memWrite, this]
  | cons b bs ih =>
    simp only [memWrite, ih, List.length_cons]
    by_cases hk : k = a
    · subst hk
      simp [Memory.read_write_same]
    · rw [Memory.read_write_ne _ _ _ _ hk]
      by_cases h : a + 1 ≤ k ∧ k < a + 1 + bs.length
      · have h' : a ≤ k ∧ k < a + (bs.length + 1) := by omega
        obtain ⟨j, rfl⟩ : ∃ j, k = a + 1 + j := ⟨k - (a + 1), by omega⟩
        have e1 : a + 1 + j - a = j + 1 := by omega
        simp [h', e1]
        omega
      · have h' : ¬ (a ≤ k ∧ k < a + (bs.length + 1)) := by omega
        rw [if_neg h, if_neg h']

theorem memWrite_wf (m : Memory) (a : Nat) (bs : List Byte) (h : m.wf) (hb : a + bs.length ≤ 64) :
    (memWrite m a bs).wf := by
  induction bs generalizing m a with
  | nil => exact h
  | cons b bs ih =>
    simp only [List.length_cons] at hb
    exact ih _ _ (Memory.wf_write m a b (by omega) h) (by omega)

/-- What `memRead` answers: the bytes in order when each is written, else the first address that is not. -/
theorem memRead_ok (m : Memory) (a n : Nat) (bs : List Byte) :
    memRead m a n = .ok bs ↔ bs.length = n ∧ ∀ k, k < n → m.read (a + k) = bs[k]? := by
  induction n generalizing a bs with
  | zero =>
    simp only [memRead, Except.ok.injEq]
    constructor
    · rintro rfl
      simp
    · rintro ⟨h, -⟩
      exact (List.length_eq_zero_iff.mp h).symm
  | succ n ih =>
    simp only [memRead]
    cases hm : m.read a with
    | none =>
      refine ⟨fun h => by simp at h, ?_⟩
      rintro ⟨hl, h⟩
      have := h 0 (by omega)
      rw [Nat.add_zero, hm] at this
      exact absurd this.symm (by simp [hl])
    | some b =>
      cases hr : memRead m (a + 1) n with
      | error e =>
        refine ⟨fun h => by simp at h, ?_⟩
        rintro ⟨hl, h⟩
        obtain ⟨c, cs, rfl⟩ : ∃ c cs, bs = c :: cs := List.exists_cons_of_length_eq_add_one hl
        have : memRead m (a + 1) n = .ok cs := by
          refine (ih (a + 1) cs).mpr ⟨by simpa using hl, fun k hk => ?_⟩
          have := h (k + 1) (by omega)
          rw [show a + 1 + k = a + (k + 1) by omega, this]
          simp
        rw [hr] at this
        simp at this
      | ok cs =>
        have hcs := (ih (a + 1) cs).mp hr
        simp only [Except.ok.injEq]
        constructor
        · rintro rfl
          refine ⟨by simp [hcs.1], fun k hk => ?_⟩
          cases k with
          | zero => simpa using hm
          | succ k =>
            rw [show a + (k + 1) = a + 1 + k by omega, hcs.2 k (by omega)]
            simp
        · rintro ⟨hl, h⟩
          obtain ⟨c, ds, rfl⟩ : ∃ c cs, bs = c :: cs := List.exists_cons_of_length_eq_add_one hl
          have h0 := h 0 (by omega)
          rw [Nat.add_zero, hm] at h0
          simp at h0
          have : memRead m (a + 1) n = .ok ds := by
            refine (ih (a + 1) ds).mpr ⟨by simpa using hl, fun k hk => ?_⟩
            have := h (k + 1) (by omega)
            rw [show a + 1 + k = a + (k + 1) by omega, this]
            simp
          rw [hr] at this
          simp at this
          rw [h0, this]

theorem memRead_error (m : Memory) (a n k : Nat) (h : memRead m a n = .error k) :
    a ≤ k ∧ k < a + n ∧ m.read k = none ∧ ∀ j, a ≤ j → j < k → m.read j ≠ none := by
  induction n generalizing a with
  | zero => simp [memRead] at h
  | succ n ih =>
    simp only [memRead] at h
    cases hm : m.read a with
    | none =>
      simp [hm] at h
      subst h
      exact ⟨le_refl _, by omega, hm, fun j h1 h2 => by omega⟩
    | some b =>
      rw [hm] at h
      cases hr : memRead m (a + 1) n with
      | error e =>
        simp [hr] at h
        subst h
        obtain ⟨h1, h2, h3, h4⟩ := ih (a + 1) hr
        refine ⟨by omega, by omega, h3, fun j hj1 hj2 => ?_⟩
        by_cases e : j = a
        · rw [e, hm]
          simp
        · exact h4 j (by omega) hj2
      | ok cs => simp [hr] at h

theorem reset_tbuf_wf : State.reset.tbuf.wf := ⟨List.Pairwise.nil, by simp [State.reset]⟩

end Sys2Proof.Machine
end

