-- ==== Sys2Proof/Laws/State.lean ====
section
/-! SUPPORT. One lemma per field per update of the state, so that no proof unfolds a record update. -/

namespace Sys2Proof.Machine

@[simp] theorem noteRead_x (s : State) (r : Reg) : (s.noteRead r).x = s.x := rfl
@[simp] theorem noteRead_status (s : State) (r : Reg) : (s.noteRead r).status = s.status := rfl
@[simp] theorem noteRead_ctrl (s : State) (r : Reg) : (s.noteRead r).ctrl = s.ctrl := rfl
@[simp] theorem noteRead_fcmd (s : State) (r : Reg) : (s.noteRead r).fcmd = s.fcmd := rfl
@[simp] theorem noteRead_tlen (s : State) (r : Reg) : (s.noteRead r).tlen = s.tlen := rfl
@[simp] theorem noteRead_tbuf (s : State) (r : Reg) : (s.noteRead r).tbuf = s.tbuf := rfl
@[simp] theorem noteRead_xWritten (s : State) (r : Reg) : (s.noteRead r).xWritten = s.xWritten := rfl
@[simp] theorem noteRead_unwrittenRead (s : State) (r : Reg) : (s.noteRead r).unwrittenRead = (s.unwrittenRead || !s.isWritten r) := rfl
@[simp] theorem noteRead_host (s : State) (r : Reg) : (s.noteRead r).host = s.host := rfl
@[simp] theorem noteRead_readData (s : State) (r : Reg) : (s.noteRead r).readData = s.readData := rfl

@[simp] theorem writeReg_x (s : State) (r : Reg) (w : Word) : (s.writeReg r w).x = s.x.set r.val w := rfl
@[simp] theorem writeReg_status (s : State) (r : Reg) (w : Word) : (s.writeReg r w).status = s.status := rfl
@[simp] theorem writeReg_ctrl (s : State) (r : Reg) (w : Word) : (s.writeReg r w).ctrl = s.ctrl := rfl
@[simp] theorem writeReg_fcmd (s : State) (r : Reg) (w : Word) : (s.writeReg r w).fcmd = s.fcmd := rfl
@[simp] theorem writeReg_tlen (s : State) (r : Reg) (w : Word) : (s.writeReg r w).tlen = s.tlen := rfl
@[simp] theorem writeReg_tbuf (s : State) (r : Reg) (w : Word) : (s.writeReg r w).tbuf = s.tbuf := rfl
@[simp] theorem writeReg_xWritten (s : State) (r : Reg) (w : Word) : (s.writeReg r w).xWritten = s.xWritten.set r.val (BitVec.allOnes 8) := rfl
@[simp] theorem writeReg_unwrittenRead (s : State) (r : Reg) (w : Word) : (s.writeReg r w).unwrittenRead = s.unwrittenRead := rfl
@[simp] theorem writeReg_host (s : State) (r : Reg) (w : Word) : (s.writeReg r w).host = s.host := rfl
@[simp] theorem writeReg_readData (s : State) (r : Reg) (w : Word) : (s.writeReg r w).readData = s.readData := rfl

@[simp] theorem setV_x (s : State) (v : Bool) : (s.setV v).x = s.x := rfl
@[simp] theorem setV_status (s : State) (v : Bool) : (s.setV v).status = { s.status with v := v } := rfl
@[simp] theorem setV_ctrl (s : State) (v : Bool) : (s.setV v).ctrl = s.ctrl := rfl
@[simp] theorem setV_fcmd (s : State) (v : Bool) : (s.setV v).fcmd = s.fcmd := rfl
@[simp] theorem setV_tlen (s : State) (v : Bool) : (s.setV v).tlen = s.tlen := rfl
@[simp] theorem setV_tbuf (s : State) (v : Bool) : (s.setV v).tbuf = s.tbuf := rfl
@[simp] theorem setV_xWritten (s : State) (v : Bool) : (s.setV v).xWritten = s.xWritten := rfl
@[simp] theorem setV_unwrittenRead (s : State) (v : Bool) : (s.setV v).unwrittenRead = s.unwrittenRead := rfl
@[simp] theorem setV_host (s : State) (v : Bool) : (s.setV v).host = s.host := rfl
@[simp] theorem setV_readData (s : State) (v : Bool) : (s.setV v).readData = s.readData := rfl

@[simp] theorem takeFault_x (w : CommandWord) (e : EngineFault) (s : State) : (takeFault w e s).x = s.x := rfl
@[simp] theorem takeFault_status (w : CommandWord) (e : EngineFault) (s : State) : (takeFault w e s).status = { s.status with fault := true, err := e.err, sub := e.sub } := rfl
@[simp] theorem takeFault_ctrl (w : CommandWord) (e : EngineFault) (s : State) : (takeFault w e s).ctrl = s.ctrl := rfl
@[simp] theorem takeFault_fcmd (w : CommandWord) (e : EngineFault) (s : State) : (takeFault w e s).fcmd = w := rfl
@[simp] theorem takeFault_tlen (w : CommandWord) (e : EngineFault) (s : State) : (takeFault w e s).tlen = s.tlen := rfl
@[simp] theorem takeFault_tbuf (w : CommandWord) (e : EngineFault) (s : State) : (takeFault w e s).tbuf = s.tbuf := rfl
@[simp] theorem takeFault_xWritten (w : CommandWord) (e : EngineFault) (s : State) : (takeFault w e s).xWritten = s.xWritten := rfl
@[simp] theorem takeFault_unwrittenRead (w : CommandWord) (e : EngineFault) (s : State) : (takeFault w e s).unwrittenRead = s.unwrittenRead := rfl
@[simp] theorem takeFault_host (w : CommandWord) (e : EngineFault) (s : State) : (takeFault w e s).host = s.host := rfl
@[simp] theorem takeFault_readData (w : CommandWord) (e : EngineFault) (s : State) : (takeFault w e s).readData = s.readData := rfl

@[simp] theorem dropCommand_x (s : State) : (dropCommand s).x = s.x := rfl
@[simp] theorem dropCommand_status (s : State) : (dropCommand s).status = { s.status with miss := true } := rfl
@[simp] theorem dropCommand_ctrl (s : State) : (dropCommand s).ctrl = s.ctrl := rfl
@[simp] theorem dropCommand_fcmd (s : State) : (dropCommand s).fcmd = s.fcmd := rfl
@[simp] theorem dropCommand_tlen (s : State) : (dropCommand s).tlen = s.tlen := rfl
@[simp] theorem dropCommand_tbuf (s : State) : (dropCommand s).tbuf = s.tbuf := rfl
@[simp] theorem dropCommand_xWritten (s : State) : (dropCommand s).xWritten = s.xWritten := rfl
@[simp] theorem dropCommand_unwrittenRead (s : State) : (dropCommand s).unwrittenRead = s.unwrittenRead := rfl
@[simp] theorem dropCommand_host (s : State) : (dropCommand s).host = s.host := rfl
@[simp] theorem dropCommand_readData (s : State) : (dropCommand s).readData = s.readData := rfl

@[simp] theorem writeStatus_x (w : BitVec 32) (s : State) : (writeStatus w s).x = s.x := rfl
@[simp] theorem writeStatus_ctrl (w : BitVec 32) (s : State) : (writeStatus w s).ctrl = s.ctrl := rfl
@[simp] theorem writeStatus_fcmd (w : BitVec 32) (s : State) : (writeStatus w s).fcmd = s.fcmd := rfl
@[simp] theorem writeStatus_tlen (w : BitVec 32) (s : State) : (writeStatus w s).tlen = s.tlen := rfl
@[simp] theorem writeStatus_tbuf (w : BitVec 32) (s : State) : (writeStatus w s).tbuf = s.tbuf := rfl
@[simp] theorem writeStatus_xWritten (w : BitVec 32) (s : State) : (writeStatus w s).xWritten = s.xWritten := rfl
@[simp] theorem writeStatus_unwrittenRead (w : BitVec 32) (s : State) : (writeStatus w s).unwrittenRead = s.unwrittenRead := rfl
@[simp] theorem writeStatus_host (w : BitVec 32) (s : State) : (writeStatus w s).host = s.host := rfl
@[simp] theorem writeStatus_readData (w : BitVec 32) (s : State) : (writeStatus w s).readData = s.readData := rfl

@[simp] theorem writeRegBytes_x (r : Reg) (k n : Nat) (d : Word) (s : State) : (writeRegBytes r k n d s).x = s.x.set r.val ((s.reg r &&& ~~~ byteMask k n) ||| ((d <<< (8 * k)) &&& byteMask k n)) := rfl
@[simp] theorem writeRegBytes_status (r : Reg) (k n : Nat) (d : Word) (s : State) : (writeRegBytes r k n d s).status = s.status := rfl
@[simp] theorem writeRegBytes_ctrl (r : Reg) (k n : Nat) (d : Word) (s : State) : (writeRegBytes r k n d s).ctrl = s.ctrl := rfl
@[simp] theorem writeRegBytes_fcmd (r : Reg) (k n : Nat) (d : Word) (s : State) : (writeRegBytes r k n d s).fcmd = s.fcmd := rfl
@[simp] theorem writeRegBytes_tlen (r : Reg) (k n : Nat) (d : Word) (s : State) : (writeRegBytes r k n d s).tlen = s.tlen := rfl
@[simp] theorem writeRegBytes_tbuf (r : Reg) (k n : Nat) (d : Word) (s : State) : (writeRegBytes r k n d s).tbuf = s.tbuf := rfl
@[simp] theorem writeRegBytes_xWritten (r : Reg) (k n : Nat) (d : Word) (s : State) : (writeRegBytes r k n d s).xWritten = s.xWritten.set r.val (s.xWritten[r.val] ||| (BitVec.ofNat 8 (2 ^ n - 1) <<< k)) := rfl
@[simp] theorem writeRegBytes_unwrittenRead (r : Reg) (k n : Nat) (d : Word) (s : State) : (writeRegBytes r k n d s).unwrittenRead = s.unwrittenRead := rfl
@[simp] theorem writeRegBytes_host (r : Reg) (k n : Nat) (d : Word) (s : State) : (writeRegBytes r k n d s).host = s.host := rfl
@[simp] theorem writeRegBytes_readData (r : Reg) (k n : Nat) (d : Word) (s : State) : (writeRegBytes r k n d s).readData = s.readData := rfl

@[simp] theorem writeCtrl_x (w : BitVec 32) (s : State) : (writeCtrl w s).x = s.x := rfl
@[simp] theorem writeCtrl_status (w : BitVec 32) (s : State) : (writeCtrl w s).status = s.status := rfl
@[simp] theorem writeCtrl_ctrl (w : BitVec 32) (s : State) : (writeCtrl w s).ctrl = { fie := w.getLsbD 0 } := rfl
@[simp] theorem writeCtrl_fcmd (w : BitVec 32) (s : State) : (writeCtrl w s).fcmd = s.fcmd := rfl
@[simp] theorem writeCtrl_tlen (w : BitVec 32) (s : State) : (writeCtrl w s).tlen = s.tlen := rfl
@[simp] theorem writeCtrl_tbuf (w : BitVec 32) (s : State) : (writeCtrl w s).tbuf = s.tbuf := rfl
@[simp] theorem writeCtrl_xWritten (w : BitVec 32) (s : State) : (writeCtrl w s).xWritten = s.xWritten := rfl
@[simp] theorem writeCtrl_unwrittenRead (w : BitVec 32) (s : State) : (writeCtrl w s).unwrittenRead = s.unwrittenRead := rfl
@[simp] theorem writeCtrl_host (w : BitVec 32) (s : State) : (writeCtrl w s).host = s.host := rfl
@[simp] theorem writeCtrl_readData (w : BitVec 32) (s : State) : (writeCtrl w s).readData = s.readData := rfl

/-! The registers read through the accessors. -/

@[simp] theorem reg_writeReg_same (s : State) (r : Reg) (w : Word) : (s.writeReg r w).reg r = w := by
  simp [State.reg]

theorem reg_writeReg_ne (s : State) (r q : Reg) (w : Word) (h : q ≠ r) : (s.writeReg r w).reg q = s.reg q := by
  have h' : r.val ≠ q.val := fun e => h (Fin.ext e.symm)
  simp [State.reg, h']

@[simp] theorem xWritten_writeReg_ne (s : State) (r q : Reg) (w : Word) (h : q ≠ r) :
    (s.writeReg r w).xWritten[q.val] = s.xWritten[q.val] := by
  have h' : r.val ≠ q.val := fun e => h (Fin.ext e.symm)
  simp [h']

@[simp] theorem isWritten_writeReg_same (s : State) (r : Reg) (w : Word) : (s.writeReg r w).isWritten r = true := by
  simp [State.isWritten]

@[simp] theorem reg_noteRead (s : State) (r q : Reg) : (s.noteRead r).reg q = s.reg q := rfl
@[simp] theorem isWritten_noteRead (s : State) (r q : Reg) : (s.noteRead r).isWritten q = s.isWritten q := rfl
@[simp] theorem reg_setV (s : State) (v : Bool) (q : Reg) : (s.setV v).reg q = s.reg q := rfl
@[simp] theorem isWritten_setV (s : State) (v : Bool) (q : Reg) : (s.setV v).isWritten q = s.isWritten q := rfl
@[simp] theorem reg_takeFault (w : CommandWord) (e : EngineFault) (s : State) (q : Reg) :
    (takeFault w e s).reg q = s.reg q := rfl
@[simp] theorem isWritten_takeFault (w : CommandWord) (e : EngineFault) (s : State) (q : Reg) :
    (takeFault w e s).isWritten q = s.isWritten q := rfl

end Sys2Proof.Machine
end

