-- ==== Sys2Proof/Laws/Ops.lean ====
section
/-! SUPPORT. For each shared operation, what it can do, said once: cite these instead of unfolding the operation. -/

namespace Sys2Proof.Machine

/-! ### Operand forms -/

theorem readX_eq (r : Reg) (s : State) (k : Word → State → Result) : readX r s k = k (s.reg r) (s.noteRead r) := rfl

theorem readX2_eq (r1 r2 : Reg) (s : State) (k : Word → Word → State → Result) :
    readX2 r1 r2 s k = k (s.reg r1) (s.reg r2) ((s.noteRead r1).noteRead r2) := rfl

theorem withScale_legal (i : Instr) (sc : ScaleField) (s : State) (k : Nat → Result) (h : sc.val ≤ 18) :
    withScale i sc s k = k sc.val := by
  simp [withScale, Nat.not_lt.mpr h]

theorem withScale_illegal (i : Instr) (sc : ScaleField) (s : State) (k : Nat → Result) (h : 18 < sc.val) :
    withScale i sc s k = .next (takeFault (encode i) .scaleRange s) := by
  simp [withScale, h, raise]

theorem withSecondScale_legal (i : Instr) (rc : Reg) (s : State) (k : Nat → State → Result)
    (h0 : 0 ≤ (s.reg rc).toInt) (h : (s.reg rc).toInt ≤ 18) :
    withSecondScale i rc s k = k (s.reg rc).toInt.toNat (s.noteRead rc) := by
  have h1 : ¬ ((s.reg rc).toInt < 0 ∨ 18 < (s.reg rc).toInt) := by omega
  simp only [withSecondScale, readX_eq, if_neg h1]

theorem withSecondScale_illegal (i : Instr) (rc : Reg) (s : State) (k : Nat → State → Result)
    (h : (s.reg rc).toInt < 0 ∨ 18 < (s.reg rc).toInt) :
    withSecondScale i rc s k = .next (takeFault (encode i) .paramScaleRange (s.noteRead rc)) := by
  simp only [withSecondScale, readX_eq, if_pos h, raise]

/-! ### How a command ends -/

theorem finish_cases (i : Instr) (rd : Reg) (r : Except EngineFault Word) (s : State) :
    (∃ w, r = .ok w ∧ finish i rd r s = .next (s.writeReg rd w)) ∨
      ∃ e, r = .error e ∧ finish i rd r s = .next (takeFault (encode i) e s) := by
  cases r with
  | ok w => exact .inl ⟨w, rfl, rfl⟩
  | error e => exact .inr ⟨e, rfl, rfl⟩

theorem finishChecked_cases (i : Instr) (rd : Reg) (ov : OverflowMode) (e : Int) (s : State) :
    (¬ fits64 e ∧ ov = .checked ∧
        finishChecked i rd ov e s = .next (takeFault (encode i) .overflow (s.setV true))) ∨
      ((fits64 e ∨ ov = .unchecked) ∧
        finishChecked i rd ov e s = .next ((s.writeReg rd (word64 e)).setV (decide (¬ fits64 e)))) := by
  by_cases h : ¬ fits64 e ∧ ov = .checked
  · refine .inl ⟨h.1, h.2, ?_⟩
    simp only [finishChecked, overflowSignal, decide_eq_true_eq, if_pos h, raise]
  · refine .inr ⟨?_, ?_⟩
    · cases ov
      · exact .inr rfl
      · exact .inl (by by_contra hf; exact h ⟨hf, rfl⟩)
    · simp only [finishChecked, overflowSignal, decide_eq_true_eq, if_neg h]

theorem finishWrapping_cases (i : Instr) (rd : Reg) (ov : OverflowMode) (e : Int) (s : State) :
    (¬ fits64 e ∧ ov = .checked ∧ finishWrapping i rd ov e s = .next (takeFault (encode i) .overflow s)) ∨
      ((fits64 e ∨ ov = .unchecked) ∧ finishWrapping i rd ov e s = .next (s.writeReg rd (word64 e))) := by
  by_cases h : ¬ fits64 e ∧ ov = .checked
  · exact .inl ⟨h.1, h.2, by simp only [finishWrapping, if_pos h, raise]⟩
  · refine .inr ⟨?_, by simp only [finishWrapping, if_neg h]⟩
    cases ov
    · exact .inr rfl
    · exact .inl (by by_contra hf; exact h ⟨hf, rfl⟩)

/-! ### Rounding -/

theorem incrementFor_error (m : RoundingMode) (neg odd : Bool) (p : TruncatedPart) (e : EngineFault)
    (h : incrementFor m neg odd p = .error e) : m = .unnecessary ∧ p ≠ .zero ∧ e = .roundingNecessary := by
  cases p <;> cases m <;> simp [incrementFor] at h ⊢ <;> exact h.symm

theorem round_error (q : Ratio) (m : RoundingMode) (e : EngineFault) (h : round q m = .error e) :
    m = .unnecessary ∧ e = .roundingNecessary := by
  unfold round at h
  split at h
  · rename_i e' he
    simp only [Except.error.injEq] at h
    subst h
    exact ⟨(incrementFor_error _ _ _ _ _ he).1, (incrementFor_error _ _ _ _ _ he).2.2⟩
  · cases h

theorem fitResult_cases (c : OpContext) (ovm : OverflowMode) (r : Int) :
    (fits64 r ∧ fitResult c ovm r = .ok (word64 r)) ∨
      (¬ fits64 r ∧ ovm = .checked ∧ fitResult c ovm r = .error .overflow) ∨
      (¬ fits64 r ∧ ovm = .unchecked ∧ fitResult c ovm r = .ok (uncheckedWrap c)) := by
  by_cases h : fits64 r
  · exact .inl ⟨h, by simp only [fitResult, if_pos h]⟩
  · cases ovm
    · exact .inr (.inr ⟨h, rfl, by simp only [fitResult, if_neg h]; rfl⟩)
    · exact .inr (.inl ⟨h, rfl, by simp only [fitResult, if_neg h, if_true]⟩)

theorem arithFaultChoice_cases (c : OpContext) :
    arithFaultChoice c = .overflow ∨ arithFaultChoice c = .roundingNecessary := by
  unfold arithFaultChoice
  split
  · exact .inl rfl
  · exact .inr rfl

/-- `DecResult` faults with an arithmetic fault only (R119). -/
theorem decResult_error (c : OpContext) (q : Ratio) (ovm : OverflowMode) (e : EngineFault)
    (h : decResult c q ovm = .error e) : e = .overflow ∨ e = .roundingNecessary := by
  unfold decResult at h
  split at h
  · split at h
    · simp only [Except.error.injEq] at h
      subst h
      exact arithFaultChoice_cases c
    · simp only [Except.error.injEq] at h
      exact .inr h.symm
  · split at h
    · rename_i e' he
      simp only [Except.error.injEq] at h
      subst h
      exact .inr (round_error _ _ _ he).2
    · rename_i r _
      rcases fitResult_cases c ovm r with ⟨_, hf⟩ | ⟨_, _, hf⟩ | ⟨_, _, hf⟩ <;> rw [hf] at h
      · cases h
      · simp only [Except.error.injEq] at h
        exact .inl h.symm
      · cases h

/-! ### Inputs -/

theorem issueCommand_cases (w : CommandWord) (s : State) :
    (s.status.fault = true ∧ issueCommand w s = .next (dropCommand s)) ∨
      (∃ k, s.status.fault = false ∧ decode w = .error k ∧
        issueCommand w s = .next (takeFault w (.illegal k) s)) ∨
      ∃ i, s.status.fault = false ∧ decode w = .ok i ∧ issueCommand w s = exec i s := by
  unfold issueCommand
  cases hf : s.status.fault with
  | true => exact .inl ⟨rfl, rfl⟩
  | false =>
    cases hd : decode w with
    | error k => exact .inr (.inl ⟨k, rfl, rfl, rfl⟩)
    | ok i => exact .inr (.inr ⟨i, rfl, rfl, rfl⟩)

theorem performWrite_cases (o : BitVec 8) (w : Width) (d : Word) (s : State) :
    (locate o w = .cmd ∧ performWrite o w d s = issueCommand (d.setWidth 32) s) ∨
      (locate o w ≠ .cmd ∧ performWrite o w d s = .next (writeWindow (locate o w) w d s)) := by
  unfold performWrite
  cases h : locate o w <;> simp

/-- A host read changes nothing but what it returns and the record of unwritten reads (R34). -/
theorem readWindow_next (o : BitVec 8) (w : Width) (s t : State) (h : readWindow o w s = .next t) :
    ∃ d, t = { s with readData := some d, unwrittenRead := t.unwrittenRead } := by
  unfold readWindow returnData at h
  split at h
  case h_1 =>
    simp only [readX_eq, Host.Outcome.next.injEq] at h
    subst h
    exact ⟨_, rfl⟩
  case h_7 =>
    split at h
    · cases h
    · simp only [Host.Outcome.next.injEq] at h
      subst h
      exact ⟨_, rfl⟩
  all_goals
    simp only [Host.Outcome.next.injEq] at h
    subst h
    exact ⟨_, rfl⟩

end Sys2Proof.Machine
end

