-- ==== Sys2Proof/Laws/Outcomes.lean ====
section
/-! SUPPORT. How a command's end meets the terms of `Safety.lean`: a written register is a completion, a taken fault is a
fault, with the frame of each. -/

namespace Sys2Proof.Machine

/-- What reading a list of registers changes (R16). -/
theorem foldl_noteRead (srcs : List Reg) (s : State) :
    srcs.foldl State.noteRead s = { s with unwrittenRead := s.unwrittenRead || srcs.any fun r => !s.isWritten r } := by
  induction srcs generalizing s with
  | nil => simp
  | cons r rs ih => simp [ih, State.noteRead, State.isWritten, Bool.or_assoc]

/-- A command that read `srcs`, writes `rd` and sets V completes. -/
theorem completesV_writeReg (rd : Reg) (w : Word) (v : Bool) (srcs : List Reg) (s : State) :
    CompletesV rd w v srcs s (((srcs.foldl State.noteRead s).writeReg rd w).setV v) := by
  rw [foldl_noteRead]
  constructor
  · simp
  · simp
  · intro r hr
    have : rd ≠ r := by rintro rfl; simp at hr
    have h2 : rd.val ≠ r.val := fun h => this (Fin.ext h)
    constructor
    · simp [State.writeReg, State.setV, State.reg, h2]
    · simp [State.writeReg, State.setV, h2]
  · simp [State.writeReg, State.setV]
  · rfl
  · exact ⟨rfl, fun _ => rfl⟩
  · exact ⟨rfl, rfl, rfl⟩
  · simp [NotesReads, State.writeReg, State.setV]

/-- A command that read `srcs` and writes `rd` completes. -/
theorem completes_writeReg (rd : Reg) (w : Word) (srcs : List Reg) (s : State) :
    Completes rd w srcs s ((srcs.foldl State.noteRead s).writeReg rd w) := by
  have h := completesV_writeReg rd w s.status.v srcs s
  have e : ((srcs.foldl State.noteRead s).writeReg rd w).setV s.status.v = (srcs.foldl State.noteRead s).writeReg rd w := by
    rw [foldl_noteRead]; rfl
  rwa [e] at h

/-- A command that read `srcs` and takes the fault `e` faults. -/
theorem faults_takeFault (w : CommandWord) (e : EngineFault) (srcs : List Reg) (s : State) :
    Faults w e.err e.sub s.status.v srcs s (takeFault w e (srcs.foldl State.noteRead s)) := by
  rw [foldl_noteRead]
  constructor
  · intro r _; exact ⟨rfl, rfl⟩
  · rfl
  · rfl
  · exact ⟨rfl, fun _ => rfl⟩
  · exact ⟨rfl, rfl, rfl⟩
  · rfl

/-- A command that read `srcs`, sets V and takes the fault `e` faults. -/
theorem faults_takeFault_setV (w : CommandWord) (e : EngineFault) (v : Bool) (srcs : List Reg) (s : State) :
    Faults w e.err e.sub v srcs s (takeFault w e ((srcs.foldl State.noteRead s).setV v)) := by
  rw [foldl_noteRead]
  constructor
  · intro r _; exact ⟨rfl, rfl⟩
  · rfl
  · rfl
  · exact ⟨rfl, fun _ => rfl⟩
  · exact ⟨rfl, rfl, rfl⟩
  · rfl

end Sys2Proof.Machine
end

