-- ==== Sys2Proof/Laws/ExecCases.lean ====
section
/-! SUPPORT. Every way a command can end, said once: cite `exec_ends` instead of unfolding the 44 meanings. -/

namespace Sys2Proof.Machine

/-- `s'` is `s` after some registers have been read. -/
def Noted (s s' : State) : Prop := ∃ srcs : List Reg, s' = srcs.foldl State.noteRead s

/-- The ways the command `i` ends from `s`: a fault, with V set only by an overflow of a CheckedOps command; a word
written, with V changed only by a CheckedOps command; a 128-bit pattern written; a text written by FORMAT; and PARSE
stopping at a byte that has not been written. -/
inductive Ends (i : Instr) (s : State) : Result → Prop
  | fault (s' : State) (e : EngineFault) (v : Bool) (hs : Noted s s')
      (hv : v = s.status.v ∨ (isCheckedOp i = true ∧ e = .overflow ∧ v = true)) :
      Ends i s (.next (takeFault (encode i) e (s'.setV v)))
  | word (s' : State) (rd : Reg) (w : Word) (v : Bool) (hs : Noted s s') (hv : v = s.status.v ∨ isCheckedOp i = true) :
      Ends i s (.next ((s'.writeReg rd w).setV v))
  | wide (s' : State) (rd rc : Reg) (w : BitVec 128) (hs : Noted s s') : Ends i s (.next (writeWide rd rc w s'))
  | text (s' : State) (r : Reg) (sc : ScaleField) (hs : Noted s s') (hi : i = .format r sc) (hsc : sc.val ≤ 18) :
      Ends i s (.next
        { s' with
          tbuf := memWrite s'.tbuf 0 (formatText (s.reg r).toInt sc.val)
          tlen := BitVec.ofNat 32 (formatText (s.reg r).toInt sc.val).length })
  | stop (rd : Reg) (rm : RoundingMode) (sc : ScaleField) (a : Nat) (hi : i = .parse rd rm sc)
      (ha : a < s.tlen.toNat) (hn : s.tbuf.read a = none) (hb : ∀ b, b < a → s.tbuf.read b ≠ none) :
      Ends i s (.fault (.unwrittenText a))

theorem Noted.refl (s : State) : Noted s s := ⟨[], rfl⟩

theorem Noted.read {s s' : State} (h : Noted s s') (r : Reg) : Noted s (s'.noteRead r) := by
  obtain ⟨srcs, rfl⟩ := h
  exact ⟨srcs ++ [r], by simp⟩

/-- Reading registers changes the record of unwritten reads alone. -/
theorem Noted.eq {s s' : State} (h : Noted s s') : s' = { s with unwrittenRead := s'.unwrittenRead } := by
  obtain ⟨srcs, rfl⟩ := h
  rw [foldl_noteRead]

theorem Noted.setV {s s' : State} (h : Noted s s') : s'.setV s.status.v = s' := by
  rw [h.eq]; rfl

theorem ends_raise {i : Instr} {s s' : State} (h : Noted s s') (e : EngineFault) : Ends i s (raise i e s') := by
  have := Ends.fault (i := i) s' e s.status.v h (.inl rfl)
  rwa [h.setV] at this

theorem ends_write {i : Instr} {s s' : State} (h : Noted s s') (rd : Reg) (w : Word) :
    Ends i s (.next (s'.writeReg rd w)) := by
  have := Ends.word (i := i) s' rd w s.status.v h (.inl rfl)
  have e : (s'.writeReg rd w).setV s.status.v = s'.writeReg rd w := by rw [h.eq]; rfl
  rwa [e] at this

theorem ends_finish {i : Instr} {s s' : State} (h : Noted s s') (rd : Reg) (r : Except EngineFault Word) :
    Ends i s (finish i rd r s') := by
  cases r with
  | ok w => exact ends_write h rd w
  | error e => exact ends_raise h e

theorem ends_finishWrapping {i : Instr} {s s' : State} (h : Noted s s') (rd : Reg) (ov : OverflowMode) (e : Int) :
    Ends i s (finishWrapping i rd ov e s') := by
  unfold finishWrapping
  split
  · exact ends_raise h _
  · exact ends_write h rd _

theorem ends_finishChecked {i : Instr} {s s' : State} (h : Noted s s') (rd : Reg) (ov : OverflowMode) (e : Int)
    (hi : isCheckedOp i = true) : Ends i s (finishChecked i rd ov e s') := by
  unfold finishChecked
  split
  · exact .fault s' .overflow true h (.inr ⟨hi, rfl, rfl⟩)
  · exact .word s' rd _ _ h (.inr hi)

theorem ends_readX {i : Instr} {s s' : State} {k : Word → State → Result} (h : Noted s s') (r : Reg)
    (hk : ∀ w s'', Noted s s'' → Ends i s (k w s'')) : Ends i s (readX r s' k) := hk _ _ (h.read r)

theorem ends_readX2 {i : Instr} {s s' : State} {k : Word → Word → State → Result} (h : Noted s s') (r1 r2 : Reg)
    (hk : ∀ w w' s'', Noted s s'' → Ends i s (k w w' s'')) : Ends i s (readX2 r1 r2 s' k) :=
  hk _ _ _ ((h.read r1).read r2)

theorem ends_withScale {i : Instr} {s s' : State} {k : Nat → Result} (h : Noted s s') (sc : ScaleField)
    (hk : sc.val ≤ 18 → Ends i s (k sc.val)) : Ends i s (withScale i sc s' k) := by
  unfold withScale
  split
  · exact ends_raise h _
  · exact hk (by omega)

theorem ends_withSecondScale {i : Instr} {s s' : State} {k : Nat → State → Result} (h : Noted s s') (rc : Reg)
    (hk : ∀ t s'', Noted s s'' → Ends i s (k t s'')) : Ends i s (withSecondScale i rc s' k) := by
  refine ends_readX h rc fun w s'' h'' => ?_
  split
  · exact ends_raise h'' _
  · exact hk _ _ h''

theorem ends_parse (rd : Reg) (rm : RoundingMode) (sc : ScaleField) (s : State) :
    Ends (.parse rd rm sc) s (execParse rd rm sc s) := by
  refine ends_withScale (.refl s) sc fun _ => ?_
  split
  · rename_i a ha
    obtain ⟨-, h2, h3, h4⟩ := memRead_error _ _ _ _ ha
    exact .stop rd rm sc a rfl (by simpa using h2) h3 fun b hb => h4 b (Nat.zero_le b) hb
  · split
    · exact ends_raise (.refl s) _
    · exact ends_finish (.refl s) _ _

theorem ends_format (r : Reg) (sc : ScaleField) (s : State) : Ends (.format r sc) s (execFormat r sc s) :=
  ends_withScale (.refl s) sc fun h => .text (s.noteRead r) r sc ((Noted.refl s).read r) rfl h

/-- Every command ends in one of the ways of `Ends`. -/
theorem exec_ends (i : Instr) (s : State) : Ends i s (exec i s) := by
  cases i
  case parse => exact ends_parse _ _ _ s
  case format => exact ends_format _ _ s
  all_goals
    simp only [exec, execAdd64, execSub64, execMul64, execDiv64, execNeg64, execAbs64, execUcmp64, execUdiv64, execWmuls,
      execWmulu, execDiv128, execRclass, execRinc, execSfact, execSnlz, execSmaxi, execSmini, execSmul, execSdiv,
      execSmod, execSmulhi, execSmullo, execDadd, execDsub, execDmul, execDmulu, execDdiv, execDdivu, execDsqr,
      execDsqrt, execDpow, execDavg, execDinv, execDshl, execDshr, execDround, execDcmp, execDcmpu, execTodbl,
      execToflt, execFromdbl, execFromflt, finishRounded]
    repeat' first
      | assumption
      | exact Noted.refl _
      | (refine ends_withScale ?_ _ fun _ => ?_)
      | (refine ends_withSecondScale ?_ _ fun _ _ _ => ?_)
      | (refine ends_readX2 ?_ _ _ fun _ _ _ _ => ?_)
      | (refine ends_readX ?_ _ fun _ _ _ => ?_)
      | refine ends_raise ?_ _
      | refine ends_finishChecked ?_ _ _ _ rfl
      | refine ends_finishWrapping ?_ _ _ _
      | refine ends_finish ?_ _ _
      | with_reducible refine ends_write ?_ _ _
      | refine .wide _ _ _ _ ?_
      | split

/-- No command takes or adds an input. -/
theorem exec_host {i : Instr} {s t : State} (h : exec i s = .next t) : t.host = s.host := by
  have he := exec_ends i s
  rw [h] at he
  cases he with
  | fault s' e v hs _ => rw [hs.eq]; rfl
  | word s' rd w v hs _ => rw [hs.eq]; rfl
  | wide s' rd rc w hs => rw [hs.eq]; rfl
  | text s' r sc hs _ _ => rw [hs.eq]

theorem writeWindow_host (g : Target) (w : Width) (d : Word) (s : State) : (writeWindow g w d s).host = s.host := by
  cases g <;> simp [writeWindow, writeRegBytes, writeStatus, writeCtrl, writeTlen]
  split <;> rfl

/-- A step takes the oldest input and leaves the others as they were (R37). -/
theorem step_host {s t : State} (h : performNext s = .next t) : t.host = s.host.tail := by
  unfold performNext at h
  split at h
  · rename_i hn; cases h; simp [hn]
  · rename_i a rest hr
    rw [hr]
    cases a with
    | read o w => obtain ⟨d, hd⟩ := readWindow_next _ _ _ _ h; rw [hd]; rfl
    | reset => cases h; rfl
    | write o w d =>
      simp only [perform] at h
      rcases performWrite_cases o w d { s with host := rest, readData := none } with ⟨-, he⟩ | ⟨-, he⟩
      · rw [he] at h
        rcases issueCommand_cases (d.setWidth 32) { s with host := rest, readData := none } with
          ⟨-, hi⟩ | ⟨k, -, -, hi⟩ | ⟨i, -, -, hi⟩
        · rw [hi] at h; cases h; rfl
        · rw [hi] at h; cases h; rfl
        · rw [hi] at h; exact exec_host h
      · rw [he] at h; cases h; rw [writeWindow_host]; rfl

end Sys2Proof.Machine
end

