-- ==== Sys2Proof/Laws/PerInstr.lean ====
section
/-! SUPPORT. The family EncodingFields, one lemma per command: the opcode of the command's word is the row that builds the
command from its fields, and every field that row does not use is 0 (`30_encoding.md` R50, R51). -/

namespace Sys2Proof.Laws.EncodingFields

/-- The command's row of the opcode map uses only fields the command sets, and builds the command from its fields. -/
def Statement (i : Instr) : Prop :=
  ∃ row, opcodeRow i.fields.op.toNat = some row ∧ i.fields.unusedZero row.use = true ∧ row.build i.fields = i

theorem add64 (rd rs1 rs2 : Reg) (ov : OverflowMode) : Statement (.add64 rd rs1 rs2 ov) :=
  ⟨_, rfl, rfl, by simp [Instr.fields, Fields.rdReg, Fields.rs1Reg, Fields.rs2Reg, Fields.ovMode]⟩

theorem sub64 (rd rs1 rs2 : Reg) (ov : OverflowMode) : Statement (.sub64 rd rs1 rs2 ov) :=
  ⟨_, rfl, rfl, by simp [Instr.fields, Fields.rdReg, Fields.rs1Reg, Fields.rs2Reg, Fields.ovMode]⟩

theorem mul64 (rd rs1 rs2 : Reg) (ov : OverflowMode) : Statement (.mul64 rd rs1 rs2 ov) :=
  ⟨_, rfl, rfl, by simp [Instr.fields, Fields.rdReg, Fields.rs1Reg, Fields.rs2Reg, Fields.ovMode]⟩

theorem div64 (rd rs1 rs2 : Reg) (ov : OverflowMode) : Statement (.div64 rd rs1 rs2 ov) :=
  ⟨_, rfl, rfl, by simp [Instr.fields, Fields.rdReg, Fields.rs1Reg, Fields.rs2Reg, Fields.ovMode]⟩

theorem neg64 (rd rs1 : Reg) (ov : OverflowMode) : Statement (.neg64 rd rs1 ov) :=
  ⟨_, rfl, rfl, by simp [Instr.fields, Fields.rdReg, Fields.rs1Reg, Fields.ovMode]⟩

theorem abs64 (rd rs1 : Reg) (ov : OverflowMode) : Statement (.abs64 rd rs1 ov) :=
  ⟨_, rfl, rfl, by simp [Instr.fields, Fields.rdReg, Fields.rs1Reg, Fields.ovMode]⟩

theorem ucmp64 (rd rs1 rs2 : Reg) : Statement (.ucmp64 rd rs1 rs2) :=
  ⟨_, rfl, rfl, by simp [Instr.fields, Fields.rdReg, Fields.rs1Reg, Fields.rs2Reg]⟩

theorem udiv64 (rd rs1 rs2 : Reg) : Statement (.udiv64 rd rs1 rs2) :=
  ⟨_, rfl, rfl, by simp [Instr.fields, Fields.rdReg, Fields.rs1Reg, Fields.rs2Reg]⟩

theorem wmuls (rd rs1 rs2 rc : Reg) : Statement (.wmuls rd rs1 rs2 rc) :=
  ⟨_, rfl, rfl, by simp [Instr.fields, Fields.rdReg, Fields.rs1Reg, Fields.rs2Reg, Fields.rcReg]⟩

theorem wmulu (rd rs1 rs2 rc : Reg) : Statement (.wmulu rd rs1 rs2 rc) :=
  ⟨_, rfl, rfl, by simp [Instr.fields, Fields.rdReg, Fields.rs1Reg, Fields.rs2Reg, Fields.rcReg]⟩

theorem div128 (rd rs1 rs2 rc : Reg) (rm : RoundingMode) (n : QuotientSign) : Statement (.div128 rd rs1 rs2 rc rm n) :=
  ⟨_, rfl, rfl, by simp [Instr.fields, Fields.rdReg, Fields.rs1Reg, Fields.rs2Reg, Fields.rcReg, Fields.rmMode, Fields.nSign]⟩

theorem rclass (rd rs1 rs2 : Reg) : Statement (.rclass rd rs1 rs2) :=
  ⟨_, rfl, rfl, by simp [Instr.fields, Fields.rdReg, Fields.rs1Reg, Fields.rs2Reg]⟩

theorem rinc (rd rs1 rs2 rc : Reg) (rm : RoundingMode) : Statement (.rinc rd rs1 rs2 rc rm) :=
  ⟨_, rfl, rfl, by simp [Instr.fields, Fields.rdReg, Fields.rs1Reg, Fields.rs2Reg, Fields.rcReg, Fields.rmMode]⟩

theorem sfact (rd : Reg) (sc : ScaleField) : Statement (.sfact rd sc) :=
  ⟨_, rfl, rfl, by simp [Instr.fields, Fields.rdReg, Fields.scField]⟩

theorem snlz (rd : Reg) (sc : ScaleField) : Statement (.snlz rd sc) :=
  ⟨_, rfl, rfl, by simp [Instr.fields, Fields.rdReg, Fields.scField]⟩

theorem smaxi (rd : Reg) (sc : ScaleField) : Statement (.smaxi rd sc) :=
  ⟨_, rfl, rfl, by simp [Instr.fields, Fields.rdReg, Fields.scField]⟩

theorem smini (rd : Reg) (sc : ScaleField) : Statement (.smini rd sc) :=
  ⟨_, rfl, rfl, by simp [Instr.fields, Fields.rdReg, Fields.scField]⟩

theorem smul (rd rs1 : Reg) (ov : OverflowMode) (sc : ScaleField) : Statement (.smul rd rs1 ov sc) :=
  ⟨_, rfl, rfl, by simp [Instr.fields, Fields.rdReg, Fields.rs1Reg, Fields.ovMode, Fields.scField]⟩

theorem sdiv (rd rs1 : Reg) (sc : ScaleField) : Statement (.sdiv rd rs1 sc) :=
  ⟨_, rfl, rfl, by simp [Instr.fields, Fields.rdReg, Fields.rs1Reg, Fields.scField]⟩

theorem smod (rd rs1 : Reg) (sc : ScaleField) : Statement (.smod rd rs1 sc) :=
  ⟨_, rfl, rfl, by simp [Instr.fields, Fields.rdReg, Fields.rs1Reg, Fields.scField]⟩

theorem smulhi (rd rs1 : Reg) (sc : ScaleField) : Statement (.smulhi rd rs1 sc) :=
  ⟨_, rfl, rfl, by simp [Instr.fields, Fields.rdReg, Fields.rs1Reg, Fields.scField]⟩

theorem smullo (rd rs1 : Reg) (sc : ScaleField) : Statement (.smullo rd rs1 sc) :=
  ⟨_, rfl, rfl, by simp [Instr.fields, Fields.rdReg, Fields.rs1Reg, Fields.scField]⟩

theorem dadd (rd rs1 rs2 : Reg) (rm : RoundingMode) (ov : OverflowMode) (sc : ScaleField) : Statement (.dadd rd rs1 rs2 rm ov sc) :=
  ⟨_, rfl, rfl, by simp [Instr.fields, Fields.rdReg, Fields.rs1Reg, Fields.rs2Reg, Fields.rmMode, Fields.ovMode, Fields.scField]⟩

theorem dsub (rd rs1 rs2 : Reg) (rm : RoundingMode) (ov : OverflowMode) (sc : ScaleField) : Statement (.dsub rd rs1 rs2 rm ov sc) :=
  ⟨_, rfl, rfl, by simp [Instr.fields, Fields.rdReg, Fields.rs1Reg, Fields.rs2Reg, Fields.rmMode, Fields.ovMode, Fields.scField]⟩

theorem dmul (rd rs1 rs2 : Reg) (rm : RoundingMode) (ov : OverflowMode) (sc : ScaleField) : Statement (.dmul rd rs1 rs2 rm ov sc) :=
  ⟨_, rfl, rfl, by simp [Instr.fields, Fields.rdReg, Fields.rs1Reg, Fields.rs2Reg, Fields.rmMode, Fields.ovMode, Fields.scField]⟩

theorem dmulu (rd rs1 rs2 rc : Reg) (rm : RoundingMode) (ov : OverflowMode) (sc : ScaleField) : Statement (.dmulu rd rs1 rs2 rc rm ov sc) :=
  ⟨_, rfl, rfl, by simp [Instr.fields, Fields.rdReg, Fields.rs1Reg, Fields.rs2Reg, Fields.rcReg, Fields.rmMode, Fields.ovMode, Fields.scField]⟩

theorem ddiv (rd rs1 rs2 : Reg) (rm : RoundingMode) (ov : OverflowMode) (sc : ScaleField) : Statement (.ddiv rd rs1 rs2 rm ov sc) :=
  ⟨_, rfl, rfl, by simp [Instr.fields, Fields.rdReg, Fields.rs1Reg, Fields.rs2Reg, Fields.rmMode, Fields.ovMode, Fields.scField]⟩

theorem ddivu (rd rs1 rs2 rc : Reg) (rm : RoundingMode) (ov : OverflowMode) (sc : ScaleField) : Statement (.ddivu rd rs1 rs2 rc rm ov sc) :=
  ⟨_, rfl, rfl, by simp [Instr.fields, Fields.rdReg, Fields.rs1Reg, Fields.rs2Reg, Fields.rcReg, Fields.rmMode, Fields.ovMode, Fields.scField]⟩

theorem dsqr (rd rs1 : Reg) (rm : RoundingMode) (ov : OverflowMode) (sc : ScaleField) : Statement (.dsqr rd rs1 rm ov sc) :=
  ⟨_, rfl, rfl, by simp [Instr.fields, Fields.rdReg, Fields.rs1Reg, Fields.rmMode, Fields.ovMode, Fields.scField]⟩

theorem dsqrt (rd rs1 : Reg) (rm : RoundingMode) (ov : OverflowMode) (sc : ScaleField) : Statement (.dsqrt rd rs1 rm ov sc) :=
  ⟨_, rfl, rfl, by simp [Instr.fields, Fields.rdReg, Fields.rs1Reg, Fields.rmMode, Fields.ovMode, Fields.scField]⟩

theorem dpow (rd rs1 rs2 : Reg) (rm : RoundingMode) (ov : OverflowMode) (sc : ScaleField) : Statement (.dpow rd rs1 rs2 rm ov sc) :=
  ⟨_, rfl, rfl, by simp [Instr.fields, Fields.rdReg, Fields.rs1Reg, Fields.rs2Reg, Fields.rmMode, Fields.ovMode, Fields.scField]⟩

theorem davg (rd rs1 rs2 : Reg) (rm : RoundingMode) (ov : OverflowMode) (sc : ScaleField) : Statement (.davg rd rs1 rs2 rm ov sc) :=
  ⟨_, rfl, rfl, by simp [Instr.fields, Fields.rdReg, Fields.rs1Reg, Fields.rs2Reg, Fields.rmMode, Fields.ovMode, Fields.scField]⟩

theorem dinv (rd rs1 : Reg) (rm : RoundingMode) (ov : OverflowMode) (sc : ScaleField) : Statement (.dinv rd rs1 rm ov sc) :=
  ⟨_, rfl, rfl, by simp [Instr.fields, Fields.rdReg, Fields.rs1Reg, Fields.rmMode, Fields.ovMode, Fields.scField]⟩

theorem dshl (rd rs1 rs2 : Reg) (rm : RoundingMode) (ov : OverflowMode) (sc : ScaleField) : Statement (.dshl rd rs1 rs2 rm ov sc) :=
  ⟨_, rfl, rfl, by simp [Instr.fields, Fields.rdReg, Fields.rs1Reg, Fields.rs2Reg, Fields.rmMode, Fields.ovMode, Fields.scField]⟩

theorem dshr (rd rs1 rs2 : Reg) (rm : RoundingMode) (ov : OverflowMode) (sc : ScaleField) : Statement (.dshr rd rs1 rs2 rm ov sc) :=
  ⟨_, rfl, rfl, by simp [Instr.fields, Fields.rdReg, Fields.rs1Reg, Fields.rs2Reg, Fields.rmMode, Fields.ovMode, Fields.scField]⟩

theorem dround (rd rs1 rs2 : Reg) (rm : RoundingMode) (ov : OverflowMode) (sc : ScaleField) : Statement (.dround rd rs1 rs2 rm ov sc) :=
  ⟨_, rfl, rfl, by simp [Instr.fields, Fields.rdReg, Fields.rs1Reg, Fields.rs2Reg, Fields.rmMode, Fields.ovMode, Fields.scField]⟩

theorem dcmp (rd rs1 rs2 : Reg) (rm : RoundingMode) (ov : OverflowMode) (sc : ScaleField) : Statement (.dcmp rd rs1 rs2 rm ov sc) :=
  ⟨_, rfl, rfl, by simp [Instr.fields, Fields.rdReg, Fields.rs1Reg, Fields.rs2Reg, Fields.rmMode, Fields.ovMode, Fields.scField]⟩

theorem dcmpu (rd rs1 rs2 rc : Reg) (rm : RoundingMode) (ov : OverflowMode) (sc : ScaleField) : Statement (.dcmpu rd rs1 rs2 rc rm ov sc) :=
  ⟨_, rfl, rfl, by simp [Instr.fields, Fields.rdReg, Fields.rs1Reg, Fields.rs2Reg, Fields.rcReg, Fields.rmMode, Fields.ovMode, Fields.scField]⟩

theorem todbl (rd rs1 : Reg) (rm : RoundingMode) (sc : ScaleField) : Statement (.todbl rd rs1 rm sc) :=
  ⟨_, rfl, rfl, by simp [Instr.fields, Fields.rdReg, Fields.rs1Reg, Fields.rmMode, Fields.scField]⟩

theorem toflt (rd rs1 : Reg) (rm : RoundingMode) (sc : ScaleField) : Statement (.toflt rd rs1 rm sc) :=
  ⟨_, rfl, rfl, by simp [Instr.fields, Fields.rdReg, Fields.rs1Reg, Fields.rmMode, Fields.scField]⟩

theorem fromdbl (rd rs1 : Reg) (rm : RoundingMode) (sc : ScaleField) : Statement (.fromdbl rd rs1 rm sc) :=
  ⟨_, rfl, rfl, by simp [Instr.fields, Fields.rdReg, Fields.rs1Reg, Fields.rmMode, Fields.scField]⟩

theorem fromflt (rd rs1 : Reg) (rm : RoundingMode) (sc : ScaleField) : Statement (.fromflt rd rs1 rm sc) :=
  ⟨_, rfl, rfl, by simp [Instr.fields, Fields.rdReg, Fields.rs1Reg, Fields.rmMode, Fields.scField]⟩

theorem parse (rd : Reg) (rm : RoundingMode) (sc : ScaleField) : Statement (.parse rd rm sc) :=
  ⟨_, rfl, rfl, by simp [Instr.fields, Fields.rdReg, Fields.rmMode, Fields.scField]⟩

theorem format (rs1 : Reg) (sc : ScaleField) : Statement (.format rs1 sc) :=
  ⟨_, rfl, rfl, by simp [Instr.fields, Fields.rs1Reg, Fields.scField]⟩

end Sys2Proof.Laws.EncodingFields
end

