-- ==== Sys2Proof/Tests/Slice0.lean ====
section
/-! SUPPORT. Small checks of the model: ill-formed terms, decoding, one step per instruction, and for each statement with
hypotheses a concrete state and operands that meet them. Expected results are from `95_test_vectors.md` or a rule's corner
cases. -/

open Sys2Proof Sys2Proof.Machine

namespace Sys2Proof.Tests

/-! ### Helpers -/

/-- X1, X2, … hold the given words, from reset. -/
def holdingFrom : Nat → List Word → State → State
  | _, [], s => s
  | k, w :: ws, s => holdingFrom (k + 1) ws (s.writeReg (Fin.ofNat 16 k) w)

/-- X1, X2, … hold the given words, and the rest is as after reset. -/
def holding (ws : List Word) : State := holdingFrom 1 ws State.reset

/-- TBUF and TLEN hold the given text, and the rest is as after reset. -/
def holdingText (t : List Byte) : State :=
  { State.reset with tbuf := memWrite [] 0 t, tlen := BitVec.ofNat 32 t.length }

/-- The state after reset with the given inputs to come. -/
def facing (l : List HostInput) : State := { State.reset with host := l }

/-- A state in which DDIV by zero has faulted (95_test_vectors.md section 3.3), with the given inputs to come. -/
def faulted (l : List HostInput) : State :=
  { State.reset with
    status := { fault := true, miss := true, v := false, err := 2, sub := 6 }
    fcmd := 0x90C48244
    host := l }

/-- What a command did: a word in its destination and V, or a fault's code and subcode and V. -/
inductive Saw where
  | word (w : Word) (v : Bool)
  | fault (err sub : Nat) (v : Bool)
  | stopped
  deriving DecidableEq, Repr

/-- What is seen after a command whose destination is `rd`. -/
def saw (rd : Reg) : Result → Saw
  | .next t => if t.status.fault then .fault t.status.err.toNat t.status.sub.toNat t.status.v else .word (t.reg rd) t.status.v
  | .fault _ => .stopped
  | .refused _ => .stopped

/-- The bytes of TBUF below TLEN after a command, all written. -/
def written : Result → List Byte
  | .next t => match memRead t.tbuf 0 t.tlen.toNat with | .ok bs => bs | .error _ => []
  | .fault _ => []
  | .refused _ => []

/-- What a step answers, where it answers a state. -/
def after : Result → Option State
  | .next t => some t
  | .fault _ => none
  | .refused _ => none

/-! ### Ill-formed instructions -/

/-- R52: WMULS into one register twice. -/
theorem test_wellFormed_refuses_wmuls : (Instr.wmuls 4 1 2 4).wellFormed = false := by decide
/-- R52: WMULU into one register twice. -/
theorem test_wellFormed_refuses_wmulu : (Instr.wmulu 0 9 8 0).wellFormed = false := by decide

/-! ### Decoding: words written out bit by bit from R51's patterns, for every opcode -/

theorem test_decode_checked_ops :
    decode 0b000001_1001_0110_0011_0000_000_1_00000_0 = .ok (.add64 9 6 3 .checked) ∧
    decode 0b000010_1001_0110_0011_0000_000_1_00000_0 = .ok (.sub64 9 6 3 .checked) ∧
    decode 0b000011_1001_0110_0011_0000_000_1_00000_0 = .ok (.mul64 9 6 3 .checked) ∧
    decode 0b000100_1001_0110_0011_0000_000_1_00000_0 = .ok (.div64 9 6 3 .checked) ∧
    decode 0b000101_1001_0110_0000_0000_000_1_00000_0 = .ok (.neg64 9 6 .checked) ∧
    decode 0b000110_1001_0110_0000_0000_000_1_00000_0 = .ok (.abs64 9 6 .checked) := by decide

theorem test_decode_unsigned64 :
    decode 0b000111_1001_0110_0011_0000_000_0_00000_0 = .ok (.ucmp64 9 6 3) ∧
    decode 0b001000_1001_0110_0011_0000_000_0_00000_0 = .ok (.udiv64 9 6 3) := by decide

theorem test_decode_wide128 :
    decode 0b001001_1001_0110_0011_1100_000_0_00000_0 = .ok (.wmuls 9 6 3 12) ∧
    decode 0b001010_1001_0110_0011_1100_000_0_00000_0 = .ok (.wmulu 9 6 3 12) ∧
    decode 0b001011_1001_0110_0011_1100_011_0_00000_1 = .ok (.div128 9 6 3 12 .floor .neg) := by decide

theorem test_decode_rounding :
    decode 0b001100_1001_0110_0011_0000_000_0_00000_0 = .ok (.rclass 9 6 3) ∧
    decode 0b001101_1001_0110_0011_1100_101_0_00000_0 = .ok (.rinc 9 6 3 12 .halfDown) := by decide

theorem test_decode_scale_metrics :
    decode 0b010000_1001_0000_0000_0000_000_0_11110_0 = .ok (.sfact 9 30) ∧
    decode 0b010001_1001_0000_0000_0000_000_0_01100_0 = .ok (.snlz 9 12) ∧
    decode 0b010010_1001_0000_0000_0000_000_0_10010_0 = .ok (.smaxi 9 18) ∧
    decode 0b010011_1001_0000_0000_0000_000_0_00101_0 = .ok (.smini 9 5) ∧
    decode 0b010100_1001_0110_0000_0000_000_1_01001_0 = .ok (.smul 9 6 .checked 9) ∧
    decode 0b010101_1001_0110_0000_0000_000_0_11110_0 = .ok (.sdiv 9 6 30) ∧
    decode 0b010110_1001_0110_0000_0000_000_0_01100_0 = .ok (.smod 9 6 12) ∧
    decode 0b010111_1001_0110_0000_0000_000_0_10010_0 = .ok (.smulhi 9 6 18) ∧
    decode 0b011000_1001_0110_0000_0000_000_0_00101_0 = .ok (.smullo 9 6 5) := by decide

theorem test_decode_decimal_arithmetic :
    decode 0b100000_1001_0110_0011_0000_000_1_01001_0 = .ok (.dadd 9 6 3 .up .checked 9) ∧
    decode 0b100001_1001_0110_0011_0000_111_1_11110_0 = .ok (.dsub 9 6 3 .unnecessary .checked 30) ∧
    decode 0b100010_1001_0110_0011_0000_110_1_01100_0 = .ok (.dmul 9 6 3 .halfEven .checked 12) ∧
    decode 0b100011_1001_0110_0011_1100_001_1_10010_0 = .ok (.dmulu 9 6 3 12 .down .checked 18) ∧
    decode 0b100100_1001_0110_0011_0000_011_1_00101_0 = .ok (.ddiv 9 6 3 .floor .checked 5) ∧
    decode 0b100101_1001_0110_0011_1100_100_1_01001_0 = .ok (.ddivu 9 6 3 12 .halfUp .checked 9) ∧
    decode 0b100110_1001_0110_0000_0000_101_1_11110_0 = .ok (.dsqr 9 6 .halfDown .checked 30) ∧
    decode 0b100111_1001_0110_0000_0000_010_1_01100_0 = .ok (.dsqrt 9 6 .ceiling .checked 12) ∧
    decode 0b101000_1001_0110_0011_0000_000_1_10010_0 = .ok (.dpow 9 6 3 .up .checked 18) ∧
    decode 0b101001_1001_0110_0011_0000_111_1_00101_0 = .ok (.davg 9 6 3 .unnecessary .checked 5) ∧
    decode 0b101010_1001_0110_0000_0000_110_1_01001_0 = .ok (.dinv 9 6 .halfEven .checked 9) := by decide

theorem test_decode_shift_round_compare :
    decode 0b101011_1001_0110_0011_0000_001_1_11110_0 = .ok (.dshl 9 6 3 .down .checked 30) ∧
    decode 0b101100_1001_0110_0011_0000_011_1_01100_0 = .ok (.dshr 9 6 3 .floor .checked 12) ∧
    decode 0b101101_1001_0110_0011_0000_100_1_10010_0 = .ok (.dround 9 6 3 .halfUp .checked 18) ∧
    decode 0b101110_1001_0110_0011_0000_101_1_00101_0 = .ok (.dcmp 9 6 3 .halfDown .checked 5) ∧
    decode 0b101111_1001_0110_0011_1100_010_1_01001_0 = .ok (.dcmpu 9 6 3 12 .ceiling .checked 9) := by decide

theorem test_decode_binary_conversion :
    decode 0b110000_1001_0110_0000_0000_000_0_11110_0 = .ok (.todbl 9 6 .up 30) ∧
    decode 0b110001_1001_0110_0000_0000_111_0_01100_0 = .ok (.toflt 9 6 .unnecessary 12) ∧
    decode 0b110010_1001_0110_0000_0000_110_0_10010_0 = .ok (.fromdbl 9 6 .halfEven 18) ∧
    decode 0b110011_1001_0110_0000_0000_001_0_00101_0 = .ok (.fromflt 9 6 .down 5) := by decide

theorem test_decode_text :
    decode 0b110100_1001_0000_0000_0000_011_0_01001_0 = .ok (.parse 9 .floor 9) ∧
    decode 0b110101_0000_0110_0000_0000_000_0_11110_0 = .ok (.format 6 30) := by decide

/-- R51: the mask and the match of every row, as printed. -/
theorem test_masks : ∀ row ∈ opcodeMap,
    (opcodeRow row.1).map (fun r => r.use.mask) = some row.2.2 ∧ row.2.1 = BitVec.ofNat 32 (row.1 * 2 ^ 26) := by decide

/-- 95_test_vectors.md section 2.2. -/
theorem test_decode_refuses :
    decode 0x38000000 = .error .unassignedOpcode ∧ decode 0xFFFFFFFF = .error .unassignedOpcode ∧
    decode 0x2CC49240 = .error .reservedField ∧ decode 0x28C48C80 = .error .reservedField ∧
    decode 0xD4600004 = .error .reservedField ∧ decode 0x24260000 = .error .destConflict := by decide

/-- A word placed for the next step is fetched and run. -/
theorem test_placed_word_runs :
    saw 3 (step ((holding [5, 7]).withFetchWord 32 0x04C48040)) = .word 12 false := by decide

/-! ### One step per instruction -/

theorem test_add64_wraps_and_sets_v : saw 3 (exec (.add64 3 1 2 .unchecked) (holding [0x7FFFFFFFFFFFFFFF, 1])) = .word 0x8000000000000000 true := by decide
theorem test_add64_checked_overflow : saw 3 (exec (.add64 3 1 2 .checked) (holding [0x8000000000000000, 0xFFFFFFFFFFFFFFFF])) = .fault 3 0 true := by decide
theorem test_sub64_zero_minus_min : saw 3 (exec (.sub64 3 1 2 .unchecked) (holding [0, 0x8000000000000000])) = .word 0x8000000000000000 true := by decide
theorem test_sub64_in_range : saw 3 (exec (.sub64 3 1 2 .checked) (holding [5, 7])) = .word 0xFFFFFFFFFFFFFFFE false := by decide
theorem test_mul64_reaches_min : saw 3 (exec (.mul64 3 1 2 .checked) (holding [0xFFFFFFFF00000000, 0x80000000])) = .word 0x8000000000000000 false := by decide
theorem test_mul64_wraps : saw 3 (exec (.mul64 3 1 2 .unchecked) (holding [0xB504F334, 0xB504F334])) = .word 0x8000000008ABC290 true := by decide
theorem test_div64_truncates : saw 3 (exec (.div64 3 1 2 .checked) (holding [0xFFFFFFFFFFFFFFF9, 2])) = .word 0xFFFFFFFFFFFFFFFD false := by decide
theorem test_div64_by_zero : saw 3 (exec (.div64 3 1 2 .unchecked) (holding [5, 0])) = .fault 2 6 false := by decide
theorem test_neg64_of_min : saw 3 (exec (.neg64 3 1 .unchecked) (holding [0x8000000000000000])) = .word 0x8000000000000000 true := by decide
theorem test_neg64_of_max : saw 3 (exec (.neg64 3 1 .checked) (holding [0x7FFFFFFFFFFFFFFF])) = .word 0x8000000000000001 false := by decide
theorem test_abs64_of_min : saw 3 (exec (.abs64 3 1 .checked) (holding [0x8000000000000000])) = .fault 3 0 true := by decide
theorem test_abs64_negative : saw 3 (exec (.abs64 3 1 .checked) (holding [0xFFFFFFFFFFFFFFFB])) = .word 5 false := by decide
theorem test_ucmp64_sign_bit_is_large : saw 3 (exec (.ucmp64 3 1 2) (holding [0x8000000000000000, 0x7FFFFFFFFFFFFFFF])) = .word 1 false := by decide
theorem test_ucmp64_less : saw 3 (exec (.ucmp64 3 1 2) (holding [1, 0xFFFFFFFFFFFFFFFF])) = .word 0xFFFFFFFFFFFFFFFF false := by decide
theorem test_udiv64_unsigned : saw 3 (exec (.udiv64 3 1 2) (holding [0x8000000000000000, 3])) = .word 0x2AAAAAAAAAAAAAAA false := by decide
theorem test_udiv64_by_zero : saw 3 (exec (.udiv64 3 1 2) (holding [5, 0])) = .fault 2 6 false := by decide
theorem test_div128_negative_floor : saw 5 (exec (.div128 5 1 2 3 .floor .neg) (holding [0, 100, 3])) = .word 0xFFFFFFFFFFFFFFDE false := by decide
theorem test_div128_rounded_up_overflows : saw 5 (exec (.div128 5 1 2 3 .up .pos) (holding [0, 0xFFFFFFFFFFFFFFFF, 2])) = .fault 3 0 false := by decide
theorem test_rclass_min_by_min : saw 3 (exec (.rclass 3 1 2) (holding [0x8000000000000000, 0x8000000000000000])) = .word 3 false := by decide
theorem test_rclass_half_ignores_signs : saw 3 (exec (.rclass 3 1 2) (holding [0xFFFFFFFFFFFFFFFB, 0xFFFFFFFFFFFFFFF6])) = .word 2 false := by decide
theorem test_rinc_half_even_negative_odd : saw 5 (exec (.rinc 5 1 2 3 .halfEven) (holding [0xFFFFFFFFFFFFFFF9, 3, 2])) = .word 0xFFFFFFFFFFFFFFFF false := by decide
theorem test_rinc_part_code : saw 5 (exec (.rinc 5 1 2 3 .up) (holding [5, 0, 4])) = .fault 2 5 false := by decide
theorem test_sfact_top : saw 3 (exec (.sfact 3 18) (holding [])) = .word 0x0DE0B6B3A7640000 false := by decide
theorem test_sfact_scale_19 : saw 3 (exec (.sfact 3 19) (holding [])) = .fault 2 1 false := by decide
theorem test_snlz_s3 : saw 3 (exec (.snlz 3 3) (holding [])) = .word 54 false := by decide
theorem test_smaxi_s1 : saw 3 (exec (.smaxi 3 1) (holding [])) = .word 0x0CCCCCCCCCCCCCCC false := by decide
theorem test_smini_s1 : saw 3 (exec (.smini 3 1) (holding [])) = .word 0xF333333333333334 false := by decide
theorem test_smul_wraps : saw 3 (exec (.smul 3 1 .unchecked 1) (holding [0xDE0B6B3A7640000])) = .word 0x8AC7230489E80000 false := by decide
theorem test_smul_checked_overflow : saw 3 (exec (.smul 3 1 .checked 1) (holding [0xDE0B6B3A7640000])) = .fault 3 0 false := by decide
theorem test_sdiv_truncates : saw 3 (exec (.sdiv 3 1 2) (holding [0xFFFFFFFFFFFFCFC7])) = .word 0xFFFFFFFFFFFFFF85 false := by decide
theorem test_smod_sign_of_operand : saw 3 (exec (.smod 3 1 18) (holding [0x8000000000000000])) = .word 0xFCE66C50E2840000 false := by decide
theorem test_smulhi_drops_above_64 : saw 3 (exec (.smulhi 3 1 18) (holding [0xFFFFFFFF])) = .word 0x9983494C false := by decide
theorem test_smulhi_ignores_high_half : saw 3 (exec (.smulhi 3 1 2) (holding [0xFFFFFFFF00000005])) = .word 0 false := by decide
theorem test_smullo : saw 3 (exec (.smullo 3 1 9) (holding [0x075BCD15])) = .word 0xA5749200 false := by decide
theorem test_dadd_wraps_and_leaves_v : saw 3 (exec (.dadd 3 1 2 .down .unchecked 2) (holding [0x7FFFFFFFFFFFFFFF, 1])) = .word 0x8000000000000000 false := by decide
theorem test_dadd_scale_checked : saw 3 (exec (.dadd 3 1 2 .down .unchecked 19) (holding [1, 1])) = .fault 2 1 false := by decide
theorem test_dsub : saw 3 (exec (.dsub 3 1 2 .up .checked 2) (holding [150, 250])) = .word 0xFFFFFFFFFFFFFF9C false := by decide
theorem test_dsub_checked_overflow : saw 3 (exec (.dsub 3 1 2 .down .checked 0) (holding [0x8000000000000000, 1])) = .fault 3 0 false := by decide
theorem test_dmul_floor_negative : saw 3 (exec (.dmul 3 1 2 .floor .checked 2) (holding [0xFFFFFFFFFFFFFF83, 1])) = .word 0xFFFFFFFFFFFFFFFE false := by decide
theorem test_dmul_unnecessary : saw 3 (exec (.dmul 3 1 2 .unnecessary .checked 1) (holding [3, 3])) = .fault 4 0 false := by decide
theorem test_dmulu_scale_from_rc : saw 5 (exec (.dmulu 5 1 2 3 .halfUp .checked 2) (holding [1999, 825, 4])) = .word 165 false := by decide
theorem test_dmulu_negative_scale : saw 5 (exec (.dmulu 5 1 2 3 .halfUp .checked 2) (holding [150, 3, 0xFFFFFFFFFFFFFFFF])) = .fault 2 2 false := by decide
theorem test_ddiv_up_negative : saw 3 (exec (.ddiv 3 1 2 .up .checked 2) (holding [0xFFFFFFFFFFFFFF38, 300])) = .word 0xFFFFFFFFFFFFFFBD false := by decide
theorem test_ddiv_min_by_minus_one : saw 3 (exec (.ddiv 3 1 2 .down .checked 2) (holding [0x8000000000000000, 0xFFFFFFFFFFFFFF9C])) = .fault 3 0 false := by decide
theorem test_ddivu_integer_divisor : saw 5 (exec (.ddivu 5 1 2 3 .up .checked 2) (holding [100, 3, 0])) = .word 34 false := by decide
theorem test_ddivu_scale_before_zero : saw 5 (exec (.ddivu 5 1 2 3 .up .checked 2) (holding [100, 0, 20])) = .fault 2 2 false := by decide
theorem test_dsqr_half_even : saw 3 (exec (.dsqr 3 1 .halfEven .checked 1) (holding [0xFFFFFFFFFFFFFFF1])) = .word 22 false := by decide
theorem test_dsqr_overflow : saw 3 (exec (.dsqr 3 1 .down .checked 0) (holding [0xB504F334])) = .fault 3 0 false := by decide
theorem test_dsqrt_top : saw 3 (exec (.dsqrt 3 1 .up .checked 18) (holding [0x7FFFFFFFFFFFFFFF])) = .word 0x2A2597DD2FC1941D false := by decide +kernel
theorem test_dsqrt_negative : saw 3 (exec (.dsqrt 3 1 .down .checked 2) (holding [0xFFFFFFFFFFFFFFFF])) = .fault 2 7 false := by decide
theorem test_dpow_minus_one_odd : saw 3 (exec (.dpow 3 1 2 .up .checked 2) (holding [0xFFFFFFFFFFFFFF9C, 3])) = .word 0xFFFFFFFFFFFFFF9C false := by decide
theorem test_dpow_exponent_range : saw 3 (exec (.dpow 3 1 2 .down .checked 0) (holding [2, 0x3B9ACA00])) = .fault 2 3 false := by decide
theorem test_davg_half_up_negative : saw 3 (exec (.davg 3 1 2 .halfUp .checked 0) (holding [0xFFFFFFFFFFFFFFFF, 0xFFFFFFFFFFFFFFFE])) = .word 0xFFFFFFFFFFFFFFFE false := by decide
theorem test_davg_max_min : saw 3 (exec (.davg 3 1 2 .floor .checked 0) (holding [0x7FFFFFFFFFFFFFFF, 0x8000000000000000])) = .word 0xFFFFFFFFFFFFFFFF false := by decide
theorem test_dinv_up : saw 3 (exec (.dinv 3 1 .up .checked 2) (holding [300])) = .word 34 false := by decide
theorem test_dinv_overflow : saw 3 (exec (.dinv 3 1 .down .checked 18) (holding [1])) = .fault 3 0 false := by decide
theorem test_dshl_far_right_up : saw 3 (exec (.dshl 3 1 2 .up .checked 0) (holding [5, 0xFFFFFFFFFFFFFC18])) = .word 1 false := by decide
theorem test_dshl_by_64_overflows : saw 3 (exec (.dshl 3 1 2 .down .checked 0) (holding [1, 64])) = .fault 3 0 false := by decide
theorem test_dshr_tie_away : saw 3 (exec (.dshr 3 1 2 .halfUp .checked 0) (holding [0x8000000000000000, 64])) = .word 0xFFFFFFFFFFFFFFFF false := by decide
theorem test_dshr_negative_count : saw 3 (exec (.dshr 3 1 2 .down .checked 0) (holding [3, 0xFFFFFFFFFFFFFFFE])) = .word 12 false := by decide
theorem test_dround_ties_to_even : saw 3 (exec (.dround 3 1 2 .halfEven .checked 3) (holding [0x3039, 2])) = .word 0x3034 false := by decide
theorem test_dround_precision_range : saw 3 (exec (.dround 3 1 2 .up .checked 18) (holding [5, 0xFFFFFFFFFFFFFFFF])) = .fault 2 4 false := by decide
theorem test_dcmp_min_max : saw 3 (exec (.dcmp 3 1 2 .unnecessary .checked 2) (holding [0x8000000000000000, 0x7FFFFFFFFFFFFFFF])) = .word 0xFFFFFFFFFFFFFFFF false := by decide
theorem test_dcmp_scale_range : saw 3 (exec (.dcmp 3 1 2 .up .unchecked 19) (holding [1, 2])) = .fault 2 1 false := by decide
theorem test_dcmpu_other_scale : saw 5 (exec (.dcmpu 5 1 2 3 .up .unchecked 0) (holding [0x7FFFFFFFFFFFFFFF, 0x7FFFFFFFFFFFFFFF, 18])) = .word 1 false := by decide
theorem test_dcmpu_equal : saw 5 (exec (.dcmpu 5 1 2 3 .up .unchecked 2) (holding [150, 15, 1])) = .word 0 false := by decide
theorem test_todbl_tie_away : saw 3 (exec (.todbl 3 1 .halfUp 0) (holding [0x20000000000001])) = .word 0x4340000000000001 false := by decide
theorem test_todbl_smallest : saw 3 (exec (.todbl 3 1 .down 18) (holding [1])) = .word 0x3C32725DD1D243AB false := by decide
theorem test_toflt_high_half_zero : saw 3 (exec (.toflt 3 1 .unnecessary 2) (holding [0xFFFFFFFFFFFFFF6A])) = .word 0xBFC00000 false := by decide
theorem test_toflt_tie_to_even : saw 3 (exec (.toflt 3 1 .halfEven 0) (holding [0x1000003])) = .word 0x4B800002 false := by decide
theorem test_fromdbl_subnormal_floor : saw 3 (exec (.fromdbl 3 1 .floor 18) (holding [0x8000000000000001])) = .word 0xFFFFFFFFFFFFFFFF false := by decide +kernel
theorem test_fromdbl_nan : saw 3 (exec (.fromdbl 3 1 .down 0) (holding [0xFFF8000000000000])) = .fault 2 8 false := by decide
theorem test_fromflt_ignores_high_half : saw 3 (exec (.fromflt 3 1 .halfEven 2) (holding [0xFFFFFFFF3DCCCCCD])) = .word 10 false := by decide
theorem test_fromflt_overflow : saw 3 (exec (.fromflt 3 1 .down 0) (holding [0x7F7FFFFF])) = .fault 3 0 false := by decide
theorem test_wmuls_min_by_minus_one :
    saw 4 (exec (.wmuls 4 1 2 5) (holding [0x8000000000000000, 0xFFFFFFFFFFFFFFFF])) = .word 0 false ∧
      saw 5 (exec (.wmuls 4 1 2 5) (holding [0x8000000000000000, 0xFFFFFFFFFFFFFFFF])) = .word 0x8000000000000000 false := by
  decide
theorem test_wmulu_into_its_sources :
    saw 1 (exec (.wmulu 1 1 2 2) (holding [0xFFFFFFFFFFFFFFFF, 0xFFFFFFFFFFFFFFFF])) = .word 0xFFFFFFFFFFFFFFFE false ∧
      saw 2 (exec (.wmulu 1 1 2 2) (holding [0xFFFFFFFFFFFFFFFF, 0xFFFFFFFFFFFFFFFF])) = .word 1 false := by decide
/-- `1.515` at s2. -/
theorem test_parse_ties_to_even : saw 3 (exec (.parse 3 .halfEven 2) (holdingText [49, 46, 53, 49, 53])) = .word 152 false := by decide
/-- `5.` is no literal. -/
theorem test_parse_needs_a_fraction_digit : saw 3 (exec (.parse 3 .down 1) (holdingText [53, 46])) = .fault 2 9 false := by decide
/-- `-0.005`. -/
theorem test_format_pads : written (exec (.format 1 3) (holding [0xFFFFFFFFFFFFFFFB])) = [45, 48, 46, 48, 48, 53] := by decide
/-- `-9.223372036854775808`. -/
theorem test_format_min : written (exec (.format 1 18) (holding [0x8000000000000000])) =
    [45, 57, 46, 50, 50, 51, 51, 55, 50, 48, 51, 54, 56, 53, 52, 55, 55, 53, 56, 48, 56] := by decide

/-! ### The hypotheses of the statements are met

One theorem for each statement that has hypotheses, and in it one conjunct for each of its clauses. -/

/-- An inexact ratio is no integer. -/
theorem ratio_not_int (n d : Int) (hd : d ≠ 0) (h : ¬ d ∣ n) : ¬ ∃ r : Int, (r : ℚ) = (n : ℚ) / d := by
  rintro ⟨r, hr⟩
  rw [eq_div_iff (by exact_mod_cast hd)] at hr
  exact h ⟨r, by rw [mul_comm]; exact_mod_cast hr.symm⟩

theorem witness_EncodeThenDecodeGivesTheCommand :
    (Instr.dmulu 15 15 15 15 .unnecessary .checked 31).wellFormed = true ∧ (Instr.wmuls 0 0 15 15).wellFormed = true := by
  decide

theorem witness_DecodeFollowsTheOpcodeMap :
    (∀ row ∈ opcodeMap, row.1 ≠ (0xD8000000 : CommandWord).toNat / 2 ^ 26) ∧
    ((0x34, 0xD0000000, 0xFC3FFC41) ∈ opcodeMap ∧ 0x34 = (0xD0540004 : CommandWord).toNat / 2 ^ 26 ∧
      (0xD0540004 : CommandWord) &&& 0xFC3FFC41 ≠ 0xD0000000) ∧
    ((0x0A, 0x28000000, 0xFC0003FF) ∈ opcodeMap ∧ 0x0A = (0x28C48C00 : CommandWord).toNat / 2 ^ 26 ∧
      (0x28C48C00 : CommandWord) &&& 0xFC0003FF = 0x28000000 ∧
      (0x28C48C00 : CommandWord).extractLsb' 22 4 = (0x28C48C00 : CommandWord).extractLsb' 10 4) ∧
    ((0x35, 0xD4000000, 0xFFC3FFC1) ∈ opcodeMap ∧ 0x35 = (0xD4040004 : CommandWord).toNat / 2 ^ 26 ∧
      (0xD4040004 : CommandWord) &&& 0xFFC3FFC1 = 0xD4000000) := by decide

theorem witness_StepExecutesTheDecodedCommand :
    (facing [.write 0x80 .four 0x04C48040]).host = [.write 0x80 .four 0x04C48040] ∧
    (facing [.write 0x80 .four 0x04C48040]).status.fault = false ∧
    decode ((0x04C48040 : Word).setWidth 32) = .ok (.add64 3 1 2 .checked) := by decide

theorem witness_IllegalWordIsRecorded :
    (facing [.write 0x80 .four 0]).host = [.write 0x80 .four 0] ∧ (facing [.write 0x80 .four 0]).status.fault = false ∧
    decode ((0 : Word).setWidth 32) = .error .unassignedOpcode ∧
    decode ((0x04C48041 : Word).setWidth 32) = .error .reservedField ∧
    decode ((0x24260000 : Word).setWidth 32) = .error .destConflict := by decide

theorem witness_FaultedEngineDropsCommands :
    (faulted [.write 0x80 .four 0x04C48040]).host = [.write 0x80 .four 0x04C48040] ∧
    (faulted [.write 0x80 .four 0x04C48040]).status.fault = true := by decide

/-- A dropped command, a write of X1 and one of TBUF: X0 and X2 are not addressed. -/
theorem witness_FaultRecordIsNeverOverwritten :
    ∃ s t : State, s.status.fault = true ∧ (∀ w d, .write 0x84 w d ∉ s.host) ∧ .reset ∉ s.host ∧
      Sys2Proof.core.run 3 s = .next t ∧ t.reg 1 = 7 ∧
      (∀ o w d, .write o w d ∈ s.host → o.toNat / 8 ≠ (0 : Reg).val ∧ o.toNat / 8 ≠ (2 : Reg).val) := by
  refine ⟨faulted [.write 0x80 .four 0x04C48040, .write 0x08 .eight 7, .write 0xC0 .one 0x2D], _, rfl, ?_, ?_, rfl,
    by decide, ?_⟩
  · intro w d; simp [faulted]
  · simp [faulted]
  · intro o w d h
    simp only [faulted, List.mem_cons, HostInput.write.injEq, List.not_mem_nil, or_false] at h
    rcases h with ⟨rfl, -, -⟩ | ⟨rfl, -, -⟩ | ⟨rfl, -, -⟩ <;> decide

/-- M25 and M23 of section 3.3: the effect of a write of STATUS. -/
theorem witness_StatusWriteClears :
    (faulted [.write 0x84 .four 1]).host = [.write 0x84 .four 1] ∧
    (after (step (faulted [.write 0x84 .four 1]))).map (·.status.word) = some 2 ∧
    (after (step (faulted [.write 0x84 .four 2]))).map (·.status.word) = some 0x00006201 := by decide

theorem witness_StatusReadsByItsLayout :
    (faulted [.read 0x84 .four]).host = [.read 0x84 .four] ∧
    (after (step (faulted [.read 0x84 .four]))).map (·.readData) = some (some 0x00006203) := by decide

theorem witness_CtrlHoldsTheInterruptEnable :
    (facing [.read 0x8C .four]).host = [.read 0x8C .four] ∧
    (facing [.write 0x8C .four 0xFFFFFFFF]).host = [.write 0x8C .four 0xFFFFFFFF] ∧
    (after (step (facing [.write 0x8C .four 0xFFFFFFFF]))).map (·.ctrl.word) = some 1 ∧
    (after (exec (.sfact 0 0) State.reset)).isSome = true := by decide

theorem witness_FcmdHoldsTheLastFaultingWord :
    (facing [.read 0x88 .four]).host = [.read 0x88 .four] ∧
    (facing [.write 0x88 .four 7]).host = [.write 0x88 .four 7] ∧
    (after (step (faulted [.write 0x84 .four 1]))).isSome = true ∧
    (after (step (facing [.write 0x80 .four 0x38000000]))).map (·.fcmd) = some 0x38000000 := by decide

theorem witness_TlenHoldsALegalLength :
    (facing [.read 0x90 .four]).host = [.read 0x90 .four] ∧
    (after (step (facing [.write 0x90 .four 64]))).map (·.tlen) = some 64 ∧
    (after (step (facing [.write 0x90 .four 65]))).map (·.tlen) = some 0 ∧
    (after (exec (.sfact 0 0) State.reset)).isSome = true ∧
    (after (exec (.format 1 18) (holding [1]))).map (·.status.fault) = some false := by decide

theorem witness_HostReadsHaveNoEffect :
    (faulted [.read 0x84 .four]).host = [.read 0x84 .four] ∧ (after (step (faulted [.read 0x84 .four]))).isSome = true := by
  decide

theorem witness_AccessesNotAcceptedDoNothing :
    (0x0A : BitVec 8).toNat % Width.four.bytes ≠ 0 ∧
    (0x80 ≤ (0x80 : BitVec 8).toNat ∧ (0x80 : BitVec 8).toNat < 0x94 ∧ Width.eight ≠ .four) ∧
    (0x94 ≤ (0xBF : BitVec 8).toNat ∧ (0xBF : BitVec 8).toNat < 0xC0) ∧
    (facing [.read 0x94 .four]).host = [.read 0x94 .four] ∧
    (facing [.write 0xBF .one 1]).host = [.write 0xBF .one 1] := by decide

theorem witness_CmdReadsZero : (facing [.read 0x80 .four]).host = [.read 0x80 .four] := by decide

/-- M3, M4 and M5 of section 3.1: byte 7, bytes 4 to 7 and bytes 2 to 3 of X1; and X15 whole. -/
theorem witness_RegisterWindowIsLittleEndian :
    (7 + Width.one.bytes ≤ 8 ∧ 6 + Width.two.bytes ≤ 8 ∧ 6 % Width.two.bytes = 0 ∧ 4 + Width.four.bytes ≤ 8 ∧
      4 % Width.four.bytes = 0) ∧
    (facing [.read (BitVec.ofNat 8 (8 * (1 : Reg).val + 6)) .two]).host = [.read 0x0E .two] ∧
    (facing [.read (BitVec.ofNat 8 (8 * (15 : Reg).val + 0)) .eight]).host = [.read 0x78 .eight] ∧
    (after (step { holding [0x0123456789ABCDEF] with host := [.read 0x0F .one] })).map (·.readData) = some (some 1) ∧
    (after (step { holding [0x0123456789ABCDEF] with host := [.read 0x0A .two] })).map (·.readData) =
      some (some 0x89AB) ∧
    (after (step { holding [0x0123456789ABCDEF] with host := [.read 0x0C .four] })).map (·.readData) =
      some (some 0x01234567) := by
  decide

/-- M6 of section 3.1. -/
theorem witness_PartialWritesChangeOnlyTheirBytes :
    2 + Width.two.bytes ≤ 8 ∧ 2 % Width.two.bytes = 0 ∧ 0 + Width.eight.bytes ≤ 8 ∧
    (facing [.write (BitVec.ofNat 8 (8 * (1 : Reg).val + 2)) .two 0xBEEF]).host = [.write 0x0A .two 0xBEEF] ∧
    (after (step { holding [0x0123456789ABCDEF] with host := [.write 0x0A .two 0xBEEF] })).map (·.reg 1) =
      some 0x01234567BEEFCDEF ∧
    (facing [.write (BitVec.ofNat 8 (0xC0 + 63)) .one 0x2D]).host = [.write 0xFF .one 0x2D] := by decide

theorem witness_TextWindowStoresAndReturnsBytes :
    56 + Width.eight.bytes ≤ 64 ∧ 56 % Width.eight.bytes = 0 ∧
    (facing [.write (BitVec.ofNat 8 (0xC0 + 56)) .eight 0x363534332E32312D]).host =
      [.write 0xF8 .eight 0x363534332E32312D] := by decide

/-- M31 of section 3.4, with the bytes before the one read written. -/
theorem witness_ReadingUnwrittenTextStops :
    8 + Width.two.bytes ≤ 64 ∧ 8 % Width.two.bytes = 0 ∧
    (holdingText (List.replicate 9 0x30)).tbuf.read 9 = none ∧
    (∀ b, 8 ≤ b → b < 9 → (holdingText (List.replicate 9 0x30)).tbuf.read b ≠ none) ∧
    ({ holdingText (List.replicate 9 0x30) with host := [.read (BitVec.ofNat 8 (0xC0 + 8)) .two] } : State).host =
      [.read (BitVec.ofNat 8 (0xC0 + 8)) .two] := by
  refine ⟨by decide, by decide, by decide, ?_, rfl⟩
  intro b h1 h2
  obtain rfl : b = 8 := by omega
  decide

theorem witness_ResetClearsTheControlState : (faulted [.reset]).host = [.reset] := by decide

theorem reset_inv : Inv State.reset := ⟨by decide, by decide, fun _ => by decide, by decide⟩

theorem witness_EveryStepKeepsTheInvariant :
    (∃ t, Inv (facing [.write 0x90 .four 64]) ∧ step (facing [.write 0x90 .four 64]) = .next t) ∧
    ∃ t, Inv (faulted [.write 0x84 .four 1]) ∧ step (faulted [.write 0x84 .four 1]) = .next t :=
  ⟨⟨_, ⟨by decide, by decide, fun _ => by decide, by decide⟩, rfl⟩,
    ⟨_, ⟨by decide, by decide, by decide, fun _ => by decide⟩, rfl⟩⟩

theorem witness_CanonicalTextIsUnique :
    Memory.wf [(0, 0x2D), (63, 0x31)] ∧ ∀ a, Memory.read [(0, 0x2D), (63, 0x31)] a = Memory.read [(0, 0x2D), (63, 0x31)] a :=
  ⟨by decide, fun _ => rfl⟩

theorem witness_EveryCommandEnds :
    (∀ rd rm sc, Instr.add64 0 0 0 .checked ≠ .parse rd rm sc) ∧
    ∀ a, a < (holdingText [0x31]).tlen.toNat → (holdingText [0x31]).tbuf.read a ≠ none := by
  refine ⟨fun _ _ _ => by simp, fun a h => ?_⟩
  have h1 : (holdingText [0x31]).tlen.toNat = 1 := by decide
  obtain rfl : a = 0 := by omega
  decide

theorem witness_ParsingUnwrittenTextStops :
    (18 : ScaleField).val ≤ 18 ∧ 1 < ({ holdingText [0x31] with tlen := 2 } : State).tlen.toNat ∧
    (holdingText [0x31]).tbuf.read 1 = none ∧ ∀ b, b < 1 → (holdingText [0x31]).tbuf.read b ≠ none := by
  refine ⟨by decide, by decide, by decide, fun b h => ?_⟩
  obtain rfl : b = 0 := by omega
  decide

theorem witness_FaultsArePrecise :
    (holding [5, 0]).status.fault = false ∧
    (after (exec (.udiv64 3 1 2) (holding [5, 0]))).map (·.status.fault) = some true ∧
    (after (exec (.udiv64 3 1 2) (holding [5, 1]))).map (·.status.fault) = some false := by decide

theorem witness_OnlyCheckedOpsChangeV :
    isCheckedOp (.dadd 3 1 2 .up .unchecked 0) = false ∧
    (after (exec (.dadd 3 1 2 .up .unchecked 0) (holding [1, 2]))).isSome = true ∧
    (∀ d, HostInput.write 0x84 .four 7 ≠ .write 0x80 .four d) ∧ HostInput.write 0x84 .four 7 ≠ .reset ∧
    (after (step (facing [.write 0x84 .four 7]))).isSome = true := by
  refine ⟨by decide, by decide, fun d => by simp, by simp, by decide⟩

theorem witness_CommandsSeeNoHiddenState :
    (holding [5, 7]).x = { holding [5, 7] with fcmd := 9, host := [.reset] }.x ∧
    (holding [5, 7]).status.fault = false ∧ (after (exec (.sub64 3 1 2 .checked) (holding [5, 7]))).isSome = true := by
  decide

theorem witness_UnwrittenReadRecordIsSticky :
    ({ facing [.read 0 .eight] with unwrittenRead := true } : State).host.head? ≠ some .reset ∧
    (after (step { facing [.read 0 .eight] with unwrittenRead := true })).isSome = true ∧
    ∃ t, WellFormedRun 2 (facing [.write 0 .eight 5, .read 0 .eight, .reset]) t :=
  ⟨by decide, by decide, _, by decide, rfl, rfl⟩

/-- R143, I12: a read of X0 not written stays a model fault though a reset follows it. -/
theorem test_reset_hides_no_unwritten_read (t : State) :
    ¬ WellFormedRun 1 (facing [.read 0 .eight, .reset]) t ∧ ¬ WellFormedRun 2 (facing [.read 0 .eight, .reset]) t := by
  constructor
  · rintro ⟨-, h, hu⟩
    cases h
    exact absurd hu (by decide)
  · rintro ⟨h, -, -⟩
    exact h (by decide)

theorem witness_IllegalScaleFaultsFirst :
    scaleFieldOf (.parse 0 .up 19) = some 19 ∧ 18 < (19 : ScaleField).val ∧ scaleFieldOf (.sfact 0 31) = some 31 ∧
    18 < (31 : ScaleField).val := by decide

theorem witness_CheckedOpsWriteTheWrappedResult :
    fits64 (((holding [0x7FFFFFFFFFFFFFFF, 0]).reg 1).toInt + ((holding [0x7FFFFFFFFFFFFFFF, 0]).reg 2).toInt) ∧
    fits64 (((holding [0x8000000000000000, 0]).reg 1).toInt - ((holding [0x8000000000000000, 0]).reg 2).toInt) ∧
    fits64 (((holding [0x8000000000000000, 1]).reg 1).toInt * ((holding [0x8000000000000000, 1]).reg 2).toInt) ∧
    (holding [0x8000000000000001]).reg 1 ≠ 0x8000000000000000 := by decide

theorem witness_CheckedOverflowFaultsAndSetsV :
    ¬ fits64 (((holding [0x7FFFFFFFFFFFFFFF, 1]).reg 1).toInt + ((holding [0x7FFFFFFFFFFFFFFF, 1]).reg 2).toInt) ∧
    ¬ fits64 (((holding [0x8000000000000000, 1]).reg 1).toInt - ((holding [0x8000000000000000, 1]).reg 2).toInt) ∧
    ¬ fits64 (((holding [0x100000000, 0x80000000]).reg 1).toInt * ((holding [0x100000000, 0x80000000]).reg 2).toInt) ∧
    (holding [0x8000000000000000, 0xFFFFFFFFFFFFFFFF]).reg 1 = 0x8000000000000000 ∧
    (holding [0x8000000000000000, 0xFFFFFFFFFFFFFFFF]).reg 2 = -1 := by decide

theorem witness_Div64TruncatesAndRefusesZero :
    (holding [0x8000000000000000, 1]).reg 2 ≠ 0 ∧
    ¬ ((holding [0x8000000000000000, 1]).reg 1 = 0x8000000000000000 ∧ (holding [0x8000000000000000, 1]).reg 2 = -1) ∧
    (holding [5, 0]).reg 2 = 0 := by decide

theorem witness_UnsignedCompareAndDivide : (holding [5, 1]).reg 2 ≠ 0 ∧ (holding [5, 0]).reg 2 = 0 := by decide

theorem witness_WideProductsAreExact : (0 : Reg) ≠ 15 ∧ (15 : Reg) = 15 := by decide

/-- 100 / 3, 2^65 / 3, 2^63 / 1 and a zero divisor. -/
theorem witness_Div128RoundsTheExactQuotient :
    (holding [0, 100, 3]).reg 3 ≠ 0 ∧ ((holding [0, 100, 3]).reg 1).toNat = 0 ∧ ((holding [0, 100, 3]).reg 2).toNat = 100 ∧
    ((holding [0, 100, 3]).reg 3).toNat = 3 ∧
    (RoundsTo (1 * ((0 * 2 ^ 64 + 100 : ℚ) / 3)) .up 34 ∧ fits64 34) ∧
    ((¬ ∃ r : Int, (r : ℚ) = 1 * ((0 * 2 ^ 64 + 100 : ℚ) / 3)) ∧ ¬ OutOfRange (1 * ((0 * 2 ^ 64 + 100 : ℚ) / 3))) ∧
    (OutOfRange (1 * ((2 * 2 ^ 64 + 0 : ℚ) / 3)) ∧ ¬ ∃ r : Int, (r : ℚ) = 1 * ((2 * 2 ^ 64 + 0 : ℚ) / 3)) ∧
    (RoundsTo (1 * ((0 * 2 ^ 64 + 9223372036854775808 : ℚ) / 1)) .down 9223372036854775808 ∧
      ¬ fits64 9223372036854775808) ∧
    (holding [5, 0, 0]).reg 3 = 0 := by
  refine ⟨by decide, by decide, by decide, by decide, ⟨?_, by decide⟩, ⟨?_, ?_⟩, ⟨?_, ?_⟩, ⟨?_, by decide⟩, by decide⟩
  · norm_num [RoundsTo, Int.ceil_eq_iff, eq_comm]
  · have := ratio_not_int 100 3 (by decide) (by decide); norm_num at this ⊢; exact this
  · norm_num [OutOfRange, minWord, maxWord]
  · norm_num [OutOfRange, minWord, maxWord]
  · have := ratio_not_int 36893488147419103232 3 (by decide) (by decide); norm_num at this ⊢; exact this
  · norm_num [RoundsTo]

theorem witness_RoundIsTheRationalRounding : (⟨-5, 2⟩ : Ratio).den ≠ 0 ∧ RoundingMode.halfEven ≠ .unnecessary := by decide

theorem witness_RincReadsTheIncrementTable :
    (0 ≤ ((holding [5, 0, 0]).reg 3).toInt ∧
      (incrementRow .unnecessary (decide (((holding [5, 0, 0]).reg 1).toInt < 0))
        (decide (((holding [5, 0, 0]).reg 2).toInt % 2 = 1)))[((holding [5, 0, 0]).reg 3).toNat]? = some 0) ∧
    (0 ≤ ((holding [-7, 3, 3]).reg 3).toInt ∧
      (incrementRow .halfEven (decide (((holding [-7, 3, 3]).reg 1).toInt < 0))
        (decide (((holding [-7, 3, 3]).reg 2).toInt % 2 = 1)))[((holding [-7, 3, 3]).reg 3).toNat]? = some (-1)) ∧
    (1 ≤ ((holding [5, 0, 1]).reg 3).toInt ∧ ((holding [5, 0, 3]).reg 3).toInt ≤ 3) ∧
    ((holding [5, 0, -1]).reg 3).toInt < 0 ∧ 3 < ((holding [5, 0, 4]).reg 3).toInt := by decide

theorem witness_ScaleConstantsMatchTheTable :
    ((0 : ScaleField).val, 0x0000000000000001, 63, 9223372036854775807, -9223372036854775808) ∈ scaleTable ∧
    ((18 : ScaleField).val, 0x0DE0B6B3A7640000, 4, 9, -9) ∈ scaleTable := by decide

theorem witness_ScaleFactorArithmetic :
    (18 : ScaleField).val ≤ 18 ∧ fits64 (((holding [9]).reg 1).toInt * 10 ^ (18 : ScaleField).val) ∧
    ¬ fits64 (((holding [10]).reg 1).toInt * 10 ^ (18 : ScaleField).val) := by decide

theorem witness_DivideMultiplyAndRemainderGiveTheWordBack :
    (18 : ScaleField).val ≤ 18 ∧ (holding [0x8000000000000000]).status.fault = false ∧
    (2 : Reg) ≠ 1 ∧ (3 : Reg) ≠ 1 ∧ (3 : Reg) ≠ 2 ∧ (1 : Reg) ≠ 3 := by decide

theorem witness_DecimalSumsAreExact :
    (18 : ScaleField).val ≤ 18 ∧
    fits64 (((holding [0x7FFFFFFFFFFFFFFF, 0]).reg 1).toInt + ((holding [0x7FFFFFFFFFFFFFFF, 0]).reg 2).toInt) ∧
    ¬ fits64 (((holding [0x7FFFFFFFFFFFFFFF, 1]).reg 1).toInt + ((holding [0x7FFFFFFFFFFFFFFF, 1]).reg 2).toInt) ∧
    fits64 (((holding [0x8000000000000000, 0]).reg 1).toInt - ((holding [0x8000000000000000, 0]).reg 2).toInt) ∧
    ¬ fits64 (((holding [0x8000000000000000, 1]).reg 1).toInt - ((holding [0x8000000000000000, 1]).reg 2).toInt) := by decide

/-- 125 × 1 and MAX × MAX, at the scale 18, and t = 18. -/
theorem witness_DecimalProductsRoundOnce :
    ((18 : ScaleField).val ≤ 18 ∧ ((holding [125, 1, 18]).reg 3).toInt = (18 : Nat)) ∧
    (((holding [125, 1, 18]).reg 1).toInt = 125 ∧ ((holding [125, 1, 18]).reg 2).toInt = 1 ∧
      RoundsTo ((125 * 1 : ℚ) / 10 ^ 18) .up 1 ∧ fits64 1) ∧
    ((¬ ∃ r : Int, (r : ℚ) = (125 * 1 : ℚ) / 10 ^ 18) ∧ ¬ OutOfRange ((125 * 1 : ℚ) / 10 ^ 18)) ∧
    (((holding [0x7FFFFFFFFFFFFFFF]).reg 1).toInt = 9223372036854775807 ∧
      (¬ ∃ r : Int, (r : ℚ) = (9223372036854775807 * 9223372036854775807 : ℚ) / 10 ^ 18) ∧
      OutOfRange ((9223372036854775807 * 9223372036854775807 : ℚ) / 10 ^ 18)) ∧
    (RoundsTo ((9223372036854775807 * 9223372036854775807 : ℚ) / 10 ^ 18) .down 85070591730234615847 ∧
      ¬ fits64 85070591730234615847) ∧
    (RoundsTo ((15 : ℚ) ^ 2 / 10 ^ 18) .up 1) := by
  refine ⟨by decide, ⟨by decide, by decide, ?_, by decide⟩, ⟨?_, ?_⟩, ⟨by decide, ?_, ?_⟩, ⟨?_, by decide⟩, ?_⟩
  · norm_num [RoundsTo, Int.ceil_eq_iff, eq_comm]
  · have := ratio_not_int 125 (10 ^ 18) (by decide) (by decide); norm_num at this ⊢; exact this
  · norm_num [OutOfRange, minWord, maxWord]
  · have := ratio_not_int (9223372036854775807 * 9223372036854775807) (10 ^ 18) (by decide) (by decide)
    norm_num at this ⊢; exact this
  · norm_num [OutOfRange, minWord, maxWord]
  · norm_num [RoundsTo, Int.floor_eq_iff, eq_comm]
  · norm_num [RoundsTo, Int.ceil_eq_iff, eq_comm]

/-- 1 / 3 and MAX / 10, at the scale 18 and t = 18, and the reciprocals of 3 at s0 and of 7 and 1 at s18. -/
theorem witness_DecimalQuotientsRoundOnce :
    ((18 : ScaleField).val ≤ 18 ∧ (holding [1, 3, 18]).reg 2 ≠ 0 ∧ ((holding [1, 3, 18]).reg 3).toInt = (18 : Nat)) ∧
    (RoundsTo ((1 : ℚ) * 10 ^ 18 / 3) .up 333333333333333334 ∧ fits64 333333333333333334) ∧
    ((¬ ∃ r : Int, (r : ℚ) = (1 : ℚ) * 10 ^ 18 / 3) ∧ ¬ OutOfRange ((1 : ℚ) * 10 ^ 18 / 3)) ∧
    ((¬ ∃ r : Int, (r : ℚ) = (9223372036854775807 : ℚ) * 10 ^ 18 / 3) ∧
      OutOfRange ((9223372036854775807 : ℚ) * 10 ^ 18 / 3)) ∧
    (RoundsTo ((9223372036854775807 : ℚ) * 10 ^ 18 / 10) .unnecessary 922337203685477580700000000000000000 ∧
      ¬ fits64 922337203685477580700000000000000000) ∧
    ((holding [3]).reg 1 ≠ 0 ∧ RoundsTo ((10 : ℚ) ^ (2 * 0) / 3) .down 0 ∧
      (¬ ∃ r : Int, (r : ℚ) = (10 : ℚ) ^ (2 * 0) / 3) ∧ (¬ ∃ r : Int, (r : ℚ) = (10 : ℚ) ^ (2 * 18) / 7) ∧
      OutOfRange ((10 : ℚ) ^ (2 * 18) / 7) ∧
      RoundsTo ((10 : ℚ) ^ (2 * 18) / 1) .down 1000000000000000000000000000000000000 ∧
      ¬ fits64 1000000000000000000000000000000000000) := by
  refine ⟨by decide, ⟨?_, by decide⟩, ⟨?_, ?_⟩, ⟨?_, ?_⟩, ⟨?_, by decide⟩, by decide, ?_, ?_, ?_, ?_, ?_, by decide⟩
  · norm_num [RoundsTo, Int.ceil_eq_iff, eq_comm]
  · have := ratio_not_int (10 ^ 18) 3 (by decide) (by decide); norm_num at this ⊢; exact this
  · norm_num [OutOfRange, minWord, maxWord]
  · have := ratio_not_int (9223372036854775807 * 10 ^ 18) 3 (by decide) (by decide); norm_num at this ⊢; exact this
  · norm_num [OutOfRange, minWord, maxWord]
  · norm_num [RoundsTo]
  · norm_num [RoundsTo, Int.floor_eq_iff, eq_comm]
  · have := ratio_not_int 1 3 (by decide) (by decide); norm_num at this ⊢; exact this
  · have := ratio_not_int (10 ^ 36) 7 (by decide) (by decide); norm_num at this ⊢; exact this
  · norm_num [OutOfRange, minWord, maxWord]
  · norm_num [RoundsTo]

theorem witness_DecimalDivisionByZeroFaults :
    (18 : ScaleField).val ≤ 18 ∧ (holding [0, 0, 18]).reg 2 = 0 ∧ 0 ≤ ((holding [0, 0, 18]).reg 3).toInt ∧
    ((holding [0, 0, 18]).reg 3).toInt ≤ 18 ∧ (holding [0, 0, 18]).reg 1 = 0 := by decide

theorem witness_IllegalSecondScaleFaults :
    (18 : ScaleField).val ≤ 18 ∧ ((holding [1, 0, -1]).reg 3).toInt < 0 ∧ 18 < ((holding [1, 0, 19]).reg 3).toInt := by
  decide

/-- The roots of 2.00 and of -1 at s2. -/
theorem witness_SquareRootIsRounded :
    ((2 : ScaleField).val ≤ 18 ∧ 0 ≤ ((holding [200]).reg 1).toInt ∧
      RootRoundsTo (((holding [200]).reg 1).toNat * 10 ^ (2 : ScaleField).val) .down 141) ∧
    (¬ ∃ r : Nat, r * r = ((holding [200]).reg 1).toNat * 10 ^ (2 : ScaleField).val) ∧
    ((holding [-1]).reg 1).toInt < 0 := by
  have h : ((holding [200]).reg 1).toNat * 10 ^ (2 : ScaleField).val = 20000 := by decide
  rw [h]
  refine ⟨⟨by decide, by decide, ⟨by decide, by decide⟩⟩, ?_, by decide⟩
  rintro ⟨r, hr⟩
  rcases Nat.lt_or_ge r 142 with h1 | h1
  · have : r * r ≤ 141 * 141 := Nat.mul_le_mul (by omega) (by omega)
    omega
  · have : 142 * 142 ≤ r * r := Nat.mul_le_mul h1 h1
    omega

/-- The mean of MAX and MIN, and of 1 and 2. -/
theorem witness_AverageNeverOverflows :
    (0 : ScaleField).val ≤ 18 ∧ RoundsTo ((9223372036854775807 + (-9223372036854775808) : ℚ) / 2) .floor (-1) ∧
    (((holding [1, 2]).reg 1).toInt + ((holding [1, 2]).reg 2).toInt) % 2 = 1 := by
  refine ⟨by decide, ?_, by decide⟩
  norm_num [RoundsTo, Int.floor_eq_iff, eq_comm]

theorem witness_PowerSpecialCases :
    (2 : ScaleField).val ≤ 18 ∧ ((holding [2, -1000000000]).reg 2).toInt < -999999999 ∧
    999999999 < ((holding [2, 1000000000]).reg 2).toInt ∧
    (-999999999 ≤ ((holding [0, -999999999]).reg 2).toInt ∧ ((holding [0, -999999999]).reg 2).toInt < 0 ∧
      ((holding [0, -999999999]).reg 1).toInt = 0) ∧
    ((holding [0, 999999999]).reg 2).toInt ≤ 999999999 ∧ ((holding [0, 0]).reg 2).toInt = 0 ∧
    ((holding [123, 1]).reg 2).toInt = 1 ∧ ((holding [100, 5]).reg 1).toInt = 10 ^ (2 : ScaleField).val ∧
    (((holding [-100, 3]).reg 1).toInt = -10 ^ (2 : ScaleField).val ∧ ((holding [-100, 3]).reg 2).toInt % 2 = 1) ∧
    ((holding [-100, -4]).reg 2).toInt % 2 = 0 := by decide

/-- 1.50^2 at s2: the exact power is 225, and every candidate fits. -/
theorem witness_PowerStaysInTheAdmittedSet :
    ((2 : ScaleField).val ≤ 18 ∧ (150 : Int) = ((holding [150, 2]).reg 1).toInt ∧
      (2 : Int) = ((holding [150, 2]).reg 2).toInt) ∧
    ((150 : Int) ≠ 10 ^ (2 : ScaleField).val ∧ (150 : Int) ≠ -10 ^ (2 : ScaleField).val) ∧
    ((225 : ℚ) = (((150 : Int) : ℚ) / 10 ^ (2 : ScaleField).val) ^ (2 : Int) * 10 ^ (2 : ScaleField).val) ∧
    ¬ SomeNeighbourUnfit 225 := by
  refine ⟨by decide, by decide, by norm_num, ?_⟩
  rintro ⟨r, h1, h2⟩
  rw [abs_lt] at h1
  have h3 : (r : ℚ) < 227 := by linarith
  have h4 : (223 : ℚ) < r := by linarith
  have h5 : r < 227 := by exact_mod_cast h3
  have h6 : 223 < r := by exact_mod_cast h4
  exact h2 (by simp only [fits64, minWord, maxWord]; omega)

/-- 5 × 2^-1000, -7 / 2^1, and 1 × 2^64. -/
theorem witness_ShiftsRoundTheExactProduct :
    ((18 : ScaleField).val ≤ 18 ∧ ((holding [5, -1000]).reg 2).toInt = -1000) ∧
    (RoundsTo (((-7 : Int) : ℚ) / (2 : ℚ) ^ (1 : Int)) .floor (-4) ∧ fits64 (-4)) ∧
    (¬ ∃ r : Int, (r : ℚ) = ((-7 : Int) : ℚ) / (2 : ℚ) ^ (1 : Int)) ∧
    (RoundsTo (((1 : Int) : ℚ) * (2 : ℚ) ^ (64 : Int)) .down 18446744073709551616 ∧ ¬ fits64 18446744073709551616) := by
  refine ⟨by decide, ⟨?_, by decide⟩, ?_, ?_, by decide⟩
  · norm_num [RoundsTo, Int.floor_eq_iff, eq_comm]
  · have := ratio_not_int (-7) 2 (by decide) (by decide); norm_num at this ⊢; exact this
  · norm_num [RoundsTo, zpow_ofNat]

/-- 12.345 at s3; 5 at s18 to -1 digits; and MAX at s0 to tens. -/
theorem witness_RoundToPrecision :
    ((3 : ScaleField).val ≤ 18 ∧ ((3 : ScaleField).val : Int) ≤ ((holding [12345, 3]).reg 2).toInt) ∧
    18 < ((18 : ScaleField).val : Int) - ((holding [5, -1]).reg 2).toInt ∧
    (((18 : ScaleField).val : Int) - ((holding [5, 0]).reg 2).toInt = (18 : Nat) ∧
      RoundsTo (((5 : Int) : ℚ) / 10 ^ 18) .up 1 ∧ fits64 (1 * 10 ^ 18)) ∧
    (((0 : ScaleField).val : Int) - ((holding [0x7FFFFFFFFFFFFFFF, -1]).reg 2).toInt = (1 : Nat) ∧
      RoundsTo (((9223372036854775807 : Int) : ℚ) / 10 ^ 1) .up 922337203685477581 ∧
      ¬ fits64 (922337203685477581 * 10 ^ 1)) ∧
    ¬ (10 : Int) ^ 1 ∣ ((holding [12345, 2]).reg 1).toInt := by
  refine ⟨by decide, by decide, ⟨by decide, ?_, by decide⟩, ⟨by decide, ?_, by decide⟩, by decide⟩
  · norm_num [RoundsTo, Int.ceil_eq_iff, eq_comm]
  · norm_num [RoundsTo, Int.ceil_eq_iff, eq_comm]

theorem witness_ComparisonsAreExact :
    (0 : ScaleField).val ≤ 18 ∧ ((holding [150, 15, 18]).reg 3).toInt = (18 : Nat) ∧ (18 : Nat) ≤ 18 ∧
    ((holding [150, 15, 0]).reg 3).toInt = (0 : Nat) := by decide

theorem witness_PatternValuesFollowIeee :
    ((0x7FF0000000000000 : Word).extractLsb' 52 11).toNat = 2047 ∧
    ((0x8000000000000001 : Word).extractLsb' 52 11).toNat = 0 ∧
    ((0x7FEFFFFFFFFFFFFF : Word).extractLsb' 52 11).toNat = 2046 ∧
    ((0x7F800000 : BitVec 32).extractLsb' 23 8).toNat = 255 ∧ ((0x80000000 : BitVec 32).extractLsb' 23 8).toNat = 0 ∧
    ((0x00800000 : BitVec 32).extractLsb' 23 8).toNat = 1 := by decide

/-- The denominator of every value of a pattern is a power of two. -/
theorem value_den (f : BinaryFormat) (w : Nat) (d : Ratio) (h : f.value w = some d) : ∃ j : Nat, d.den = 2 ^ j := by
  have key : ∀ n e : Int, ∃ j : Nat, (Ratio.scale2 n e).den = 2 ^ j := by
    intro n e
    unfold Ratio.scale2
    split
    · exact ⟨0, rfl⟩
    · exact ⟨_, rfl⟩
  simp only [BinaryFormat.value] at h
  split at h
  · cases h
  · split at h <;> (simp only [Option.some.injEq] at h; subst h; exact key _ _)

/-- No pattern is one tenth. -/
theorem tenth_not_representable (f : BinaryFormat) : ¬ Representable f (((1 : Int) : ℚ) / 10 ^ 1) := by
  rintro ⟨w, d, h, hv⟩
  obtain ⟨j, hj⟩ := value_den f w d h
  have h2 : (0 : ℚ) < 2 ^ j := by positivity
  rw [hj] at hv
  push_cast at hv
  rw [div_eq_div_iff h2.ne' (by norm_num)] at hv
  have h3 : d.num * 10 = 2 ^ j := by
    have : (d.num : ℚ) * 10 = 2 ^ j := by linarith
    exact_mod_cast this
  have h5 : (5 : Int) ∣ 2 ^ j := ⟨d.num * 2, by rw [← h3]; ring⟩
  have h6 : (5 : Int) ∣ 2 := Int.Prime.dvd_pow' (by norm_num) h5
  norm_num at h6

theorem witness_DecimalToBinaryIsCorrectlyRounded :
    ((18 : ScaleField).val ≤ 18 ∧ (holding [0]).reg 1 = 0 ∧ (holding [150]).reg 1 ≠ 0) ∧
    Representable binary64 (((150 : Int) : ℚ) / 10 ^ 2) ∧ Representable binary32 (((150 : Int) : ℚ) / 10 ^ 2) ∧
    ¬ Representable binary64 (((1 : Int) : ℚ) / 10 ^ 1) ∧ ¬ Representable binary32 (((1 : Int) : ℚ) / 10 ^ 1) := by
  refine ⟨by decide, ⟨0x3FF8000000000000, ⟨6755399441055744, 2 ^ 52⟩, by decide +kernel, by norm_num⟩,
    ⟨0x3FC00000, ⟨12582912, 2 ^ 23⟩, by decide +kernel, by norm_num⟩, tenth_not_representable _, tenth_not_representable _⟩

/-- 1.5 at s0 and s18, 2^63 at s0, and 10^10 + 2^-18 at s10. -/
theorem witness_BinaryToDecimalRoundsOnce :
    ((18 : ScaleField).val ≤ 18 ∧ binary64.value 0x3FF8000000000000 = some ⟨6755399441055744, 2 ^ 52⟩ ∧
      binary32.value (0xFFFFFFFF3FC00000 % 2 ^ 32) = some ⟨12582912, 2 ^ 23⟩) ∧
    (RoundsTo ((6755399441055744 : ℚ) / 2 ^ 52 * 10 ^ 0) .up 2 ∧ fits64 2) ∧
    ((¬ ∃ r : Int, (r : ℚ) = (6755399441055744 : ℚ) / 2 ^ 52 * 10 ^ 0) ∧
      ¬ OutOfRange ((6755399441055744 : ℚ) / 2 ^ 52 * 10 ^ 0)) ∧
    (binary64.value 0x4202A05F20000002 = some ⟨5242880000000002, 2 ^ 19⟩ ∧
      (¬ ∃ r : Int, (r : ℚ) = (5242880000000002 : ℚ) / 2 ^ 19 * 10 ^ 10) ∧
      OutOfRange ((5242880000000002 : ℚ) / 2 ^ 19 * 10 ^ 10)) ∧
    (binary64.value 0x43E0000000000000 = some ⟨9223372036854775808, 1⟩ ∧
      RoundsTo ((9223372036854775808 : ℚ) / 1 * 10 ^ 0) .down 9223372036854775808 ∧ ¬ fits64 9223372036854775808) ∧
    ((0xFFF8000000000000 : Word).extractLsb' 52 11 = 0x7FF ∧ (0x000000007F800000 : Word).extractLsb' 23 8 = 0xFF) ∧
    (0xFFFFFFFF41200001 : Word).extractLsb' 0 32 = (0x41200001 : Word).extractLsb' 0 32 := by
  refine ⟨⟨by decide, by decide +kernel, by decide +kernel⟩, ⟨?_, by decide⟩, ⟨?_, ?_⟩, ⟨by decide +kernel, ?_, ?_⟩,
    ⟨by decide +kernel, ?_, by decide⟩, ⟨by decide, by decide⟩, by decide⟩
  · norm_num [RoundsTo, Int.ceil_eq_iff, eq_comm]
  · have := ratio_not_int 3 2 (by decide) (by decide); norm_num at this ⊢; exact this
  · norm_num [OutOfRange, minWord, maxWord]
  · have := ratio_not_int (5242880000000002 * 10 ^ 10) (2 ^ 19) (by decide) (by decide); norm_num at this ⊢; exact this
  · norm_num [OutOfRange, minWord, maxWord]
  · norm_num [RoundsTo]

/-- The text `-1.5` denotes minus three halves, `9223372036854775807.5` what it reads, and the empty text nothing. -/
theorem witness_ParseAcceptsExactlyTheGrammar :
    ((18 : ScaleField).val ≤ 18 ∧ HoldsText (holdingText [0x2D, 0x31, 0x2E, 0x35]) [0x2D, 0x31, 0x2E, 0x35]) ∧
    IsLiteral [0x2D, 0x31, 0x2E, 0x35] (-3 / 2) ∧ (RoundsTo ((-3 / 2 : ℚ) * 10 ^ 0) .floor (-2) ∧ fits64 (-2)) ∧
    ((¬ ∃ r : Int, (r : ℚ) = (-3 / 2 : ℚ) * 10 ^ 0) ∧ ¬ OutOfRange ((-3 / 2 : ℚ) * 10 ^ 0)) ∧
    (IsLiteral ([9, 2, 2, 3, 3, 7, 2, 0, 3, 6, 8, 5, 4, 7, 7, 5, 8, 0, 7].map asciiDigit ++ [0x2E, 0x35])
        (92233720368547758075 / 10) ∧
      (¬ ∃ r : Int, (r : ℚ) = (92233720368547758075 / 10 : ℚ) * 10 ^ 0) ∧
      OutOfRange ((92233720368547758075 / 10 : ℚ) * 10 ^ 0) ∧
      RoundsTo ((92233720368547758075 / 10 : ℚ) * 10 ^ 0) .up 9223372036854775808 ∧ ¬ fits64 9223372036854775808) ∧
    (18 < (19 : ScaleField).val ∧ 0 < ({ State.reset with tlen := 1 } : State).tlen.toNat ∧
      ({ State.reset with tlen := 1 } : State).tbuf.read 0 = none) ∧
    HoldsText (holdingText []) [] ∧ ¬ ∃ v : ℚ, IsLiteral [] v := by
  refine ⟨⟨by decide, by decide, ?_⟩, ?_, ⟨?_, by decide⟩, ⟨?_, ?_⟩, ⟨?_, ?_, ?_, ?_, by decide⟩, ⟨by decide, by decide, by decide⟩, ⟨by decide, ?_⟩, ?_⟩
  · intro k hk
    have : k < 4 := hk
    interval_cases k <;> decide
  · exact ⟨[0x2D], [1], [5], by decide, by decide, by decide, by decide, by norm_num [denotes, Nat.ofDigits]⟩
  · norm_num [RoundsTo, Int.floor_eq_iff, eq_comm]
  · have := ratio_not_int (-3) 2 (by decide) (by decide); norm_num at this ⊢; exact this
  · norm_num [OutOfRange, minWord, maxWord]
  · exact ⟨[], [9, 2, 2, 3, 3, 7, 2, 0, 3, 6, 8, 5, 4, 7, 7, 5, 8, 0, 7], [5], by decide, by decide, by decide, by decide,
      by norm_num [denotes, Nat.ofDigits]⟩
  · have := ratio_not_int 92233720368547758075 10 (by decide) (by decide); norm_num at this ⊢; exact this
  · norm_num [OutOfRange, minWord, maxWord]
  · norm_num [RoundsTo, Int.ceil_eq_iff, eq_comm]
  · intro k hk; simp at hk
  · rintro ⟨v, sign, ip, fp, -, hip, -, ht, -⟩
    have := congrArg List.length ht
    simp only [List.length_nil, List.length_append, List.length_map] at this
    exact hip (List.length_eq_zero_iff.mp (by omega))

theorem witness_FormatWritesTheText : (0 : ScaleField).val ≤ 18 ∧ (18 : ScaleField).val ≤ 18 := by decide

theorem witness_FormatThenParseGivesTheValueBack :
    (18 : ScaleField).val ≤ 18 ∧
    (match exec (.format 1 18) (holding [0x8000000000000000]) with
      | .next t => saw 2 (exec (.parse 2 .unnecessary 18) t)
      | .fault _ => .stopped
      | .refused _ => .stopped) = .word 0x8000000000000000 false := by decide

end Sys2Proof.Tests
end

section
/-! SUPPORT. The decoder inverted: a word that decodes is the word of the command it decodes to (`30_encoding.md` R43, R50,
R53). -/

namespace Sys2Proof

/-- R50, field by field. -/
theorem Fields.unusedZero_iff (f : Fields) (u : FieldUse) :
    f.unusedZero u = true ↔
      (u.rd = true ∨ f.rd = 0) ∧ (u.rs1 = true ∨ f.rs1 = 0) ∧ (u.rs2 = true ∨ f.rs2 = 0) ∧ (u.rc = true ∨ f.rc = 0) ∧
        (u.rm = true ∨ f.rm = 0) ∧ (u.ov = true ∨ f.ov = 0) ∧ (u.sc = true ∨ f.sc = 0) ∧ (u.n = true ∨ f.n = 0) := by
  simp only [Fields.unusedZero, Bool.and_eq_true, Bool.or_eq_true, beq_iff_eq, and_assoc]

/-- A row of the opcode map reads its operands from the fields alone: where the unused fields are 0, the fields of the
command it builds are the fields it was built from. -/
theorem fields_build (f : Fields) (row : OpcodeRow) (hrow : opcodeRow f.op.toNat = some row)
    (hz : f.unusedZero row.use = true) : (row.build f).fields = f := by
  obtain ⟨op, rd, rs1, rs2, rc, rm, ov, sc, n⟩ := f
  have hop : op = BitVec.ofNat 6 op.toNat := by simp
  dsimp only at hrow
  generalize op.toNat = k at hrow hop
  subst hop
  unfold opcodeRow at hrow
  split at hrow
  case h_45 => cases hrow
  all_goals
    cases hrow
    simp only [Fields.unusedZero_iff, Bool.false_eq_true, false_or, true_or, true_and, and_true] at hz
    simp [Instr.fields, Fields.rdReg, Fields.rs1Reg, Fields.rs2Reg, Fields.rcReg, Fields.rmMode, Fields.ovMode,
      Fields.scField, Fields.nSign, hz]

/-- What a word that decodes passes: it has a row, its unused fields are 0, and the command is the one the row builds. -/
theorem decode_ok {w : CommandWord} {i : Instr} (h : decode w = .ok i) :
    ∃ row, opcodeRow (Fields.unpack w).op.toNat = some row ∧ (Fields.unpack w).unusedZero row.use = true ∧
      i = row.build (Fields.unpack w) ∧ i.wellFormed = true := by
  simp only [decode] at h
  split at h
  · cases h
  · rename_i row hrow
    split at h
    · rename_i hz
      split at h
      · rename_i hwf
        cases h
        exact ⟨row, hrow, hz, rfl, hwf⟩
      · cases h
    · cases h

theorem fields_of_decode {w : CommandWord} {i : Instr} (h : decode w = .ok i) : i.fields = Fields.unpack w := by
  obtain ⟨row, hrow, hz, rfl, -⟩ := decode_ok h
  exact fields_build _ row hrow hz

/-- R53: so the word FCMD receives from a decoded command, `encode i`, is the word the host wrote (R123; log 9). -/
theorem encode_of_decode {w : CommandWord} {i : Instr} (h : decode w = .ok i) : encode i = w := by
  rw [encode, fields_of_decode h, Fields.pack_unpack]

end Sys2Proof
end

section
/-! SUPPORT. One step by the kind of its input, and what commands and host writes do to CTRL and FCMD (`10_state.md` R20,
R21). -/

namespace Sys2Proof.Machine

/-! ### The step by its input -/

section
variable {s : State} {rest : List HostInput} {o : BitVec 8} {w : Width} {d : Word}

theorem step_read (h : s.host = .read o w :: rest) : step s = readWindow o w { s with host := rest } := by
  simp only [step, performNext, h, perform]

theorem step_write (h : s.host = .write o w d :: rest) :
    step s = performWrite o w d { s with host := rest, readData := none } := by
  simp only [step, performNext, h, perform]

/-- A write to anything but CMD is the window's write. -/
theorem step_write_window (h : s.host = .write o w d :: rest) (hl : locate o w ≠ .cmd) :
    step s = .next (writeWindow (locate o w) w d { s with host := rest, readData := none }) := by
  rw [step_write h]
  rcases performWrite_cases o w d { s with host := rest, readData := none } with ⟨hc, -⟩ | ⟨-, he⟩
  · exact absurd hc hl
  · exact he

theorem step_write_cmd (h : s.host = .write 0x80 .four d :: rest) :
    step s = issueCommand (d.setWidth 32) { s with host := rest, readData := none } :=
  step_write h

/-- R23, R32: CMD is reached by a 4-byte access at 0x080 and by no other. -/
theorem locate_eq_cmd (h : locate o w = .cmd) : o = 0x80 ∧ w = .four := by
  simp only [locate, locateControl] at h
  split_ifs at h with _ _ _ hw ho
  exact ⟨BitVec.eq_of_toNat_eq ho, hw⟩

end

/-! ### CTRL -/

/-- R20: FIE in bit 0 and 0 elsewhere. -/
theorem Ctrl.word_setWidth (c : Ctrl) : c.word.setWidth 64 = if c.fie then (1 : Word) else 0 := by
  obtain ⟨_ | _⟩ := c <;> decide

theorem irq_iff (s : State) : s.irq = true ↔ s.status.fault = true ∧ s.ctrl.fie = true := by
  simp [State.irq]

theorem Noted.ctrl {s s' : State} (h : Noted s s') : s'.ctrl = s.ctrl := by rw [h.eq]

/-- R20: no command writes CTRL. -/
theorem exec_ctrl {i : Instr} {s t : State} (h : exec i s = .next t) : t.ctrl = s.ctrl := by
  have he := exec_ends i s
  rw [h] at he
  cases he with
  | fault s' e v hs _ => exact hs.ctrl
  | word s' rd w v hs _ => exact hs.ctrl
  | wide s' rd rc w hs => exact hs.ctrl
  | text s' r sc hs _ _ => exact hs.ctrl

/-! ### FCMD -/

theorem Noted.fcmd {s s' : State} (h : Noted s s') : s'.fcmd = s.fcmd := by rw [h.eq]
theorem Noted.fault {s s' : State} (h : Noted s s') : s'.status.fault = s.status.fault := by rw [h.eq]

/-- R21, R123: a command that faults leaves FAULT = 1 and its word in FCMD; one that completes changes neither. -/
theorem exec_fault_fcmd {i : Instr} {s t : State} (h : exec i s = .next t) :
    (t.status.fault = true ∧ t.fcmd = encode i) ∨ (t.status.fault = s.status.fault ∧ t.fcmd = s.fcmd) := by
  have he := exec_ends i s
  rw [h] at he
  cases he with
  | fault s' e v hs _ => exact .inl ⟨rfl, rfl⟩
  | word s' rd w v hs _ => exact .inr ⟨hs.fault, hs.fcmd⟩
  | wide s' rd rc w hs => exact .inr ⟨hs.fault, hs.fcmd⟩
  | text s' r sc hs _ _ => exact .inr ⟨hs.fault, hs.fcmd⟩

/-- R21: issuing the word `w` stores it in FCMD exactly when it faults: an illegal word is stored as it was written, a
command's `encode i` is the word it decoded from, and a dropped word, which finds FAULT = 1, is not stored. -/
theorem issueCommand_fcmd {w : CommandWord} {s t : State} (h : issueCommand w s = .next t) :
    t.fcmd = if s.status.fault = false ∧ t.status.fault = true then w else s.fcmd := by
  rcases issueCommand_cases w s with ⟨hf, hi⟩ | ⟨k, hf, -, hi⟩ | ⟨i, hf, hd, hi⟩ <;> rw [hi] at h
  case inl => cases h; simp [hf]
  case inr.inl => cases h; simp [hf]
  case inr.inr =>
    rcases exec_fault_fcmd h with ⟨ht, hc⟩ | ⟨ht, hc⟩
    · simp [hf, ht, hc, encode_of_decode hd]
    · simp [hf, ht, hc]

/-- R21: no host write of the window changes FCMD, at any target. -/
theorem writeWindow_fcmd (g : Target) (w : Width) (d : Word) (s : State) : (writeWindow g w d s).fcmd = s.fcmd := by
  cases g
  case tlen =>
    simp only [writeWindow, writeTlen]
    split <;> rfl
  all_goals rfl

/-- R21: an input that is neither a command nor reset leaves FCMD. -/
theorem step_fcmd_of_not_command {s t : State} {a : HostInput} {rest : List HostInput} (hs : s.host = a :: rest)
    (hcmd : ∀ d, a ≠ .write 0x80 .four d) (hreset : a ≠ .reset) (h : step s = .next t) : t.fcmd = s.fcmd := by
  cases a with
  | read o w =>
    rw [step_read hs] at h
    obtain ⟨d, ht⟩ := readWindow_next _ _ _ _ h
    rw [ht]
  | write o w d =>
    have hl : locate o w ≠ .cmd := fun hc => by
      obtain ⟨rfl, rfl⟩ := locate_eq_cmd hc
      exact hcmd d rfl
    rw [step_write_window hs hl] at h
    cases h
    exact writeWindow_fcmd _ _ _ _
  | reset => exact absurd rfl hreset

/-! ### The statements -/

/-- Settles O10: the accesses are the window's at CTRL, and `exec_ends` shows that every end of a command keeps CTRL. -/
theorem ctrlHoldsTheInterruptEnable : Obligations.CtrlHoldsTheInterruptEnable := by
  refine ⟨fun s rest h => ?read, fun s d rest h => ?write, irq_iff, fun i s t => exec_ctrl, rfl⟩
  case read =>
    have hr : step s = returnData (s.ctrl.word.setWidth 64) { s with host := rest } := step_read h
    rw [hr, Ctrl.word_setWidth, returnData]
  case write =>
    have hw : step s = .next (writeCtrl (d.setWidth 32) { s with host := rest, readData := none }) :=
      step_write_window h (by decide)
    simp [hw, writeCtrl]

/-- Settles O11: a command that faults stores `encode i`, which is the word it was decoded from (`encode_of_decode`). -/
theorem fcmdHoldsTheLastFaultingWord : Obligations.FcmdHoldsTheLastFaultingWord := by
  refine ⟨fun s rest h => ?read, fun s d rest h => ?write, fun s t a rest => step_fcmd_of_not_command,
    fun s t d rest h ht => ?command, rfl⟩
  case read => exact step_read h
  case write => exact step_write_window h (by decide)
  case command =>
    exact issueCommand_fcmd (s := { s with host := rest, readData := none }) ((step_write_cmd h).symm.trans ht)

end Sys2Proof.Machine
end

section
/-! SUPPORT. Host writes of the X window and of one byte of TBUF (`20_memory.md` R24, R29, R32, R33): where the address map
sends them, and the bits and written marks they change. -/

namespace Sys2Proof.Machine

/-! ### The address map at X and TBUF -/

theorem Width.bytes_pos (w : Width) : 0 < w.bytes := by cases w <;> decide

theorem Width.bytes_dvd_eight (w : Width) : w.bytes ∣ 8 := by cases w <;> decide

/-- R29, R32: an aligned access within register Xi is accepted. -/
theorem locate_x (i : Reg) {k : Nat} {w : Width} (hk : k + w.bytes ≤ 8) (ha : k % w.bytes = 0) :
    locate (BitVec.ofNat 8 (8 * i.val + k)) w = .x i k := by
  have hpos := w.bytes_pos
  have ho : (8 * i.val + k) % 2 ^ 8 = 8 * i.val + k := by omega
  have hal : (8 * i.val + k) % w.bytes = 0 := by
    have hdvd : w.bytes ∣ 8 * i.val := w.bytes_dvd_eight.mul_right _
    exact Nat.mod_eq_zero_of_dvd (hdvd.add (Nat.dvd_of_mod_eq_zero ha))
  have hlt : 8 * i.val + k < 0x80 := by omega
  have hreg : Fin.ofNat 16 ((8 * i.val + k) / 8) = i := Fin.ext (by simp only [Fin.val_ofNat]; omega)
  have hbyte : (8 * i.val + k) % 8 = k := by omega
  simp only [locate, BitVec.toNat_ofNat, ho, hal, ne_eq, not_true_eq_false, if_false, if_pos hlt, hreg, hbyte]

/-- R29, R32: an access of one byte of TBUF is accepted. -/
theorem locate_tbuf_one {j : Nat} (hj : j < 64) : locate (BitVec.ofNat 8 (0xC0 + j)) .one = .tbuf j := by
  have ho : (0xC0 + j) % 2 ^ 8 = 0xC0 + j := by omega
  have hX : ¬ 0xC0 + j < 0x80 := by omega
  have hcontrol : ¬ 0xC0 + j < 0x94 := by omega
  have hreserved : ¬ 0xC0 + j < 0xC0 := by omega
  simp only [locate, BitVec.toNat_ofNat, ho, Width.bytes, Nat.mod_one, ne_eq, not_true_eq_false, if_false,
    if_neg hX, if_neg hcontrol, if_neg hreserved, Nat.add_sub_cancel_left]

/-! ### What a write of part of a register changes -/

/-- The bits of a run of `n` ones from bit `k`. -/
theorem getLsbD_ones_shiftLeft {m : Nat} (k n b : Nat) (hb : b < m) :
    (BitVec.ofNat m (2 ^ n - 1) <<< k).getLsbD b = decide (k ≤ b ∧ b < k + n) := by
  rw [Bool.eq_iff_iff]
  simp only [BitVec.getLsbD_shiftLeft, BitVec.getLsbD_ofNat, Nat.testBit_two_pow_sub_one, Bool.and_eq_true,
    Bool.not_eq_true', decide_eq_true_eq, decide_eq_false_iff_not]
  omega

theorem getLsbD_byteMask (k n b : Nat) (hb : b < 64) :
    (byteMask k n).getLsbD b = decide (8 * k ≤ b ∧ b < 8 * k + 8 * n) :=
  getLsbD_ones_shiftLeft (8 * k) (8 * n) b hb

section
variable (s : State) (r : Reg) (k n : Nat) (d : Word)

theorem getLsbD_reg_writeRegBytes (b : Nat) (hb : b < 64) :
    ((writeRegBytes r k n d s).reg r).getLsbD b =
      if 8 * k ≤ b ∧ b < 8 * k + 8 * n then d.getLsbD (b - 8 * k) else (s.reg r).getLsbD b := by
  have hreg : (writeRegBytes r k n d s).reg r =
      (s.reg r &&& ~~~ byteMask k n) ||| ((d <<< (8 * k)) &&& byteMask k n) := by
    simp [State.reg]
  simp only [hreg, BitVec.getLsbD_or, BitVec.getLsbD_and, BitVec.getLsbD_not, BitVec.getLsbD_shiftLeft,
    getLsbD_byteMask k n b hb, hb, decide_true, Bool.true_and]
  by_cases hin : 8 * k ≤ b ∧ b < 8 * k + 8 * n
  · simp [hin, Nat.not_lt.mpr hin.1]
  · simp only [hin, decide_false, Bool.not_false, Bool.and_true, Bool.and_false, Bool.or_false, if_false]

/-- R33: byte `j` of the register after a write of `n` bytes from byte `k`. -/
theorem byte_writeRegBytes (j : Nat) (hj : j < 8) :
    ((writeRegBytes r k n d s).reg r).extractLsb' (8 * j) 8 =
      if k ≤ j ∧ j < k + n then d.extractLsb' (8 * (j - k)) 8 else (s.reg r).extractLsb' (8 * j) 8 := by
  refine BitVec.eq_of_getLsbD_eq fun b hb => ?_
  have hbit := getLsbD_reg_writeRegBytes s r k n d (8 * j + b) (by omega)
  have hin : (8 * k ≤ 8 * j + b ∧ 8 * j + b < 8 * k + 8 * n) ↔ (k ≤ j ∧ j < k + n) := by omega
  simp only [hin] at hbit
  rw [BitVec.getLsbD_extractLsb', hbit]
  split
  case isTrue h =>
    have hsub : 8 * j + b - 8 * k = 8 * (j - k) + b := by omega
    rw [BitVec.getLsbD_extractLsb', hsub]
  case isFalse => rw [BitVec.getLsbD_extractLsb']

/-- R33: the written mark of byte `j` after that write. -/
theorem mark_writeRegBytes (j : Nat) (hj : j < 8) :
    (writeRegBytes r k n d s).xWritten[r.val].getLsbD j =
      (decide (k ≤ j ∧ j < k + n) || s.xWritten[r.val].getLsbD j) := by
  rw [← getLsbD_ones_shiftLeft k n j hj, Bool.or_comm]
  simp

/-- A write of part of Xr leaves the other registers and their marks. -/
theorem sameRegsBut_writeRegBytes : SameRegsBut [r] s (writeRegBytes r k n d s) := by
  intro q hq
  have hne : r.val ≠ q.val := fun e => hq (List.mem_singleton.mpr (Fin.ext e.symm))
  constructor <;> simp [State.reg, hne]

end

/-- R33: a register counts as written exactly when all 8 of its bytes do. -/
theorem isWritten_iff (s : State) (r : Reg) :
    s.isWritten r = true ↔ ∀ j, j < 8 → s.xWritten[r.val].getLsbD j = true := by
  rw [State.isWritten, beq_iff_eq]
  constructor
  · intro h j hj
    rw [h, BitVec.getLsbD_allOnes, decide_eq_true hj]
  · intro h
    exact BitVec.eq_of_getLsbD_eq fun j hj => by rw [h j hj, BitVec.getLsbD_allOnes, decide_eq_true hj]

/-! ### The statement -/

/-- Settles O17: the address map sends the access to its register or TBUF byte, where the write has the effect given by
`byte_writeRegBytes`, `mark_writeRegBytes` and `memWrite_read`. -/
theorem partialWritesChangeOnlyTheirBytes : Obligations.PartialWritesChangeOnlyTheirBytes := by
  refine ⟨fun s i k w d rest hk ha hs => ?register, fun s j d rest hj hs => ?text⟩
  case register =>
    have hl := locate_x i hk ha
    have hstep := step_write_window hs (by simp [hl])
    rw [hl] at hstep
    exact ⟨_, hstep, byte_writeRegBytes _ i k w.bytes d, mark_writeRegBytes _ i k w.bytes d, isWritten_iff _ i,
      sameRegsBut_writeRegBytes _ i k w.bytes d, rfl, rfl, rfl, ⟨rfl, fun _ => rfl⟩, rfl⟩
  case text =>
    have hl := locate_tbuf_one hj
    have hstep := step_write_window hs (by simp [hl])
    rw [hl] at hstep
    exact ⟨_, hstep, by simp [writeWindow, memWrite_read, Width.bytes, wordToBytes]⟩

end Sys2Proof.Machine
end

section
/-! SUPPORT. The decoder forwards, on all 2^32 words: R53's three refusals read off the columns of R51's printed table
(`30_encoding.md` R49 to R53). -/

namespace Sys2Proof

open Machine

/-! ### The columns of the printed table -/

/-- R43: the opcode is the word's six highest bits. -/
theorem unpack_op_toNat (w : CommandWord) : (Fields.unpack w).op.toNat = w.toNat / 2 ^ 26 := by
  simp only [Fields.unpack, BitVec.extractLsb'_toNat, Nat.shiftRight_eq_div_pow]
  omega

/-- R51: a printed row is a row of the decoder's map, its mask covers the opcode and the unused fields (R50), and its match
is the word of the opcode alone. -/
theorem opcodeRow_of_mem {op : Nat} {mtch mask : CommandWord} (h : (op, mtch, mask) ∈ opcodeMap) :
    ∃ row, opcodeRow op = some row ∧ row.use.mask = mask ∧ mtch = Fields.pack { op := BitVec.ofNat 6 op } := by
  have hrows : ∀ r ∈ opcodeMap, (opcodeRow r.1).map (fun row => row.use.mask) = some r.2.2 ∧
      r.2.1 = Fields.pack { op := BitVec.ofNat 6 r.1 } := by decide
  obtain ⟨hmask, hmatch⟩ := hrows _ h
  obtain ⟨row, hrow, hmask⟩ := Option.map_eq_some_iff.mp hmask
  exact ⟨row, hrow, hmask, hmatch⟩

/-- R52 item 1: an opcode the printed table does not list is unassigned. -/
theorem opcodeRow_eq_none {op : Nat} (hop : op < 64) (h : ∀ row ∈ opcodeMap, row.1 ≠ op) : opcodeRow op = none := by
  have hrows : ∀ op < 64, opcodeRow op = none ∨ ∃ row ∈ opcodeMap, row.1 = op := by
    simp only [← Option.isNone_iff_eq_none]
    decide
  obtain hnone | ⟨row, hmem, hrow⟩ := hrows op hop
  · exact hnone
  · exact absurd hrow (h row hmem)

/-- R50: a field's part of the mask is 0 where the opcode uses the field, and all ones where it does not. -/
theorem and_fieldMask_eq_zero_iff {k : Nat} (b : BitVec k) (used : Bool) :
    b &&& (if used then 0 else BitVec.allOnes k) = 0 ↔ used = true ∨ b = 0 := by
  cases used <;> simp

/-- R50, R51: a word meets its row's mask and match exactly when its unused fields are 0. -/
theorem and_mask_eq_match_iff (w : CommandWord) (u : FieldUse) :
    w &&& u.mask = Fields.pack { op := (Fields.unpack w).op } ↔ (Fields.unpack w).unusedZero u = true := by
  have hunpack : w &&& u.mask = Fields.pack { op := (Fields.unpack w).op } ↔
      Fields.unpack (w &&& u.mask) = { op := (Fields.unpack w).op } :=
    ⟨fun h => by rw [h, Fields.unpack_pack], fun h => by rw [← h, Fields.pack_unpack]⟩
  rw [hunpack, Fields.unpack_and, FieldUse.mask, Fields.unpack_pack, Fields.unusedZero_iff]
  simp only [Fields.mk.injEq, BitVec.and_allOnes, true_and, and_fieldMask_eq_zero_iff]

/-! ### The destination pair -/

/-- R49, R52 item 3: the fields are those of WMULS (0x09) or WMULU (0x0A) with rd = rc. -/
def Fields.DestConflict (f : Fields) : Prop := (f.op.toNat = 0x09 ∨ f.op.toNat = 0x0A) ∧ f.rd = f.rc

theorem regBits_inj {q r : Reg} : regBits q = regBits r ↔ q = r :=
  (Function.LeftInverse.injective regOfBits_regBits).eq_iff

theorem wellFormed_iff_not_destConflict (i : Instr) : i.wellFormed = true ↔ ¬ i.fields.DestConflict := by
  cases i <;> simp [Instr.wellFormed, Instr.fields, Fields.DestConflict, regBits_inj]

/-- The command a row builds has the fields it was built from (`fields_build`), so the check on its destinations is one on
the word. -/
theorem wellFormed_build_iff {f : Fields} {row : OpcodeRow} (hrow : opcodeRow f.op.toNat = some row)
    (hz : f.unusedZero row.use = true) : (row.build f).wellFormed = true ↔ ¬ f.DestConflict := by
  rw [wellFormed_iff_not_destConflict, fields_build f row hrow hz]

/-! ### The decoder, given the word's row -/

section
variable {w : CommandWord} {row : OpcodeRow}

theorem decode_eq_unassignedOpcode (hrow : opcodeRow (Fields.unpack w).op.toNat = none) :
    decode w = .error .unassignedOpcode := by
  simp only [decode, hrow]

theorem decode_eq_reservedField (hrow : opcodeRow (Fields.unpack w).op.toNat = some row)
    (hz : ¬ (Fields.unpack w).unusedZero row.use = true) : decode w = .error .reservedField := by
  simp only [decode, hrow, if_neg hz]

theorem decode_eq_destConflict (hrow : opcodeRow (Fields.unpack w).op.toNat = some row)
    (hz : (Fields.unpack w).unusedZero row.use = true) (hd : (Fields.unpack w).DestConflict) :
    decode w = .error .destConflict := by
  have hwf : ¬ (row.build (Fields.unpack w)).wellFormed = true := fun h => (wellFormed_build_iff hrow hz).mp h hd
  simp only [decode, hrow, if_pos hz, if_neg hwf]

theorem decode_eq_ok (hrow : opcodeRow (Fields.unpack w).op.toNat = some row)
    (hz : (Fields.unpack w).unusedZero row.use = true) (hd : ¬ (Fields.unpack w).DestConflict) :
    decode w = .ok (row.build (Fields.unpack w)) := by
  simp only [decode, hrow, if_pos hz, if_pos ((wellFormed_build_iff hrow hz).mpr hd)]

end

/-! ### The statement -/

/-- Settles O2: a printed row is the decoder's (`opcodeRow_of_mem`), its mask and match test the unused fields
(`and_mask_eq_match_iff`), and a word that passes both checks decodes to the command the row builds from its fields. -/
theorem decodeFollowsTheOpcodeMap : Obligations.DecodeFollowsTheOpcodeMap := by
  intro w
  rw [← unpack_op_toNat]
  refine ⟨fun hrows => ?unassigned, fun op mtch mask hmem hop => ?assigned⟩
  case unassigned =>
    exact decode_eq_unassignedOpcode (opcodeRow_eq_none (Fields.unpack w).op.isLt hrows)
  case assigned =>
    subst hop
    obtain ⟨row, hrow, rfl, rfl⟩ := opcodeRow_of_mem hmem
    rw [BitVec.ofNat_toNat, BitVec.setWidth_eq, ne_eq, and_mask_eq_match_iff]
    refine ⟨decode_eq_reservedField hrow, fun hz hop hd => decode_eq_destConflict hrow hz ⟨hop, hd⟩, fun hz hd => ?_⟩
    have hok := decode_eq_ok hrow hz hd
    exact ⟨_, hok, fields_of_decode hok, (wellFormed_build_iff hrow hz).mpr hd, encode_of_decode hok⟩

end Sys2Proof
end

section
/-! SUPPORT. `Round` (`43_rounding.md` R83 to R86) meets the rational reading of the modes (`RoundsTo`, R87): the exact value
is split into its truncation and the part cut off, and each mode is read off that split. -/

namespace Sys2Proof.Machine

/-! ### The truncation and the part cut off -/

/-- The rational a `Ratio` stands for. -/
def Ratio.toRat (q : Ratio) : ℚ := (q.num : ℚ) / q.den

/-- The sign of the exact value, as R85 takes it. -/
def Ratio.neg (q : Ratio) : Bool := decide (q.num < 0)

/-- The size of the part that truncation cuts off, a number in `[0, 1)`. -/
def Ratio.cut (q : Ratio) : ℚ := ((q.num.natAbs % q.den : Nat) : ℚ) / q.den

@[simp] theorem signStep_true : signStep true = -1 := rfl
@[simp] theorem signStep_false : signStep false = 1 := rfl

theorem num_eq_signStep_mul (q : Ratio) : q.num = signStep q.neg * q.num.natAbs := by
  by_cases h : q.num < 0
  · rw [Ratio.neg, decide_eq_true h, signStep_true]
    omega
  · rw [Ratio.neg, decide_eq_false h, signStep_false]
    omega

theorem natAbs_signStep_mul (neg : Bool) (m : Nat) : (signStep neg * (m : Int)).natAbs = m := by
  cases neg <;> simp

/-- R10: truncation divides the magnitude and keeps the sign. -/
theorem trunc_eq_signStep_mul (q : Ratio) : q.trunc = signStep q.neg * ((q.num.natAbs / q.den : Nat) : Int) := by
  rw [Ratio.trunc, num_eq_signStep_mul q, natAbs_signStep_mul]
  cases q.neg <;> simp only [signStep_true, signStep_false, one_mul, neg_one_mul,
    Int.neg_tdiv, Int.ofNat_tdiv]

theorem rem_eq_signStep_mul (q : Ratio) : q.rem = signStep q.neg * ((q.num.natAbs % q.den : Nat) : Int) := by
  rw [Ratio.rem, num_eq_signStep_mul q, natAbs_signStep_mul]
  cases q.neg <;> simp only [signStep_true, signStep_false, one_mul, neg_one_mul,
    Int.neg_tmod, Int.ofNat_tmod]

theorem natAbs_rem (q : Ratio) : q.rem.natAbs = q.num.natAbs % q.den := by
  rw [rem_eq_signStep_mul, natAbs_signStep_mul]

section
variable {q : Ratio} (hden : 0 < q.den)
include hden

theorem toRat_eq_trunc_add_cut : q.toRat = q.trunc + signStep q.neg * q.cut := by
  have hd : (q.den : ℚ) ≠ 0 := by exact_mod_cast hden.ne'
  rw [Ratio.toRat, num_eq_signStep_mul q, trunc_eq_signStep_mul, Ratio.cut]
  have hdiv := Nat.div_add_mod q.num.natAbs q.den
  generalize q.num.natAbs / q.den = k at hdiv ⊢
  generalize q.num.natAbs % q.den = l at hdiv ⊢
  rw [← hdiv]
  push_cast
  field_simp

theorem cut_lt_one : q.cut < 1 := by
  rw [Ratio.cut, div_lt_one (by exact_mod_cast hden)]
  exact_mod_cast Nat.mod_lt _ hden

theorem cut_eq_zero_iff : q.cut = 0 ↔ q.isInt := by
  rw [Ratio.isInt, ← Int.natAbs_eq_zero, natAbs_rem, Ratio.cut, div_eq_zero_iff]
  have hd : (q.den : ℚ) ≠ 0 := by exact_mod_cast hden.ne'
  simp [hd]

end

theorem cut_nonneg (q : Ratio) : 0 ≤ q.cut := by rw [Ratio.cut]; positivity

/-! ### The TruncatedPart -/

/-- R83: the part `p` tells where `f`, the size of what truncation cuts off, lies. -/
def TruncatedPart.Holds (p : TruncatedPart) (f : ℚ) : Prop :=
  match p with
  | .zero => f = 0
  | .lessThanHalf => 0 < f ∧ f < 1 / 2
  | .equalToHalf => f = 1 / 2
  | .greaterThanHalf => 1 / 2 < f

/-- R84: comparing `2|r|` with the divisor finds the part. -/
theorem classify_holds {q : Ratio} (hden : 0 < q.den) : (classify q.rem q.den).Holds q.cut := by
  have hd : (0 : ℚ) < q.den := by exact_mod_cast hden
  have hpos : q.rem ≠ 0 → 0 < q.cut := fun h =>
    (cut_nonneg q).lt_of_ne fun h0 => h ((cut_eq_zero_iff hden).mp h0.symm)
  unfold classify
  rw [natAbs_rem, Int.natAbs_natCast]
  split_ifs with hzero hlt heq
  · exact (cut_eq_zero_iff hden).mpr hzero
  · refine ⟨hpos hzero, ?_⟩
    rw [Ratio.cut, div_lt_div_iff₀ hd two_pos]
    exact_mod_cast (by omega : q.num.natAbs % q.den * 2 < 1 * q.den)
  · change q.cut = 1 / 2
    rw [Ratio.cut, div_eq_div_iff hd.ne' two_ne_zero]
    exact_mod_cast (by omega : q.num.natAbs % q.den * 2 = 1 * q.den)
  · change 1 / 2 < q.cut
    rw [Ratio.cut, div_lt_div_iff₀ two_pos hd]
    exact_mod_cast (by omega : 1 * q.den < q.num.natAbs % q.den * 2)

section
variable {p : TruncatedPart} {f : ℚ} (h : p.Holds f) (hf : 0 < f)

include h hf in
theorem TruncatedPart.Holds.eq_lessThanHalf_iff : p = .lessThanHalf ↔ f < 1 / 2 := by
  cases p <;> simp only [TruncatedPart.Holds] at h <;> simp only [reduceCtorEq, false_iff, true_iff] <;> linarith

include h in
theorem TruncatedPart.Holds.eq_equalToHalf_iff : p = .equalToHalf ↔ f = 1 / 2 := by
  cases p <;> simp only [TruncatedPart.Holds] at h <;> simp only [reduceCtorEq, false_iff, h] <;> linarith

include h in
theorem TruncatedPart.Holds.eq_greaterThanHalf_iff : p = .greaterThanHalf ↔ 1 / 2 < f := by
  cases p <;> simp only [TruncatedPart.Holds] at h <;> simp only [reduceCtorEq, false_iff, true_iff] <;> linarith

end

/-! ### Where a value between two integers rounds -/

/-- The value `x` lies between the integer `n`, its truncation, and the next integer away from zero, at the distance `f`
from `n`. -/
structure Between (neg : Bool) (n : Int) (f x : ℚ) : Prop where
  eq : x = n + signStep neg * f
  pos : 0 < f
  lt_one : f < 1
  toward : 0 ≤ signStep neg * n

theorem between_of_not_isInt {q : Ratio} (hden : 0 < q.den) (h : ¬ q.isInt) : Between q.neg q.trunc q.cut q.toRat where
  eq := toRat_eq_trunc_add_cut hden
  pos := (cut_nonneg q).lt_of_ne fun h0 => h ((cut_eq_zero_iff hden).mp h0.symm)
  lt_one := cut_lt_one hden
  toward := by
    rw [trunc_eq_signStep_mul]
    generalize q.num.natAbs / q.den = k
    cases q.neg <;> simp only [signStep_true, signStep_false] <;> omega

namespace Between
variable {neg : Bool} {n : Int} {f x : ℚ} (h : Between neg n f x)
include h

theorem toward_rat : (0 : ℚ) ≤ signStep neg * n := by exact_mod_cast h.toward

theorem floor_eq : ⌊x⌋ = if neg then n - 1 else n := by
  obtain ⟨heq, hpos, hlt, -⟩ := h
  rw [Int.floor_eq_iff]
  cases neg <;> simp at heq ⊢ <;> constructor <;> linarith

theorem ceil_eq : ⌈x⌉ = if neg then n else n + 1 := by
  obtain ⟨heq, hpos, hlt, -⟩ := h
  rw [Int.ceil_eq_iff]
  cases neg <;> simp at heq ⊢ <;> constructor <;> linarith

theorem nonneg_iff : 0 ≤ x ↔ neg = false := by
  have ht := h.toward_rat
  obtain ⟨heq, hpos, -, -⟩ := h
  rw [heq]
  cases neg <;> simp only [signStep_true, signStep_false] at ht ⊢ <;> push_cast at ht ⊢
  · simp only [iff_true]
    linarith
  · simp only [iff_false, not_le]
    linarith

theorem not_int (r : Int) : (r : ℚ) ≠ x := by
  rintro rfl
  have hf := h.floor_eq
  have hc := h.ceil_eq
  rw [Int.floor_intCast] at hf
  rw [Int.ceil_intCast, hf] at hc
  cases neg <;> simp at hc

/-- A mode to the nearest integer chooses one of the two neighbours. -/
theorem eq_or_eq_of_nearest {r : Int} (hr : |x - r| ≤ 1 / 2) : r = n ∨ r = n + signStep neg := by
  obtain ⟨hlo, hhi⟩ := abs_le.mp hr
  obtain ⟨heq, hpos, hlt, -⟩ := h
  cases neg <;> simp only [signStep_true, signStep_false] at heq ⊢ <;> push_cast at heq
  · have h1 : (n : ℚ) - 1 < r := by linarith
    have h2 : (r : ℚ) < n + 2 := by linarith
    norm_cast at h1 h2
    omega
  · have h1 : (n : ℚ) - 2 < r := by linarith
    have h2 : (r : ℚ) < n + 1 := by linarith
    norm_cast at h1 h2
    omega

theorem abs_sub_trunc : |x - n| = f := by
  rw [h.eq, add_sub_cancel_left]
  cases neg <;> simp [abs_of_pos h.pos]

theorem abs_sub_away : |x - (n + signStep neg : Int)| = 1 - f := by
  have hdiff : x - (n + signStep neg : Int) = -signStep neg * (1 - f) := by
    rw [h.eq]
    push_cast
    ring
  have hf : 0 ≤ 1 - f := sub_nonneg.mpr h.lt_one.le
  rw [hdiff]
  cases neg <;> simp [abs_of_nonneg hf, abs_sub_comm f 1]

theorem abs_add_signStep_mul {k : ℚ} (hk : 0 ≤ k) : |(n : ℚ) + signStep neg * k| = |(n : ℚ)| + k := by
  have ht := h.toward_rat
  cases neg <;> simp only [signStep_true, signStep_false] at ht ⊢ <;> push_cast at ht ⊢
  · rw [abs_of_nonneg (by linarith), abs_of_nonneg (by linarith), one_mul]
  · rw [abs_of_nonpos (by linarith), abs_of_nonpos (by linarith)]
    ring

theorem abs_eq : |x| = |(n : ℚ)| + f := by rw [h.eq, h.abs_add_signStep_mul h.pos.le]

theorem abs_away : |((n + signStep neg : Int) : ℚ)| = |(n : ℚ)| + 1 := by
  rw [← h.abs_add_signStep_mul zero_le_one, mul_one]
  push_cast
  rfl

/-- The two ends of a rounding to nearest: the truncation, with at most half cut off, or the integer beyond, with at least
half; a tie is exactly half. -/
theorem nearest_cases {r : Int} (hr : |x - r| ≤ 1 / 2) :
    (r = n ∧ f ≤ 1 / 2 ∧ (|x - r| = 1 / 2 ↔ f = 1 / 2) ∧ |(r : ℚ)| < |x|) ∨
      (r = n + signStep neg ∧ 1 / 2 ≤ f ∧ (|x - r| = 1 / 2 ↔ f = 1 / 2) ∧ |x| < |(r : ℚ)|) := by
  obtain rfl | rfl := h.eq_or_eq_of_nearest hr
  · rw [h.abs_sub_trunc] at hr ⊢
    exact .inl ⟨rfl, hr, .rfl, by linarith [h.abs_eq, h.pos]⟩
  · rw [h.abs_sub_away] at hr ⊢
    refine .inr ⟨rfl, by linarith, ⟨fun e => by linarith, fun e => by linarith⟩, ?_⟩
    rw [h.abs_eq, h.abs_away]
    linarith [h.lt_one]

end Between

/-! ### Round -/

/-- R85: the increment table takes an inexact value to the integer its mode asks for. -/
theorem incrementFor_of_roundsTo {neg : Bool} {n r : Int} {f x : ℚ} {p : TruncatedPart} {m : RoundingMode}
    (h : Between neg n f x) (hp : p.Holds f) (hr : RoundsTo x m r) :
    incrementFor m neg (decide (n % 2 ≠ 0)) p = .ok (r - n) := by
  unfold incrementFor
  split
  case h_1 => exact absurd hp h.pos.ne'
  case h_2 =>
    cases m <;> simp only [RoundsTo] at hr <;> simp only [Except.ok.injEq]
    case up =>
      rw [hr, h.floor_eq, h.ceil_eq]
      simp only [h.nonneg_iff]
      cases neg <;> simp
    case down =>
      rw [hr, h.floor_eq, h.ceil_eq]
      simp only [h.nonneg_iff]
      cases neg <;> simp
    case ceiling =>
      rw [hr, h.ceil_eq]
      cases neg <;> simp
    case floor =>
      rw [hr, h.floor_eq]
      cases neg <;> simp
    case halfUp =>
      obtain ⟨hnear, htie⟩ := hr
      simp only [hp.eq_lessThanHalf_iff h.pos]
      obtain ⟨rfl, hf, hhalf, habs⟩ | ⟨rfl, hf, -, -⟩ := h.nearest_cases hnear
      · have hlt : f < 1 / 2 := lt_of_le_of_ne hf fun e => habs.not_gt (htie (hhalf.mpr e))
        rw [if_pos hlt, sub_self]
      · rw [if_neg hf.not_gt, add_sub_cancel_left]
    case halfDown =>
      obtain ⟨hnear, htie⟩ := hr
      simp only [hp.eq_greaterThanHalf_iff]
      obtain ⟨rfl, hf, -, -⟩ | ⟨rfl, hf, hhalf, habs⟩ := h.nearest_cases hnear
      · rw [if_neg hf.not_gt, sub_self]
      · have hlt : 1 / 2 < f := lt_of_le_of_ne hf fun e => habs.not_gt (htie (hhalf.mpr e.symm))
        rw [if_pos hlt, add_sub_cancel_left]
    case halfEven =>
      obtain ⟨hnear, htie⟩ := hr
      simp only [hp.eq_greaterThanHalf_iff, hp.eq_equalToHalf_iff, decide_eq_true_eq]
      obtain ⟨rfl, hf, hhalf, -⟩ | ⟨rfl, hf, hhalf, -⟩ := h.nearest_cases hnear
      · have hstay : ¬ (1 / 2 < f ∨ f = 1 / 2 ∧ r % 2 ≠ 0) := by
          rintro (hlt | ⟨heq, hodd⟩)
          · exact hf.not_gt hlt
          · exact hodd (htie (hhalf.mpr heq))
        rw [if_neg hstay, sub_self]
      · have hmove : 1 / 2 < f ∨ f = 1 / 2 ∧ n % 2 ≠ 0 := by
          refine hf.lt_or_eq.imp_right fun heq => ⟨heq.symm, fun heven => ?_⟩
          have hodd := htie (hhalf.mpr heq.symm)
          cases neg <;> simp only [signStep_true, signStep_false] at hodd <;> omega
        rw [if_pos hmove, add_sub_cancel_left]
    case unnecessary => exact absurd hr (h.not_int r)

/-- R87: an integer rounds to itself, under every mode. -/
theorem eq_of_roundsTo_int {n r : Int} {m : RoundingMode} (h : RoundsTo (n : ℚ) m r) : r = n := by
  have hnear (hr : |(n : ℚ) - r| ≤ 1 / 2) : r = n := by
    obtain ⟨hlo, hhi⟩ := abs_le.mp hr
    have h1 : (n : ℚ) - 1 < r := by linarith
    have h2 : (r : ℚ) < n + 1 := by linarith
    norm_cast at h1 h2
    omega
  cases m <;> simp only [RoundsTo, Int.floor_intCast, Int.ceil_intCast, ite_self, Int.cast_inj] at h
  case halfUp => exact hnear h.1
  case halfDown => exact hnear h.1
  case halfEven => exact hnear h.1
  all_goals exact h

/-- A `Ratio` is an integer exactly when the rational it stands for is one. -/
theorem isInt_iff_exists {q : Ratio} (hden : 0 < q.den) : q.isInt ↔ ∃ r : Int, (r : ℚ) = q.toRat := by
  constructor
  · intro h
    exact ⟨q.trunc, by rw [toRat_eq_trunc_add_cut hden, (cut_eq_zero_iff hden).mpr h, mul_zero, add_zero]⟩
  · rintro ⟨r, hr⟩
    by_contra h
    exact (between_of_not_isInt hden h).not_int r hr

/-- R86, R87: the machine's rounding finds the integer that the mode asks for. -/
theorem round_of_roundsTo {q : Ratio} {m : RoundingMode} {r : Int} (hden : 0 < q.den) (h : RoundsTo q.toRat m r) :
    round q m = .ok r := by
  have hinc : incrementFor m q.neg (decide (q.trunc % 2 ≠ 0)) (classify q.rem q.den) = .ok (r - q.trunc) := by
    by_cases hint : q.isInt
    · have hx : q.toRat = q.trunc := by
        rw [toRat_eq_trunc_add_cut hden, (cut_eq_zero_iff hden).mpr hint, mul_zero, add_zero]
      rw [hx] at h
      simp only [classify, if_pos hint, incrementFor, eq_of_roundsTo_int h, sub_self]
    · exact incrementFor_of_roundsTo (between_of_not_isInt hden hint) (classify_holds hden) h
  rw [Ratio.neg] at hinc
  simp only [round, hinc, add_sub_cancel]

end Sys2Proof.Machine
end

section
/-! SUPPORT. How a command that rounds an exact value under checking ends (`43_rounding.md` R88): said once for `DecResult`,
then for every command whose meaning is `finishRounded`. -/

namespace Sys2Proof.Machine

section
variable {q : Ratio} (hden : 0 < q.den)
include hden

theorem outOfRange_iff : OutOfRange q.toRat ↔ q.ltInt minWord ∨ q.gtInt maxWord := by
  have hd : (0 : ℚ) < q.den := by exact_mod_cast hden
  rw [OutOfRange, Ratio.toRat, div_lt_iff₀ hd, lt_div_iff₀ hd, Ratio.ltInt, Ratio.gtInt]
  norm_cast

/-- R88: where the exact value rounds, the rounded integer is what is fitted into a word. -/
theorem decResult_of_roundsTo {c : OpContext} {ov : OverflowMode} {r : Int} (h : RoundsTo q.toRat c.rm r) :
    decResult c q ov = fitResult c ov r := by
  have hexact : ¬ (c.rm = .unnecessary ∧ ¬ q.isInt) := by
    rintro ⟨hrm, hint⟩
    rw [hrm] at h
    exact hint ((isInt_iff_exists hden).mpr ⟨r, h⟩)
  rw [decResult, if_neg hexact, round_of_roundsTo hden h]

/-- R88: an inexact value under UNNECESSARY, in range. -/
theorem decResult_of_inexact {c : OpContext} {ov : OverflowMode} (hrm : c.rm = .unnecessary)
    (hint : ¬ ∃ r : Int, (r : ℚ) = q.toRat) (hrange : ¬ OutOfRange q.toRat) :
    decResult c q ov = .error .roundingNecessary := by
  rw [← isInt_iff_exists hden] at hint
  rw [outOfRange_iff hden] at hrange
  rw [decResult, if_pos ⟨hrm, hint⟩, if_neg fun h => hrange h.2]

/-- R88, R122: an inexact value under UNNECESSARY, out of range and checked. -/
theorem decResult_of_inexact_outOfRange {c : OpContext} (hrm : c.rm = .unnecessary)
    (hint : ¬ ∃ r : Int, (r : ℚ) = q.toRat) (hrange : OutOfRange q.toRat) :
    decResult c q .checked = .error (arithFaultChoice c) := by
  rw [← isInt_iff_exists hden] at hint
  rw [outOfRange_iff hden] at hrange
  rw [decResult, if_pos ⟨hrm, hint⟩, if_pos ⟨rfl, hrange⟩]

end

section
variable {i : Instr} {rd : Reg} {operands : List Word} {k : Nat} {rm : RoundingMode} {srcs : List Reg} {q : Ratio}
  {s : State} (hexec : exec i s = finishRounded i rd operands k rm .checked q (srcs.foldl State.noteRead s))
include hexec

theorem completes_of_decResult_ok {w : Word} (h : decResult ⟨i.opcode, operands, k, rm⟩ q .checked = .ok w) :
    ∃ t, exec i s = .next t ∧ Completes rd w srcs s t := by
  rw [hexec, finishRounded, h]
  exact ⟨_, rfl, completes_writeReg rd w srcs s⟩

theorem faults_of_decResult_error {e : EngineFault}
    (h : decResult ⟨i.opcode, operands, k, rm⟩ q .checked = .error e) :
    ∃ t, exec i s = .next t ∧ Faults (encode i) e.err e.sub s.status.v srcs s t := by
  rw [hexec, finishRounded, h]
  exact ⟨_, rfl, faults_takeFault (encode i) e srcs s⟩

theorem roundsAndCompletes_of_finishRounded (hden : 0 < q.den) : RoundsAndCompletes i rd srcs q.toRat rm s := by
  intro r hr hfit
  refine completes_of_decResult_ok hexec ?_
  rw [decResult_of_roundsTo hden hr, fitResult, if_pos hfit, word64]

theorem roundsOrFaultsChecked_of_finishRounded (hden : 0 < q.den) : RoundsOrFaultsChecked i srcs q.toRat rm s := by
  refine ⟨fun hrange hrm hint => ?inexact, fun hrm hint hrange => ?inexactOutOfRange, fun r hr hfit => ?overflow⟩
  case inexact => exact faults_of_decResult_error hexec (decResult_of_inexact hden hrm hint hrange)
  case inexactOutOfRange =>
    have hres := decResult_of_inexact_outOfRange (c := ⟨i.opcode, operands, k, rm⟩) hden hrm hint hrange
    obtain hchoice | hchoice := arithFaultChoice_cases ⟨i.opcode, operands, k, rm⟩ <;> rw [hchoice] at hres <;>
      obtain ⟨t, ht, hfaults⟩ := faults_of_decResult_error hexec hres
    · exact ⟨t, ht, .inl hfaults⟩
    · exact ⟨t, ht, .inr hfaults⟩
  case overflow =>
    refine faults_of_decResult_error (e := .overflow) hexec ?_
    rw [decResult_of_roundsTo hden hr, fitResult, if_neg hfit, if_pos rfl]

end

end Sys2Proof.Machine
end

section
/-! SUPPORT. The grammar of literals (`47_string.md` R115) against the reader of texts: each part of the reader finds exactly
the part of the grammar it is for. -/

namespace Sys2Proof.Machine

/-! ### Digits -/

theorem digitValue_asciiDigit {d : Nat} (hd : d < 10) : digitValue (asciiDigit d) = some d := by
  have hn : (asciiDigit d).toNat = 48 + d := by
    rw [asciiDigit, BitVec.toNat_ofNat]
    omega
  rw [digitValue, hn, if_pos (by omega)]
  congr 1
  omega

/-- R31: a character with a digit's value is that digit's. -/
theorem eq_asciiDigit_of_digitValue {c : Byte} {d : Nat} (h : digitValue c = some d) : d < 10 ∧ c = asciiDigit d := by
  obtain ⟨hrange, hd⟩ := Option.ite_none_right_eq_some.mp h
  cases hd
  refine ⟨by omega, BitVec.eq_of_toNat_eq ?_⟩
  rw [asciiDigit, BitVec.toNat_ofNat]
  omega

theorem takeDigits_cons_digit {d : Nat} (hd : d < 10) (cs : List Byte) :
    takeDigits (asciiDigit d :: cs) = (d :: (takeDigits cs).1, (takeDigits cs).2) := by
  simp only [takeDigits, digitValue_asciiDigit hd]

/-- The digits a text starts with, up to a character that is none. -/
theorem takeDigits_append {ds : List Nat} {rest : List Byte} (hds : ∀ d ∈ ds, d < 10)
    (hrest : takeDigits rest = ([], rest)) : takeDigits (ds.map asciiDigit ++ rest) = (ds, rest) := by
  induction ds with
  | nil => exact hrest
  | cons d ds ih =>
    obtain ⟨hd, hds⟩ := List.forall_mem_cons.mp hds
    rw [List.map_cons, List.cons_append, takeDigits_cons_digit hd, ih hds]

theorem takeDigits_map_asciiDigit {ds : List Nat} (hds : ∀ d ∈ ds, d < 10) :
    takeDigits (ds.map asciiDigit) = (ds, []) := by
  simpa using takeDigits_append hds (rest := []) rfl

/-- What is taken and what is left make up the text. -/
theorem takeDigits_spec (t : List Byte) :
    (∀ d ∈ (takeDigits t).1, d < 10) ∧ t = (takeDigits t).1.map asciiDigit ++ (takeDigits t).2 := by
  induction t with
  | nil => simp [takeDigits]
  | cons c cs ih =>
    obtain ⟨hlt, hcs⟩ := ih
    cases hc : digitValue c with
    | none => simp [takeDigits, hc]
    | some d =>
      obtain ⟨hd, rfl⟩ := eq_asciiDigit_of_digitValue hc
      rw [takeDigits_cons_digit hd]
      exact ⟨List.forall_mem_cons.mpr ⟨hd, hlt⟩, congrArg (asciiDigit d :: ·) hcs⟩

theorem digitsNumber_eq_denotes (ds : List Nat) : digitsNumber ds = denotes ds := by
  rw [digitsNumber, denotes, Nat.ofDigits_eq_foldr, List.foldr_reverse]
  simp only [add_comm, Nat.cast_id]

/-! ### The sign -/

/-- R115: the characters of an optional sign, with whether it is `-`. -/
def IsSign (neg : Bool) (sign : List Byte) : Prop :=
  (neg = false ∧ (sign = [] ∨ sign = [plusChar])) ∨ (neg = true ∧ sign = [minusChar])

theorem takeSign_append {sign : List Byte} {neg : Bool} {c : Byte} {cs : List Byte} (h : IsSign neg sign)
    (hplus : c ≠ plusChar) (hminus : c ≠ minusChar) : takeSign (sign ++ c :: cs) = (neg, c :: cs) := by
  obtain ⟨rfl, rfl | rfl⟩ | ⟨rfl, rfl⟩ := h
  · simp only [List.nil_append, takeSign, if_neg hplus, if_neg hminus]
  · rfl
  · rfl

theorem takeSign_spec (t : List Byte) : ∃ sign, IsSign (takeSign t).1 sign ∧ t = sign ++ (takeSign t).2 := by
  cases t with
  | nil => exact ⟨[], .inl ⟨rfl, .inl rfl⟩, rfl⟩
  | cons c cs =>
    by_cases hplus : c = plusChar
    · exact ⟨[plusChar], by simp [takeSign, IsSign, hplus], by simp [takeSign, hplus]⟩
    · by_cases hminus : c = minusChar
      · subst hminus
        exact ⟨[minusChar], .inr ⟨rfl, rfl⟩, rfl⟩
      · exact ⟨[], by simp [takeSign, IsSign, hplus, hminus], by simp [takeSign, hplus, hminus]⟩

theorem asciiDigit_ne {d : Nat} (hd : d < 10) {c : Byte} (hc : digitValue c = none) : asciiDigit d ≠ c := by
  rintro rfl
  rw [digitValue_asciiDigit hd] at hc
  cases hc

/-! ### Literals -/

/-- R115: the fraction of a literal: nothing, or the point and its digits. -/
def fractionText (fp : List Nat) : List Byte := if fp = [] then [] else pointChar :: fp.map asciiDigit

/-- R115: the text `t` is the literal with the sign `neg`, the integral digits `ip` and the fractional digits `fp`. -/
def LiteralText (neg : Bool) (ip fp : List Nat) (t : List Byte) : Prop :=
  ip ≠ [] ∧ (∀ d ∈ ip ++ fp, d < 10) ∧ ∃ sign, IsSign neg sign ∧ t = sign ++ (ip.map asciiDigit ++ fractionText fp)

@[simp] theorem fractionText_nil : fractionText [] = [] := rfl

theorem fractionText_of_ne_nil {fp : List Nat} (h : fp ≠ []) : fractionText fp = pointChar :: fp.map asciiDigit :=
  if_neg h

theorem takeDigits_fractionText (fp : List Nat) : takeDigits (fractionText fp) = ([], fractionText fp) := by
  unfold fractionText
  split <;> rfl

theorem toRat_literalValue (neg : Bool) (ip fp : List Nat) :
    (literalValue neg ip fp).toRat = (if neg then -1 else 1) * ((denotes (ip ++ fp) : ℚ) / 10 ^ fp.length) := by
  simp only [Ratio.toRat, literalValue, digitsNumber_eq_denotes]
  cases neg
  · simp
  · simp [neg_div]

theorem den_literalValue_pos (neg : Bool) (ip fp : List Nat) : 0 < (literalValue neg ip fp).den :=
  Nat.pow_pos (by decide)

theorem isLiteral_iff (t : List Byte) (v : ℚ) :
    IsLiteral t v ↔ ∃ neg ip fp, LiteralText neg ip fp t ∧ v = (literalValue neg ip fp).toRat := by
  constructor
  · rintro ⟨sign, ip, fp, hsign, hip, hdigits, rfl, rfl⟩
    have hs : IsSign (decide (sign = [minusChar])) sign := by
      obtain rfl | rfl | rfl := hsign <;> simp [IsSign, plusChar, minusChar]
    refine ⟨_, ip, fp, ⟨hip, hdigits, sign, hs, List.append_assoc ..⟩, ?_⟩
    rw [toRat_literalValue, minusChar]
    simp only [decide_eq_true_eq]
  · rintro ⟨neg, ip, fp, ⟨hip, hdigits, sign, hsign, rfl⟩, rfl⟩
    refine ⟨sign, ip, fp, ?_, hip, hdigits, (List.append_assoc ..).symm, ?_⟩
    · obtain ⟨-, rfl | rfl⟩ | ⟨-, rfl⟩ := hsign <;> simp [plusChar, minusChar]
    · rw [toRat_literalValue]
      obtain ⟨rfl, rfl | rfl⟩ | ⟨rfl, rfl⟩ := hsign <;> simp [plusChar, minusChar]

/-- R115: a literal is read as its value. -/
theorem parseLiteral_of_literalText {neg : Bool} {ip fp : List Nat} {t : List Byte} (h : LiteralText neg ip fp t) :
    parseLiteral t = some (literalValue neg ip fp) := by
  obtain ⟨hip, hdigits, sign, hsign, rfl⟩ := h
  obtain ⟨hipDigits, hfpDigits⟩ := List.forall_mem_append.mp hdigits
  have hint := takeDigits_append hipDigits (takeDigits_fractionText fp)
  have htake : takeSign (sign ++ (ip.map asciiDigit ++ fractionText fp)) =
      (neg, ip.map asciiDigit ++ fractionText fp) := by
    obtain ⟨d, ds, rfl⟩ := List.exists_cons_of_ne_nil hip
    have hd := hipDigits d List.mem_cons_self
    exact takeSign_append hsign (asciiDigit_ne hd rfl) (asciiDigit_ne hd rfl)
  simp only [parseLiteral, htake, hint, if_neg hip]
  by_cases hfp : fp = []
  · subst hfp
    rfl
  · simp only [fractionText_of_ne_nil hfp, takeDigits_map_asciiDigit hfpDigits]
    exact if_pos ⟨trivial, hfp, trivial⟩

/-- R115: a text that is read as a value is a literal. -/
theorem literalText_of_parseLiteral {t : List Byte} {q : Ratio} (h : parseLiteral t = some q) :
    ∃ neg ip fp, LiteralText neg ip fp t ∧ q = literalValue neg ip fp := by
  obtain ⟨sign, hsign, ht⟩ := takeSign_spec t
  obtain ⟨hipDigits, hint⟩ := takeDigits_spec (takeSign t).2
  simp only [parseLiteral] at h
  obtain ⟨hip, h⟩ := Option.ite_none_left_eq_some.mp h
  refine ⟨(takeSign t).1, (takeDigits (takeSign t).2).1, ?_⟩
  split at h
  case h_1 hend =>
    cases h
    refine ⟨[], ⟨hip, by rwa [List.append_nil], sign, hsign, ?_⟩, rfl⟩
    rwa [fractionText_nil, ← hend, ← hint]
  case h_2 c cs hrest =>
    obtain ⟨⟨rfl, hfp, hend⟩, hq⟩ := Option.ite_none_right_eq_some.mp h
    cases hq
    obtain ⟨hfpDigits, hfrac⟩ := takeDigits_spec cs
    rw [hend, List.append_nil] at hfrac
    refine ⟨(takeDigits cs).1, ⟨hip, List.forall_mem_append.mpr ⟨hipDigits, hfpDigits⟩, sign, hsign, ?_⟩, rfl⟩
    rwa [fractionText_of_ne_nil hfp, ← hfrac, ← hrest, ← hint]

theorem den_pos_of_parseLiteral {t : List Byte} {q : Ratio} (h : parseLiteral t = some q) : 0 < q.den := by
  obtain ⟨neg, ip, fp, -, rfl⟩ := literalText_of_parseLiteral h
  exact den_literalValue_pos neg ip fp

/-- R115: the reader accepts exactly the literals, each with its value. -/
theorem isLiteral_iff_parseLiteral (t : List Byte) (v : ℚ) :
    IsLiteral t v ↔ ∃ q, parseLiteral t = some q ∧ v = q.toRat := by
  rw [isLiteral_iff]
  constructor
  · rintro ⟨neg, ip, fp, ht, hv⟩
    exact ⟨_, parseLiteral_of_literalText ht, hv⟩
  · rintro ⟨q, hq, hv⟩
    obtain ⟨neg, ip, fp, ht, rfl⟩ := literalText_of_parseLiteral hq
    exact ⟨neg, ip, fp, ht, hv⟩

end Sys2Proof.Machine
end

section
/-! SUPPORT. The command PARSE (`47_string.md` R117): one lemma per end of the command, and the statement. -/

namespace Sys2Proof.Machine

/-- R22, R24: the bytes below TLEN, all written, are what PARSE reads. -/
theorem memRead_of_holdsText {s : State} {t : List Byte} (h : HoldsText s t) :
    memRead s.tbuf 0 s.tlen.toNat = .ok t := by
  obtain ⟨hlen, hbytes⟩ := h
  rw [memRead_ok, hlen]
  refine ⟨rfl, fun k hk => ?_⟩
  rw [Nat.zero_add, hbytes k hk]

/-- R24: a byte among those read that has not been written stops the read. -/
theorem memRead_of_unwritten {m : Memory} {n k : Nat} (hk : k < n) (hread : m.read k = none) :
    ∃ a, memRead m 0 n = .error a := by
  cases h : memRead m 0 n with
  | error a => exact ⟨a, rfl⟩
  | ok bs =>
    obtain ⟨hlen, hbytes⟩ := (memRead_ok m 0 n bs).mp h
    have hb := hbytes k hk
    rw [Nat.zero_add, hread, List.getElem?_eq_getElem (hlen ▸ hk)] at hb
    cases hb

theorem toRat_mulInt (q : Ratio) (k : Int) : (q.mulInt k).toRat = q.toRat * k := by
  simp only [Ratio.toRat, Ratio.mulInt, Int.cast_mul, div_mul_eq_mul_div]

section
variable {rd : Reg} {rm : RoundingMode} {sc : ScaleField} {s : State}

theorem exec_parse (rd : Reg) (rm : RoundingMode) (sc : ScaleField) (s : State) :
    exec (.parse rd rm sc) s = execParse rd rm sc s := rfl

theorem exec_parse_illegalScale (h : 18 < sc.val) :
    exec (.parse rd rm sc) s = .next (takeFault (encode (.parse rd rm sc)) .scaleRange s) := by
  rw [exec_parse, execParse, withScale_illegal _ _ _ _ h]

variable (hsc : sc.val ≤ 18)
include hsc

theorem exec_parse_unwritten {a : Nat} (h : memRead s.tbuf 0 s.tlen.toNat = .error a) :
    exec (.parse rd rm sc) s = .fault (.unwrittenText a) := by
  simp only [exec_parse, execParse, withScale_legal _ _ _ _ hsc, h]

theorem exec_parse_malformed {t : List Byte} (ht : HoldsText s t) (h : parseLiteral t = none) :
    exec (.parse rd rm sc) s = .next (takeFault (encode (.parse rd rm sc)) .malformedText s) := by
  simp only [exec_parse, execParse, withScale_legal _ _ _ _ hsc, memRead_of_holdsText ht, h, raise]

theorem exec_parse_literal {t : List Byte} {q : Ratio} (ht : HoldsText s t) (h : parseLiteral t = some q) :
    exec (.parse rd rm sc) s =
      finishRounded (.parse rd rm sc) rd (t.map (BitVec.setWidth 64)) sc.val rm .checked (q.mulInt (10 ^ sc.val)) s := by
  simp only [exec_parse, execParse, withScale_legal _ _ _ _ hsc, memRead_of_holdsText ht, h]

end

/-- Settles O58: the reader accepts exactly the grammar (`isLiteral_iff_parseLiteral`), and the value read, times the
power of ten of the scale, ends as every checked rounding does (`roundsAndCompletes_of_finishRounded`,
`roundsOrFaultsChecked_of_finishRounded`). -/
theorem parseAcceptsExactlyTheGrammar : Obligations.ParseAcceptsExactlyTheGrammar := by
  intro s rd rm sc
  refine ⟨fun hsc => ?scale, fun hsc hread => ?unwritten, fun txt hsc htxt => ⟨fun v hv => ?literal, fun hv => ?malformed⟩⟩
  case scale => exact ⟨_, exec_parse_illegalScale hsc, faults_takeFault _ .scaleRange [] s⟩
  case unwritten =>
    obtain ⟨k, hk, hnone⟩ := hread
    obtain ⟨a, ha⟩ := memRead_of_unwritten hk hnone
    exact ⟨a, exec_parse_unwritten hsc ha⟩
  case literal =>
    obtain ⟨q, hq, rfl⟩ := (isLiteral_iff_parseLiteral txt v).mp hv
    have hden : 0 < q.den := den_pos_of_parseLiteral hq
    have hexec := exec_parse_literal (rd := rd) (rm := rm) hsc htxt hq
    have hvalue : q.toRat * 10 ^ sc.val = (q.mulInt (10 ^ sc.val)).toRat := by
      rw [toRat_mulInt]
      norm_cast
    rw [hvalue]
    exact ⟨roundsAndCompletes_of_finishRounded (srcs := []) hexec hden,
      roundsOrFaultsChecked_of_finishRounded (srcs := []) hexec hden⟩
  case malformed =>
    have hnone : parseLiteral txt = none := Option.eq_none_iff_forall_ne_some.mpr fun q hq =>
      hv ⟨q.toRat, (isLiteral_iff_parseLiteral txt _).mpr ⟨q, hq, rfl⟩⟩
    exact ⟨_, exec_parse_malformed hsc htxt hnone, faults_takeFault _ .malformedText [] s⟩

end Sys2Proof.Machine
end

section
/-! SUPPORT. The decoder after the encoder: the word of a well-formed command decodes to it (`30_encoding.md` R43, R50, R51,
R53), from the 44 rows in `Laws/PerInstr.lean`. -/

namespace Sys2Proof

open Laws.EncodingFields in
/-- R50, R51: the row of every command's opcode builds the command from its fields. -/
theorem opcodeRow_builds (i : Instr) : Statement i := by
  cases i with
  | add64 => exact add64 ..
  | sub64 => exact sub64 ..
  | mul64 => exact mul64 ..
  | div64 => exact div64 ..
  | neg64 => exact neg64 ..
  | abs64 => exact abs64 ..
  | ucmp64 => exact ucmp64 ..
  | udiv64 => exact udiv64 ..
  | wmuls => exact wmuls ..
  | wmulu => exact wmulu ..
  | div128 => exact div128 ..
  | rclass => exact rclass ..
  | rinc => exact rinc ..
  | sfact => exact sfact ..
  | snlz => exact snlz ..
  | smaxi => exact smaxi ..
  | smini => exact smini ..
  | smul => exact smul ..
  | sdiv => exact sdiv ..
  | smod => exact smod ..
  | smulhi => exact smulhi ..
  | smullo => exact smullo ..
  | dadd => exact dadd ..
  | dsub => exact dsub ..
  | dmul => exact dmul ..
  | dmulu => exact dmulu ..
  | ddiv => exact ddiv ..
  | ddivu => exact ddivu ..
  | dsqr => exact dsqr ..
  | dsqrt => exact dsqrt ..
  | dpow => exact dpow ..
  | davg => exact davg ..
  | dinv => exact dinv ..
  | dshl => exact dshl ..
  | dshr => exact dshr ..
  | dround => exact dround ..
  | dcmp => exact dcmp ..
  | dcmpu => exact dcmpu ..
  | todbl => exact todbl ..
  | toflt => exact toflt ..
  | fromdbl => exact fromdbl ..
  | fromflt => exact fromflt ..
  | parse => exact parse ..
  | format => exact format ..

/-- Settles O1: the word's fields are the command's (`Fields.unpack_pack`), its row builds the command from them, and a
well-formed command has no destination conflict. -/
theorem encodeThenDecodeGivesTheCommand : Obligations.EncodeThenDecodeGivesTheCommand := by
  intro i hwf
  obtain ⟨row, hrow, hz, hbuild⟩ := opcodeRow_builds i
  have hfields : Fields.unpack (encode i) = i.fields := Fields.unpack_pack i.fields
  have hdecode : decode (encode i) = .ok (row.build (Fields.unpack (encode i))) := by
    refine decode_eq_ok (by rwa [hfields]) (by rwa [hfields]) ?_
    rw [hfields]
    exact (wellFormed_iff_not_destConflict i).mp hwf
  rw [hdecode, hfields, hbuild]

/-- Settles O3: the decoder evaluated on the eight words. -/
theorem sampleWordsDecodeAsWritten : Obligations.SampleWordsDecodeAsWritten := by
  unfold Obligations.SampleWordsDecodeAsWritten
  decide

end Sys2Proof
end

section
/-! SUPPORT. What a command does depends on X, TLEN and TBUF alone (`10_state.md` R26): every operand form and every end of a
command is blind to the rest of the state, so each of the 44 meanings, built from them, is. -/

namespace Sys2Proof.Machine

/-- Two states with FAULT = 0 that agree on what a command may depend on: X, TLEN and TBUF. -/
structure SameView (s s' : State) : Prop where
  x : s.x = s'.x
  tlen : s.tlen = s'.tlen
  tbuf : s.tbuf = s'.tbuf
  noFault : s.status.fault = false
  noFault' : s'.status.fault = false

/-- Two outcomes that show the same: the same stop, the same fault taken with nothing else of the view changed, or two
completions with the same view. -/
inductive SameEffect : Result → Result → Prop
  | stop (f : Fault) : SameEffect (.fault f) (.fault f)
  | fault (w : CommandWord) (e : EngineFault) {s s' : State} (h : SameView s s') :
      SameEffect (.next (takeFault w e s)) (.next (takeFault w e s'))
  | done {s s' : State} (h : SameView s s') : SameEffect (.next s) (.next s')

/-- A meaning that is blind to all but X, TLEN and TBUF. -/
def Blind (k : State → Result) : Prop := ∀ s s' : State, SameView s s' → SameEffect (k s) (k s')

/-! ### The operand forms -/

theorem SameView.noteRead {s s' : State} (h : SameView s s') (r : Reg) : SameView (s.noteRead r) (s'.noteRead r) :=
  { h with }

theorem SameView.setV {s s' : State} (h : SameView s s') (v : Bool) : SameView (s.setV v) (s'.setV v) :=
  { h with }

theorem SameView.writeReg {s s' : State} (h : SameView s s') (r : Reg) (w : Word) :
    SameView (s.writeReg r w) (s'.writeReg r w) :=
  { h with x := by simp only [writeReg_x, h.x] }

theorem SameView.reg {s s' : State} (h : SameView s s') (r : Reg) : s.reg r = s'.reg r := by simp only [State.reg, h.x]

theorem blind_readX (r : Reg) {k : Word → State → Result} (hk : ∀ w, Blind (k w)) : Blind fun s => readX r s k := by
  intro s s' h
  simp only [readX_eq, ← h.reg r]
  exact hk _ _ _ (h.noteRead r)

theorem blind_readX2 (r1 r2 : Reg) {k : Word → Word → State → Result} (hk : ∀ w w', Blind (k w w')) :
    Blind fun s => readX2 r1 r2 s k :=
  blind_readX r1 fun w => blind_readX r2 fun w' => hk w w'

theorem blind_raise (i : Instr) (e : EngineFault) : Blind fun s => raise i e s := fun _ _ h => .fault (encode i) e h

theorem blind_withScale (i : Instr) (sc : ScaleField) {k : State → Nat → Result} (hk : ∀ n, Blind fun s => k s n) :
    Blind fun s => withScale i sc s (k s) := by
  unfold withScale
  split
  · exact blind_raise i _
  · exact hk _

theorem blind_withSecondScale (i : Instr) (rc : Reg) {k : Nat → State → Result} (hk : ∀ t, Blind (k t)) :
    Blind fun s => withSecondScale i rc s k := by
  refine blind_readX rc fun w => ?_
  split
  · exact blind_raise i _
  · exact hk _

/-! ### The ends of a command -/

theorem blind_write (rd : Reg) (w : Word) : Blind fun s => .next (s.writeReg rd w) := fun _ _ h => .done (h.writeReg rd w)

theorem blind_writeWide (rd rc : Reg) (w : BitVec 128) : Blind fun s => .next (writeWide rd rc w s) :=
  fun _ _ h => .done ((h.writeReg rd _).writeReg rc _)

theorem blind_finish (i : Instr) (rd : Reg) (r : Except EngineFault Word) : Blind fun s => finish i rd r s := by
  cases r with
  | ok w => exact blind_write rd w
  | error e => exact blind_raise i e

theorem blind_finishWrapping (i : Instr) (rd : Reg) (ov : OverflowMode) (e : Int) :
    Blind fun s => finishWrapping i rd ov e s := by
  unfold finishWrapping
  split
  · exact blind_raise i _
  · exact blind_write rd _

theorem blind_finishChecked (i : Instr) (rd : Reg) (ov : OverflowMode) (e : Int) :
    Blind fun s => finishChecked i rd ov e s := by
  unfold finishChecked
  split
  · exact fun _ _ h => .fault _ _ (h.setV true)
  · exact fun _ _ h => .done ((h.writeReg rd _).setV _)

/-! ### The commands -/

theorem blind_parse (rd : Reg) (rm : RoundingMode) (sc : ScaleField) : Blind (execParse rd rm sc) := by
  refine blind_withScale _ sc fun n s s' h => ?_
  simp only [h.tlen, h.tbuf]
  split
  · exact .stop _
  · split
    · exact blind_raise _ _ _ _ h
    · exact blind_finish _ rd _ _ _ h

theorem blind_format (r : Reg) (sc : ScaleField) : Blind (execFormat r sc) := by
  refine blind_withScale _ sc fun n => blind_readX r fun w s s' h => .done ?_
  exact { h with tlen := rfl, tbuf := by simp only [h.tbuf] }

/-- Every command is blind to all but X, TLEN and TBUF. -/
theorem blind_exec (i : Instr) : Blind fun s => exec i s := by
  cases i
  case parse => exact blind_parse _ _ _
  case format => exact blind_format _ _
  all_goals
    simp only [exec, execAdd64, execSub64, execMul64, execDiv64, execNeg64, execAbs64, execUcmp64, execUdiv64, execWmuls,
      execWmulu, execDiv128, execRclass, execRinc, execSfact, execSnlz, execSmaxi, execSmini, execSmul, execSdiv,
      execSmod, execSmulhi, execSmullo, execDadd, execDsub, execDmul, execDmulu, execDdiv, execDdivu, execDsqr,
      execDsqrt, execDpow, execDavg, execDinv, execDshl, execDshr, execDround, execDcmp, execDcmpu, execTodbl,
      execToflt, execFromdbl, execFromflt, finishRounded]
    with_reducible repeat' first
      | (refine blind_withScale _ _ fun _ => ?_)
      | (refine blind_withSecondScale _ _ fun _ => ?_)
      | (refine blind_readX2 _ _ fun _ _ => ?_)
      | (refine blind_readX _ fun _ => ?_)
      | exact blind_raise _ _
      | exact blind_finishChecked _ _ _ _
      | exact blind_finishWrapping _ _ _ _
      | exact blind_finish _ _ _
      | exact blind_write _ _
      | exact blind_writeWide _ _ _
      | split

/-- Settles O28: every command is blind to the rest of the state (`blind_exec`). -/
theorem commandsSeeNoHiddenState : Obligations.CommandsSeeNoHiddenState := by
  intro i s s' t hx htlen htbuf hs hs' ht
  have heffect : SameEffect (exec i s) (exec i s') := blind_exec i s s' ⟨hx, htlen, htbuf, hs, hs'⟩
  rw [ht] at heffect
  generalize hr : exec i s' = r' at heffect ⊢
  cases heffect with
  | fault w e h => exact ⟨_, rfl, h.x.symm, h.tlen.symm, h.tbuf.symm, rfl, fun _ => ⟨rfl, rfl, rfl⟩⟩
  | done h =>
    refine ⟨_, rfl, h.x.symm, h.tlen.symm, h.tbuf.symm, h.noFault'.trans h.noFault.symm, fun hf => ?_⟩
    rw [h.noFault] at hf
    cases hf

end Sys2Proof.Machine
end

section
/-! SUPPORT. What a command leaves of TLEN, TBUF, STATUS and the record of unwritten reads, read off the ways it can end
(`exec_ends`), and the statements on every command (`10_state.md` R18, R19, R22; `60_exceptions.md` R121 to R123). -/

namespace Sys2Proof.Machine

/-! ### What reading registers leaves -/

section
variable {s s' : State} (h : Noted s s')
include h

theorem Noted.x : s'.x = s.x := by rw [h.eq]
theorem Noted.xWritten : s'.xWritten = s.xWritten := by rw [h.eq]
theorem Noted.status : s'.status = s.status := by rw [h.eq]
theorem Noted.err : s'.status.err = s.status.err := by rw [h.eq]
theorem Noted.sub : s'.status.sub = s.status.sub := by rw [h.eq]
theorem Noted.tlen : s'.tlen = s.tlen := by rw [h.eq]
theorem Noted.tbuf : s'.tbuf = s.tbuf := by rw [h.eq]

theorem Noted.unwrittenRead (hs : s.unwrittenRead = true) : s'.unwrittenRead = true := by
  obtain ⟨srcs, rfl⟩ := h
  simp [foldl_noteRead, hs]

theorem Noted.sameRegs : SameRegsBut [] s s' := by
  intro r _
  simp only [State.reg, h.x, h.xWritten, and_self]

end

/-! ### FORMAT -/

theorem length_decimalText_le {k : Nat} (fuel : Nat) {n : Nat} (hk : 0 < k) (hn : n < 10 ^ k) :
    (decimalText fuel n).length ≤ k := by
  induction fuel generalizing k n with
  | zero => exact hk
  | succ fuel ih =>
    rw [decimalText]
    split
    · exact hk
    · rename_i h10
      obtain ⟨k, rfl⟩ : ∃ j, k = j + 1 := ⟨k - 1, by omega⟩
      have hk : 0 < k := by
        by_contra hzero
        rw [Nat.eq_zero_of_not_pos hzero, zero_add, pow_one] at hn
        exact h10 hn
      have hlen := ih hk (n := n / 10) (by rw [pow_succ] at hn; omega)
      simpa using hlen

theorem length_paddedText (k n : Nat) : (paddedText k n).length = k := by
  induction k generalizing n with
  | zero => rfl
  | succ k ih => simp [paddedText, ih]

/-- R116: the longest text has 21 characters. -/
theorem length_formatText_le (a : Word) {sc : Nat} (hsc : sc ≤ 18) : (formatText a.toInt sc).length ≤ 21 := by
  have hip : a.toInt.natAbs / 10 ^ sc < 10 ^ (19 - sc) := by
    rw [Nat.div_lt_iff_lt_mul (by positivity), ← pow_add, Nat.sub_add_cancel (by omega)]
    have hlo := BitVec.le_toInt a
    have hhi := BitVec.toInt_lt (x := a)
    omega
  have hlen := length_decimalText_le 19 (by omega) hip
  have hsign : (if a.toInt < 0 then [minusChar] else []).length ≤ 1 := by split <;> simp
  have hfrac (n : Nat) : (if 0 < sc then pointChar :: paddedText sc n else []).length ≤ sc + 1 := by
    split <;> simp [length_paddedText]
  simp only [formatText, List.length_append]
  have hfrac := hfrac (a.toInt.natAbs - a.toInt.natAbs / 10 ^ sc * 10 ^ sc)
  omega

/-- R118: the state with the text `t` in TBUF from address 0 and its length in TLEN. -/
def State.withText (s : State) (t : List Byte) : State :=
  { s with tbuf := memWrite s.tbuf 0 t, tlen := BitVec.ofNat 32 t.length }

theorem exec_format (r : Reg) (sc : ScaleField) (s : State) : exec (.format r sc) s = execFormat r sc s := rfl

theorem exec_format_legal (r : Reg) {sc : ScaleField} (s : State) (hsc : sc.val ≤ 18) :
    exec (.format r sc) s = .next ((s.noteRead r).withText (formatText (s.reg r).toInt sc.val)) := by
  rw [exec_format, execFormat, withScale_legal _ _ _ _ hsc, readX_eq, State.withText]

/-- The length of a text, stored in TLEN. -/
theorem toNat_length_formatText (a : Word) {sc : Nat} (hsc : sc ≤ 18) :
    (BitVec.ofNat 32 (formatText a.toInt sc).length).toNat = (formatText a.toInt sc).length := by
  have hlen := length_formatText_le a hsc
  rw [BitVec.toNat_ofNat]
  omega

/-! ### TLEN, TBUF and STATUS after a command -/

/-- R22: no command but FORMAT writes TLEN. -/
theorem exec_tlen {i : Instr} {s t : State} (hi : ∀ r sc, i ≠ .format r sc) (h : exec i s = .next t) :
    t.tlen = s.tlen := by
  have he := exec_ends i s
  rw [h] at he
  cases he with
  | fault s' e v hs _ => exact hs.tlen
  | word s' rd w v hs _ => exact hs.tlen
  | wide s' rd rc w hs => exact hs.tlen
  | text s' r sc hs hformat _ => exact absurd hformat (hi r sc)

/-- R19: no command but the six CheckedOps writes V. -/
theorem exec_v {i : Instr} {s t : State} (hi : isCheckedOp i = false) (h : exec i s = .next t) :
    t.status.v = s.status.v := by
  have he := exec_ends i s
  rw [h] at he
  cases he with
  | fault s' e v hs hv =>
    obtain hv | ⟨hchecked, -⟩ := hv
    · exact hv
    · simp [hi] at hchecked
  | word s' rd w v hs hv =>
    obtain hv | hchecked := hv
    · exact hv
    · simp [hi] at hchecked
  | wide s' rd rc w hs => exact congrArg Status.v hs.status
  | text s' r sc hs _ _ => exact congrArg Status.v hs.status

/-- R137: no command clears the record of an unwritten read. -/
theorem exec_unwrittenRead {i : Instr} {s t : State} (hs : s.unwrittenRead = true) (h : exec i s = .next t) :
    t.unwrittenRead = true := by
  have he := exec_ends i s
  rw [h] at he
  cases he with
  | fault s' e v hn _ => exact hn.unwrittenRead hs
  | word s' rd w v hn _ => exact hn.unwrittenRead hs
  | wide s' rd rc w hn => exact hn.unwrittenRead hs
  | text s' r sc hn _ _ => exact hn.unwrittenRead hs

/-- R119, R120: every fault's code and subcode are a listed pair. -/
theorem recordedPair_fault (e : EngineFault) : recordedPair e.err e.sub = true := by
  cases e with
  | illegal k => cases k <;> rfl
  | _ => rfl

/-! ### The statements -/

/-- Settles O24: of the ways of `exec_ends`, only the stop answers no next state, and it is of a PARSE that meets a byte
not written. -/
theorem everyCommandEnds : Obligations.EveryCommandEnds := by
  intro i s hread
  have he := exec_ends i s
  generalize exec i s = r at he
  cases he with
  | stop rd rm sc a hi ha hn _ =>
    obtain hi' | hread := hread
    · exact absurd hi (hi' rd rm sc)
    · exact absurd hn (hread a ha)
  | _ => exact ⟨_, rfl⟩

/-- Settles O26, by the ways a command can end: a fault takes the record and writes nothing else, the others leave it. -/
theorem faultsArePrecise : Obligations.FaultsArePrecise := by
  intro i s t hs h
  have completes (hstatus : t.status.fault = s.status.fault ∧ t.status.err = s.status.err ∧
      t.status.sub = s.status.sub ∧ t.status.miss = s.status.miss) (hfcmd : t.fcmd = s.fcmd) :
      t.status.miss = s.status.miss ∧ t.ctrl = s.ctrl ∧
        (t.status.fault = true → t.fcmd = encode i ∧ recordedPair t.status.err t.status.sub = true ∧
          SameRegsBut [] s t ∧ SameText s t) ∧
        (t.status.fault = false → t.fcmd = s.fcmd ∧ t.status.err = s.status.err ∧ t.status.sub = s.status.sub) := by
    obtain ⟨hfault, herr, hsub, hmiss⟩ := hstatus
    refine ⟨hmiss, exec_ctrl h, fun ht => ?_, fun _ => ⟨hfcmd, herr, hsub⟩⟩
    rw [hfault, hs] at ht
    cases ht
  have he := exec_ends i s
  rw [h] at he
  cases he with
  | fault s' e v hn _ =>
    refine ⟨by simp [hn.status], hn.ctrl, fun _ => ⟨rfl, recordedPair_fault e, hn.sameRegs, ?_⟩, nofun⟩
    exact ⟨hn.tlen, fun a => congrArg (Memory.read · a) hn.tbuf⟩
  | word s' rd w v hn _ => exact completes (by simp [hn.status]) hn.fcmd
  | wide s' rd rc w hn => exact completes (by simp [writeWide, hn.status]) hn.fcmd
  | text s' r sc hn _ _ => exact completes (by simp [hn.status]) hn.fcmd

/-- R46, R59, R91: a command with a scale field begins with the check of it. -/
theorem exec_eq_withScale {i : Instr} {sc : ScaleField} (s : State) (hi : scaleFieldOf i = some sc) :
    ∃ k, exec i s = withScale i sc s k := by
  cases i <;> cases hi <;> simp only [exec] <;> exact ⟨_, rfl⟩

theorem exec_illegalScale {i : Instr} {sc : ScaleField} (s : State) (hi : scaleFieldOf i = some sc) (h : 18 < sc.val) :
    exec i s = .next (takeFault (encode i) .scaleRange s) := by
  obtain ⟨k, hk⟩ := exec_eq_withScale s hi
  rw [hk, withScale_illegal i sc s k h]

/-- Settles O30: each of the commands with a scale field begins with its check. -/
theorem illegalScaleFaultsFirst : Obligations.IllegalScaleFaultsFirst := by
  intro i sc s hi h
  exact ⟨_, exec_illegalScale s hi h, faults_takeFault _ .scaleRange [] s⟩

/-- The first unwritten byte stops a read of TBUF (R24, R35). -/
theorem memRead_eq_error {m : Memory} {a n k : Nat} (hak : a ≤ k) (hk : k < a + n) (hnone : m.read k = none)
    (hbefore : ∀ b, a ≤ b → b < k → m.read b ≠ none) : memRead m a n = .error k := by
  cases hr : memRead m a n with
  | ok bs =>
    obtain ⟨hlen, hbytes⟩ := (memRead_ok m a n bs).mp hr
    have hb := hbytes (k - a) (by omega)
    rw [Nat.add_sub_cancel' hak, hnone, List.getElem?_eq_getElem (by omega)] at hb
    cases hb
  | error e =>
    obtain ⟨hae, -, henone, hebefore⟩ := memRead_error m a n e hr
    obtain hlt | rfl | hgt := lt_trichotomy e k
    · exact absurd henone (hbefore e hae hlt)
    · rfl
    · exact absurd hnone (hebefore k hak hgt)

/-- Settles O25: the read of the text stops at its first unwritten byte (`memRead_eq_error`). -/
theorem parsingUnwrittenTextStops : Obligations.ParsingUnwrittenTextStops := by
  intro s rd rm sc a hsc ha hnone hbefore
  exact exec_parse_unwritten hsc (memRead_eq_error (Nat.zero_le a) (by omega) hnone fun b _ => hbefore b)

/-- A text buffer in canonical form holds no byte below its first address. -/
theorem Memory.read_eq_none_of_lt {m : Memory} {a : Nat} (h : ∀ c ∈ m, a < c.1) : m.read a = none := by
  induction m with
  | nil => rfl
  | cons c m ih =>
    obtain ⟨k, v⟩ := c
    obtain ⟨hk, hm⟩ := List.forall_mem_cons.mp h
    rw [Memory.read, if_neg (ne_of_gt hk), ih hm]

/-- Settles O23, by induction on both lists: the lower of the two first addresses reads as a byte in one buffer, so it is
the first address of the other as well. -/
theorem canonicalTextIsUnique : Obligations.CanonicalTextIsUnique := by
  intro m m' hm hm' h
  obtain ⟨hm, -⟩ := hm
  obtain ⟨hm', -⟩ := hm'
  induction m generalizing m' with
  | nil =>
    cases m' with
    | nil => rfl
    | cons d m' => simpa [Memory.read] using h d.1
  | cons c m ih =>
    cases m' with
    | nil => simpa [Memory.read] using h c.1
    | cons d m' =>
      obtain ⟨a, v⟩ := c
      obtain ⟨b, w⟩ := d
      obtain ⟨hfirst, hm⟩ := List.pairwise_cons.mp hm
      obtain ⟨hfirst', hm'⟩ := List.pairwise_cons.mp hm'
      have hab : a = b := by
        obtain hlt | heq | hgt := lt_trichotomy a b
        · have hnone : Memory.read ((b, w) :: m') a = none :=
            Memory.read_eq_none_of_lt (List.forall_mem_cons.mpr ⟨hlt, fun e he => hlt.trans (hfirst' e he)⟩)
          rw [← h a, Memory.read, if_pos rfl] at hnone
          cases hnone
        · exact heq
        · have hnone : Memory.read ((a, v) :: m) b = none :=
            Memory.read_eq_none_of_lt (List.forall_mem_cons.mpr ⟨hgt, fun e he => hgt.trans (hfirst e he)⟩)
          rw [h b, Memory.read, if_pos rfl] at hnone
          cases hnone
      subst hab
      have hvw : v = w := by simpa [Memory.read] using h a
      subst hvw
      congr 1
      refine ih m' (fun k => ?_) hm ‹_›
      by_cases hk : a = k
      · subst hk
        rw [Memory.read_eq_none_of_lt hfirst, Memory.read_eq_none_of_lt hfirst']
      · simpa [Memory.read, hk] using h k

end Sys2Proof.Machine
end

section
/-! SUPPORT. The host's accesses (`20_memory.md` R28 to R35): where the address map sends each, what a read returns, what a
write changes, and the statements on single accesses. -/

namespace Sys2Proof.Machine

/-! ### The address map -/

section
variable {o : BitVec 8} {w : Width}

theorem locate_eq_x {r : Reg} {k : Nat} (h : locate o w = .x r k) : o.toNat / 8 = r.val := by
  simp only [locate, locateControl] at h
  split_ifs at h with _ hlt
  cases h
  simp only [Fin.val_ofNat]
  omega

theorem locate_eq_status (h : locate o w = .status) : o = 0x84 := by
  simp only [locate, locateControl] at h
  split_ifs at h with _ _ _ _ _ ho
  exact BitVec.eq_of_toNat_eq ho

/-- R29, R32: an accepted access of TBUF ends within its 64 bytes. -/
theorem locate_eq_tbuf {a : Nat} (h : locate o w = .tbuf a) : a + w.bytes ≤ 64 := by
  simp only [locate, locateControl] at h
  split_ifs at h with halign
  rw [Target.tbuf.injEq] at h
  subst h
  have ho := o.isLt
  cases w <;> simp only [Width.bytes] at halign ⊢ <;> omega

/-- R29, R32: an aligned access within TBUF is accepted. -/
theorem locate_tbuf {j : Nat} (hj : j + w.bytes ≤ 64) (ha : j % w.bytes = 0) :
    locate (BitVec.ofNat 8 (0xC0 + j)) w = .tbuf j := by
  have hpos := w.bytes_pos
  have ho : (0xC0 + j) % 2 ^ 8 = 0xC0 + j := by omega
  have hal : (0xC0 + j) % w.bytes = 0 := by
    have hdvd : w.bytes ∣ 0xC0 := w.bytes_dvd_eight.trans (by decide)
    exact Nat.mod_eq_zero_of_dvd (hdvd.add (Nat.dvd_of_mod_eq_zero ha))
  have hX : ¬ 0xC0 + j < 0x80 := by omega
  have hcontrol : ¬ 0xC0 + j < 0x94 := by omega
  have hreserved : ¬ 0xC0 + j < 0xC0 := by omega
  simp only [locate, BitVec.toNat_ofNat, ho, hal, ne_eq, not_true_eq_false, if_false, if_neg hX, if_neg hcontrol,
    if_neg hreserved, Nat.add_sub_cancel_left]

/-- R29, R32: the accesses that reach nothing. -/
theorem locate_eq_nothing
    (h : o.toNat % w.bytes ≠ 0 ∨ (0x80 ≤ o.toNat ∧ o.toNat < 0x94 ∧ w ≠ .four) ∨ (0x94 ≤ o.toNat ∧ o.toNat < 0xC0)) :
    locate o w = .reserved ∨ locate o w = .notAccepted := by
  simp only [locate]
  split_ifs with halign hX hcontrol hfour hreserved
  · exact .inr rfl
  · omega
  · obtain h | ⟨-, -, h⟩ | h := h
    · exact absurd h halign
    · exact absurd hfour h
    · omega
  · exact .inr rfl
  · exact .inl rfl
  · omega

end

/-! ### Reads -/

/-- What a read returns depends on the engine's own state alone: not on the inputs to come, on the last read, or on the
record of unwritten reads. -/
theorem readWindow_readData {o : BitVec 8} {w : Width} {s u t : State} (hx : u.x = s.x) (hstatus : u.status = s.status)
    (hfcmd : u.fcmd = s.fcmd) (hctrl : u.ctrl = s.ctrl) (htlen : u.tlen = s.tlen) (htbuf : u.tbuf = s.tbuf)
    (h : readWindow o w s = .next t) : ∃ v, readWindow o w u = .next v ∧ v.readData = t.readData := by
  unfold readWindow returnData at h ⊢
  rw [hstatus, hfcmd, hctrl, htlen, htbuf]
  cases hl : locate o w with
  | x r k =>
    simp only [hl, readX_eq, Host.Outcome.next.injEq] at h
    subst h
    simp only [readX_eq, State.reg, hx]
    exact ⟨_, rfl, rfl⟩
  | tbuf a =>
    simp only [hl] at h ⊢
    split at h
    · cases h
    · cases h
      exact ⟨_, rfl, rfl⟩
  | _ =>
    simp only [hl, Host.Outcome.next.injEq] at h
    subst h
    exact ⟨_, rfl, rfl⟩

/-- Settles O13: a read leaves all that a read depends on (`readWindow_next`), so it can be repeated
(`readWindow_readData`). -/
theorem hostReadsHaveNoEffect : Obligations.HostReadsHaveNoEffect := by
  intro s t o w rest hs ht
  rw [step_read hs] at ht
  obtain ⟨d, hd⟩ := readWindow_next _ _ _ _ ht
  have hdata : t.readData = some d := by rw [hd]
  refine ⟨⟨d, hdata, hd⟩, ?_⟩
  rw [step_read (s := { t with host := .read o w :: rest }) rfl]
  refine readWindow_readData ?_ ?_ ?_ ?_ ?_ ?_ ht <;> rw [hd]

/-- Settles O14: the address map sends these accesses nowhere (`locate_eq_nothing`). -/
theorem accessesNotAcceptedDoNothing : Obligations.AccessesNotAcceptedDoNothing := by
  intro s o w d rest h
  have hl := locate_eq_nothing h
  constructor
  · intro hs
    rw [step_read hs, readWindow]
    obtain hl | hl := hl <;> simp only [hl, returnData]
  · intro hs
    rw [step_write hs, performWrite]
    obtain hl | hl := hl <;> simp only [hl, writeWindow]

/-- Settles O15. -/
theorem cmdReadsZero : Obligations.CmdReadsZero := fun _ _ hs => step_read hs

/-! ### STATUS -/

/-- Joining a field above the bits in use adds it at its place. -/
theorem toNat_or_shiftLeft {x y : BitVec 32} {k : Nat} (hx : x.toNat < 2 ^ k) (hy : y.toNat * 2 ^ k < 2 ^ 32) :
    (x ||| y <<< k).toNat = x.toNat + 2 ^ k * y.toNat := by
  rw [BitVec.toNat_or, BitVec.toNat_shiftLeft, Nat.shiftLeft_eq, Nat.mod_eq_of_lt hy, ← Nat.shiftLeft_eq, Nat.or_comm,
    ← Nat.shiftLeft_add_eq_or_of_lt hx, Nat.shiftLeft_eq]
  ring

theorem toNat_ofBool_setWidth (b : Bool) : ((BitVec.ofBool b).setWidth 32).toNat = b.toNat := by cases b <;> rfl

/-- R18: STATUS's fields at their bits. -/
theorem toNat_statusWord (st : Status) :
    st.word.toNat = st.fault.toNat + 2 * st.miss.toNat + 4 * st.v.toNat + 2 ^ 8 * st.err.toNat +
      2 ^ 12 * st.sub.toNat := by
  have hfault := Bool.toNat_lt st.fault
  have hmiss := Bool.toNat_lt st.miss
  have hv := Bool.toNat_lt st.v
  have herr := st.err.isLt
  have hsub := st.sub.isLt
  have hwide (b : BitVec 4) : (b.setWidth 32).toNat = b.toNat := by
    rw [BitVec.toNat_setWidth, Nat.mod_eq_of_lt (by omega)]
  have h1 := toNat_or_shiftLeft (x := (BitVec.ofBool st.fault).setWidth 32) (y := (BitVec.ofBool st.miss).setWidth 32)
    (k := 1) (by rw [toNat_ofBool_setWidth]; omega) (by rw [toNat_ofBool_setWidth]; omega)
  rw [toNat_ofBool_setWidth, toNat_ofBool_setWidth] at h1
  have h2 := toNat_or_shiftLeft (y := (BitVec.ofBool st.v).setWidth 32) (k := 2) (h1.trans_lt (by omega))
    (by rw [toNat_ofBool_setWidth]; omega)
  rw [h1, toNat_ofBool_setWidth] at h2
  have h3 := toNat_or_shiftLeft (y := st.err.setWidth 32) (k := 8) (h2.trans_lt (by omega)) (by rw [hwide]; omega)
  rw [h2, hwide] at h3
  have h4 := toNat_or_shiftLeft (y := st.sub.setWidth 32) (k := 12) (h3.trans_lt (by omega)) (by rw [hwide]; omega)
  rw [h3, hwide] at h4
  rw [Status.word, h4]
  omega

/-- Settles O9: the word a read returns is STATUS's (`toNat_statusWord`), extended with zeros. -/
theorem statusReadsByItsLayout : Obligations.StatusReadsByItsLayout := by
  intro s rest hs
  refine ⟨s.status.word.setWidth 64, step_read hs, ?_⟩
  have hlt := s.status.word.isLt
  rw [BitVec.toNat_setWidth, Nat.mod_eq_of_lt (by omega), toNat_statusWord]

theorem writeStatus_status (w : BitVec 32) (s : State) :
    (writeStatus w s).status =
      { fault := s.status.fault && !w.getLsbD 0, miss := s.status.miss && !w.getLsbD 1, v := s.status.v
        err := if w.getLsbD 0 then 0 else s.status.err, sub := if w.getLsbD 0 then 0 else s.status.sub } := by
  unfold writeStatus
  generalize w.getLsbD 0 = clear
  generalize w.getLsbD 1 = clearMiss
  cases clear <;> cases clearMiss <;> simp

/-- Settles O8: the effect of `writeStatus` on the fields (`writeStatus_status`). -/
theorem statusWriteClears : Obligations.StatusWriteClears := by
  intro s d rest hs
  have hstep : step s = .next (writeStatus (d.setWidth 32) { s with host := rest, readData := none }) :=
    step_write_window hs (by decide)
  have hst := writeStatus_status (d.setWidth 32) { s with host := rest, readData := none }
  simp only [BitVec.getLsbD_setWidth, Nat.zero_lt_succ, Nat.one_lt_ofNat, decide_true, Bool.true_and] at hst
  refine ⟨_, hstep, ?_⟩
  rw [State.irq, hst]
  refine ⟨rfl, rfl, rfl, rfl, rfl, fun hd => ?_, rfl, rfl, fun r _ => ⟨rfl, rfl⟩, ⟨rfl, fun a => rfl⟩, rfl, rfl, rfl⟩
  simp only [hd, Bool.not_true, Bool.and_false, Bool.false_and]

/-! ### TLEN -/

theorem writeTlen_eq (w : BitVec 32) (s : State) :
    writeTlen w s = { s with tlen := if w.toNat ≤ 64 then w else s.tlen } := by
  unfold writeTlen
  split <;> rfl

/-- Settles O12: the accesses are the window's at TLEN; no other command than FORMAT writes it (`exec_tlen`), and FORMAT
writes the length of its text (`length_formatText_le`). -/
theorem tlenHoldsALegalLength : Obligations.TlenHoldsALegalLength := by
  refine ⟨fun s rest hs => step_read hs, fun s d rest hs => ?write, fun i s t => exec_tlen, fun r sc s t h ht => ?format,
    rfl⟩
  case write =>
    have hstep : step s = .next (writeTlen (d.setWidth 32) { s with host := rest, readData := none }) :=
      step_write_window hs (by decide)
    rw [writeTlen_eq] at hstep
    exact ⟨_, hstep, rfl, rfl, rfl, rfl, fun r _ => ⟨rfl, rfl⟩, fun a => rfl⟩
  case format =>
    by_cases hsc : sc.val ≤ 18
    · rw [exec_format_legal r s hsc] at h
      cases h
      rw [State.withText, toNat_length_formatText _ hsc]
      exact length_formatText_le _ hsc
    · rw [exec_illegalScale s rfl (Nat.lt_of_not_le hsc)] at h
      cases h
      cases ht

/-! ### X -/

/-- R30: the bits of bytes `k` onward of a word. -/
theorem getLsbD_wordBytes (v : Word) {k n b : Nat} (hb : b < 64) :
    (wordBytes v k n).getLsbD b = (decide (b < 8 * n) && v.getLsbD (8 * k + b)) := by
  have hones := getLsbD_ones_shiftLeft (m := 64) 0 (8 * n) b hb
  simp only [BitVec.shiftLeft_zero, Nat.zero_le, true_and, Nat.zero_add] at hones
  rw [wordBytes, BitVec.getLsbD_and, hones, BitVec.getLsbD_ushiftRight, Bool.and_comm]

theorem wordBytes_lt (v : Word) {k n : Nat} (hn : n ≤ 8) : (wordBytes v k n).toNat < 2 ^ (8 * n) := by
  have hpow : 2 ^ (8 * n) ≤ 2 ^ 64 := Nat.pow_le_pow_right (by decide) (by omega)
  have hpos : 0 < 2 ^ (8 * n) := Nat.two_pow_pos _
  rw [wordBytes, BitVec.toNat_and, BitVec.toNat_ofNat, Nat.mod_eq_of_lt (by omega)]
  exact Nat.and_lt_two_pow _ (by omega)

/-- Settles O16: the read returns `wordBytes` of the register (`getLsbD_wordBytes`). -/
theorem registerWindowIsLittleEndian : Obligations.RegisterWindowIsLittleEndian := by
  intro s i k w rest hk ha hs
  have hstep : step s = returnData (wordBytes (s.reg i) k w.bytes) (State.noteRead { s with host := rest } i) := by
    rw [step_read hs, readWindow, locate_x i hk ha]
    rfl
  refine ⟨_, _, hstep, rfl, fun j hj => ?byte, wordBytes_lt _ (by omega), ?noted⟩
  case byte =>
    refine BitVec.eq_of_getLsbD_eq fun b hb => ?_
    have hin : 8 * j + b < 8 * w.bytes := by omega
    rw [BitVec.getLsbD_extractLsb', BitVec.getLsbD_extractLsb', getLsbD_wordBytes _ (by omega), decide_eq_true hin,
      Bool.true_and, show 8 * k + (8 * j + b) = 8 * (k + j) + b by omega]
  case noted => simp [NotesReads, State.isWritten]

/-! ### TBUF -/

@[simp] theorem length_wordToBytes (n : Nat) (d : Word) : (wordToBytes n d).length = n := by
  induction n generalizing d with
  | zero => rfl
  | succ n ih => simp [wordToBytes, ih]

/-- R30: byte `k` of a word, the lowest first. -/
theorem getElem?_wordToBytes {n k : Nat} (d : Word) (hk : k < n) :
    (wordToBytes n d)[k]? = some (d.extractLsb' (8 * k) 8) := by
  induction n generalizing d k with
  | zero => omega
  | succ n ih =>
    cases k with
    | zero => simp [wordToBytes, BitVec.setWidth_eq_extractLsb']
    | succ k =>
      rw [wordToBytes, List.getElem?_cons_succ, ih _ (by omega)]
      congr 1
      refine BitVec.eq_of_getLsbD_eq fun b hb => ?_
      rw [BitVec.getLsbD_extractLsb', BitVec.getLsbD_extractLsb', BitVec.getLsbD_ushiftRight,
        show 8 + (8 * k + b) = 8 * (k + 1) + b by omega]

/-- R30: the low bytes of a word, put together again. -/
theorem bytesToWord_wordToBytes (n : Nat) (d : Word) :
    bytesToWord (wordToBytes n d) = BitVec.ofNat 64 (d.toNat % 2 ^ (8 * n)) := by
  refine BitVec.eq_of_getLsbD_eq fun b hb => ?_
  rw [BitVec.getLsbD_ofNat, Nat.testBit_mod_two_pow, BitVec.testBit_toNat, decide_eq_true hb, Bool.true_and]
  induction n generalizing d b with
  | zero => simp [wordToBytes, bytesToWord]
  | succ n ih =>
    rw [wordToBytes, bytesToWord, BitVec.getLsbD_or, BitVec.getLsbD_shiftLeft, BitVec.getLsbD_setWidth,
      BitVec.getLsbD_setWidth]
    by_cases hlow : b < 8
    · have hin : b < 8 * (n + 1) := by omega
      simp [hlow, hin, hb]
    · have hin : b - 8 < 8 * n ↔ b < 8 * (n + 1) := by omega
      rw [ih _ (b - 8) (by omega), BitVec.getLsbD_ushiftRight, Nat.add_sub_cancel' (by omega)]
      simp [hlow, hin, hb]

/-- Settles O18: the bytes are stored in order (`memWrite_read`, `getElem?_wordToBytes`), so the read finds them written and
puts them together again (`bytesToWord_wordToBytes`). -/
theorem textWindowStoresAndReturnsBytes : Obligations.TextWindowStoresAndReturnsBytes := by
  intro s j w d rest hj ha hs
  have hl := locate_tbuf hj ha
  have hstep := step_write_window hs (by simp [hl])
  rw [hl] at hstep
  have hread (a : Nat) : (memWrite s.tbuf j (wordToBytes w.bytes d)).read a =
      if j ≤ a ∧ a < j + w.bytes then (wordToBytes w.bytes d)[a - j]? else s.tbuf.read a := by
    rw [memWrite_read, length_wordToBytes]
  have hback : memRead (memWrite s.tbuf j (wordToBytes w.bytes d)) j w.bytes = .ok (wordToBytes w.bytes d) := by
    refine (memRead_ok _ _ _ _).mpr ⟨length_wordToBytes _ _, fun k hk => ?_⟩
    rw [hread, if_pos (by omega), Nat.add_sub_cancel_left]
  refine ⟨_, hstep, fun k hk => ?bytes, fun a hout => ?others, rfl, fun r _ => ⟨rfl, rfl⟩, rfl, rfl, rfl, ?readBack⟩
  case bytes =>
    refine (hread (j + k)).trans ?_
    rw [if_pos (by omega), Nat.add_sub_cancel_left, getElem?_wordToBytes d hk]
  case others =>
    refine (hread a).trans ?_
    rw [if_neg (by omega)]
  case readBack =>
    rw [step_read (o := BitVec.ofNat 8 (0xC0 + j)) (w := w) (rest := rest) rfl, readWindow, hl]
    simp only [writeWindow, hback]
    exact ⟨_, rfl, congrArg some (bytesToWord_wordToBytes w.bytes d)⟩

/-- Settles O19: the read of TBUF stops at its first unwritten byte (`memRead_eq_error`). -/
theorem readingUnwrittenTextStops : Obligations.ReadingUnwrittenTextStops := by
  intro s j a w rest hj ha hs hja haj hnone hbefore
  rw [step_read hs, readWindow, locate_tbuf hj ha]
  simp only [memRead_eq_error hja haj hnone hbefore]

/-! ### CMD and reset -/

/-- Settles O4. -/
theorem stepExecutesTheDecodedCommand : Obligations.StepExecutesTheDecodedCommand := by
  intro s d rest i hs hf hd
  rw [step_write_cmd hs, issueCommand, hd]
  exact if_neg (by simp [hf])

/-- Settles O5: the fault taken is the refusal's (`issueCommand_cases`). -/
theorem illegalWordIsRecorded : Obligations.IllegalWordIsRecorded := by
  intro s d rest k hs hf hd
  have hissue : issueCommand (d.setWidth 32) { s with host := rest, readData := none } =
      .next (takeFault (d.setWidth 32) (.illegal k) { s with host := rest, readData := none }) := by
    rw [issueCommand, hd]
    exact if_neg (by simp [hf])
  refine ⟨_, (step_write_cmd hs).trans hissue, ?_⟩
  have hfaults := faults_takeFault (d.setWidth 32) (.illegal k) [] { s with host := rest, readData := none }
  cases k <;> exact hfaults

/-- Settles O6. -/
theorem faultedEngineDropsCommands : Obligations.FaultedEngineDropsCommands := by
  intro s d rest hs hf
  have hstep : step s = .next (dropCommand { s with host := rest, readData := none }) := by
    rw [step_write_cmd hs, issueCommand]
    exact if_pos hf
  exact ⟨_, hstep, rfl, rfl, fun r _ => ⟨rfl, rfl⟩, ⟨rfl, fun a => rfl⟩, rfl, rfl, rfl, rfl⟩

theorem step_reset {s : State} {rest : List HostInput} (hs : s.host = .reset :: rest) :
    step s = .next { State.reset with host := rest } := by
  simp only [step, performNext, hs, perform]

/-- Settles O20. -/
theorem resetClearsTheControlState : Obligations.ResetClearsTheControlState := by
  refine ⟨by decide, by decide, rfl, rfl, rfl, fun r => ?_, fun a => rfl, rfl, fun s rest => step_reset⟩
  simp [State.isWritten, State.reset]

/-- Settles O21. -/
theorem resetMeetsTheInvariant : Obligations.ResetMeetsTheInvariant where
  tbuf := reset_tbuf_wf
  tlen := Nat.zero_le 64
  cleared _ := ⟨rfl, rfl⟩
  recorded := nofun

end Sys2Proof.Machine
end

section
/-! SUPPORT. What a step can do, said once (`StepEnds`), and what steps and runs keep: the invariant, a recorded fault, V, and
the record of an unwritten read (`10_state.md` R18, R19, R22; `60_exceptions.md` R126, R137, R143). -/

namespace Sys2Proof.Machine

/-! ### What a step can do -/

/-- The state in which the input `a`, taken from the inputs `a :: rest` of `s`, is performed as a write. -/
def State.taken (s : State) (rest : List HostInput) : State := { s with host := rest, readData := none }

/-- The next states a step from `s` can answer: none waits; a read; a write to anything but CMD; a command that is dropped,
is illegal, or is executed; reset. -/
inductive StepEnds (s : State) : State → Prop
  | idle (hs : s.host = []) : StepEnds s s
  | read {rest : List HostInput} (o : BitVec 8) (w : Width) (d : Word) (u : Bool) (hs : s.host = .read o w :: rest)
      (hu : s.unwrittenRead = true → u = true) :
      StepEnds s { s with host := rest, readData := some d, unwrittenRead := u }
  | write {rest : List HostInput} (o : BitVec 8) (w : Width) (d : Word) (hs : s.host = .write o w d :: rest)
      (hl : locate o w ≠ .cmd) : StepEnds s (writeWindow (locate o w) w d (s.taken rest))
  | drop {rest : List HostInput} (d : Word) (hs : s.host = .write 0x80 .four d :: rest) (hf : s.status.fault = true) :
      StepEnds s (dropCommand (s.taken rest))
  | illegal {rest : List HostInput} (d : Word) (k : Illegal) (hs : s.host = .write 0x80 .four d :: rest)
      (hf : s.status.fault = false) : StepEnds s (takeFault (d.setWidth 32) (.illegal k) (s.taken rest))
  | command {rest : List HostInput} (d : Word) (i : Instr) (t : State) (hs : s.host = .write 0x80 .four d :: rest)
      (hf : s.status.fault = false) (ht : exec i (s.taken rest) = .next t) : StepEnds s t
  | reset {rest : List HostInput} (hs : s.host = .reset :: rest) : StepEnds s { State.reset with host := rest }

/-- A read clears no record of an unwritten read. -/
theorem readWindow_unwrittenRead {o : BitVec 8} {w : Width} {s t : State} (h : readWindow o w s = .next t)
    (hs : s.unwrittenRead = true) : t.unwrittenRead = true := by
  unfold readWindow returnData at h
  cases hl : locate o w with
  | x r k =>
    simp only [hl, readX_eq, Host.Outcome.next.injEq] at h
    simp [← h, hs]
  | tbuf a =>
    simp only [hl] at h
    split at h
    · cases h
    · cases h
      exact hs
  | _ =>
    simp only [hl, Host.Outcome.next.injEq] at h
    simp [← h, hs]

theorem stepEnds_of_next {s t : State} (h : step s = .next t) : StepEnds s t := by
  match hs : s.host with
  | [] =>
    simp only [step, performNext, hs, Host.Outcome.next.injEq] at h
    subst h
    exact .idle hs
  | .read o w :: rest =>
    rw [step_read hs] at h
    obtain ⟨d, hd⟩ := readWindow_next _ _ _ _ h
    have hu := readWindow_unwrittenRead h
    rw [hd]
    exact .read o w d _ hs hu
  | .reset :: rest =>
    rw [step_reset hs] at h
    cases h
    exact .reset hs
  | .write o w d :: rest =>
    by_cases hl : locate o w = .cmd
    · obtain ⟨rfl, rfl⟩ := locate_eq_cmd hl
      rw [step_write_cmd hs] at h
      obtain ⟨hf, hi⟩ | ⟨k, hf, -, hi⟩ | ⟨i, hf, -, hi⟩ := issueCommand_cases (d.setWidth 32) (s.taken rest)
      · cases hi.symm.trans h
        exact .drop d hs hf
      · cases hi.symm.trans h
        exact .illegal d k hs hf
      · exact .command d i t hs hf (hi.symm.trans h)
    · rw [step_write_window hs hl] at h
      cases h
      exact .write o w d hs hl

/-! ### What a write of the window leaves -/

section
variable (g : Target) (w : Width) (d : Word) (s : State)

theorem writeWindow_status (hg : g ≠ .status) : (writeWindow g w d s).status = s.status := by
  cases g with
  | status => exact absurd rfl hg
  | tlen => rw [writeWindow, writeTlen_eq]
  | _ => rfl

theorem writeWindow_v : (writeWindow g w d s).status.v = s.status.v := by
  by_cases hg : g = .status
  · rw [hg, writeWindow, writeStatus_status]
  · rw [writeWindow_status g w d s hg]

theorem writeWindow_unwrittenRead : (writeWindow g w d s).unwrittenRead = s.unwrittenRead := by
  cases g with
  | tlen => rw [writeWindow, writeTlen_eq]
  | _ => rfl

/-- R33: a write leaves every register it does not address. -/
theorem writeWindow_sameRegs (r : Reg) (hg : ∀ k, g ≠ .x r k) :
    (writeWindow g w d s).reg r = s.reg r ∧ (writeWindow g w d s).xWritten[r.val] = s.xWritten[r.val] := by
  cases g with
  | x q k =>
    refine sameRegsBut_writeRegBytes s q k w.bytes d r fun hr => hg k ?_
    rw [List.mem_singleton.mp hr]
  | tlen =>
    rw [writeWindow, writeTlen_eq]
    exact ⟨rfl, rfl⟩
  | _ => exact ⟨rfl, rfl⟩

end

/-! ### The invariant -/

/-- The invariant speaks of TBUF, TLEN, FAULT, ERR and SUB alone. -/
theorem Inv.congr {s t : State} (h : Inv s) (htbuf : t.tbuf = s.tbuf) (htlen : t.tlen = s.tlen)
    (hfault : t.status.fault = s.status.fault) (herr : t.status.err = s.status.err)
    (hsub : t.status.sub = s.status.sub) : Inv t where
  tbuf := htbuf ▸ h.tbuf
  tlen := htlen ▸ h.tlen
  cleared := by
    rw [hfault, herr, hsub]
    exact h.cleared
  recorded := by
    rw [hfault, herr, hsub]
    exact h.recorded

theorem Inv.takeFault {s : State} (h : Inv s) (w : CommandWord) (e : EngineFault) : Inv (takeFault w e s) where
  tbuf := h.tbuf
  tlen := h.tlen
  cleared := nofun
  recorded _ := recordedPair_fault e

/-- Every command keeps the invariant. -/
theorem Inv.exec {i : Instr} {s t : State} (h : Inv s) (ht : exec i s = .next t) : Inv t := by
  have he := exec_ends i s
  rw [ht] at he
  cases he with
  | fault s' e v hs _ =>
    have hs' : Inv (s'.setV v) := h.congr hs.tbuf hs.tlen hs.fault hs.err hs.sub
    exact hs'.takeFault _ e
  | word s' rd w v hs _ => exact h.congr hs.tbuf hs.tlen hs.fault hs.err hs.sub
  | wide s' rd rc w hs => exact h.congr hs.tbuf hs.tlen hs.fault hs.err hs.sub
  | text s' r sc hs _ hsc =>
    have hlen := length_formatText_le (s.reg r) hsc
    refine ⟨memWrite_wf _ _ _ (hs.tbuf ▸ h.tbuf) (by omega), ?_, hs.status ▸ h.cleared, hs.status ▸ h.recorded⟩
    dsimp only
    rw [toNat_length_formatText _ hsc]
    omega

/-- Every write of the window keeps the invariant. -/
theorem Inv.writeWindow {s : State} (h : Inv s) {o : BitVec 8} {w : Width} (d : Word) :
    Inv (writeWindow (locate o w) w d s) := by
  cases hl : locate o w with
  | status =>
    have hst : (Machine.writeWindow .status w d s).status = _ := writeStatus_status (d.setWidth 32) s
    refine ⟨h.tbuf, h.tlen, ?_, ?_⟩ <;> rw [hst] <;> dsimp only <;> cases (d.setWidth 32).getLsbD 0
    · simpa using h.cleared
    · simp
    · simpa using h.recorded
    · simp
  | tlen =>
    rw [Machine.writeWindow, writeTlen_eq]
    refine ⟨h.tbuf, ?_, h.cleared, h.recorded⟩
    dsimp only
    split
    · assumption
    · exact h.tlen
  | tbuf a =>
    refine ⟨memWrite_wf _ _ _ h.tbuf ?_, h.tlen, h.cleared, h.recorded⟩
    rw [length_wordToBytes]
    exact locate_eq_tbuf hl
  | _ => exact h.congr rfl rfl rfl rfl rfl

/-- Settles O22, by what a step can do: a read, a drop and an illegal word leave TBUF and TLEN and record a listed pair or
nothing, and commands and writes keep the invariant (`Inv.exec`, `Inv.writeWindow`). -/
theorem everyStepKeepsTheInvariant : Obligations.EveryStepKeepsTheInvariant := by
  intro s t h ht
  have htaken (rest : List HostInput) : Inv (s.taken rest) := h.congr rfl rfl rfl rfl rfl
  cases stepEnds_of_next ht with
  | idle => exact h
  | read => exact h.congr rfl rfl rfl rfl rfl
  | write o w d => exact (htaken _).writeWindow d
  | drop => exact h.congr rfl rfl rfl rfl rfl
  | illegal d k => exact (htaken _).takeFault _ _
  | command d i t _ _ hi => exact (htaken _).exec hi
  | reset => exact resetMeetsTheInvariant.congr rfl rfl rfl rfl rfl

/-! ### V and the record of unwritten reads -/

/-- Settles O27: the commands by `exec_v`, the other inputs by what a step can do. -/
theorem onlyCheckedOpsChangeV : Obligations.OnlyCheckedOpsChangeV := by
  refine ⟨fun i s t => exec_v, fun s t a rest hs hcmd hreset ht => ?_⟩
  cases stepEnds_of_next ht with
  | idle => rfl
  | read => rfl
  | write o w d => exact writeWindow_v _ w d _
  | drop => rfl
  | illegal => rfl
  | command d _ _ hs' =>
    cases hs.symm.trans hs'
    exact absurd rfl (hcmd d)
  | reset hs' =>
    cases hs.symm.trans hs'
    exact absurd rfl hreset

theorem step_unwrittenRead {s t : State} (hs : s.unwrittenRead = true) (hreset : s.host.head? ≠ some .reset)
    (ht : step s = .next t) : t.unwrittenRead = true := by
  cases stepEnds_of_next ht with
  | idle => exact hs
  | read o w d u _ hu => exact hu hs
  | write o w d => exact (writeWindow_unwrittenRead _ w d _).trans hs
  | drop => exact hs
  | illegal => exact hs
  | command d i t _ _ hi => exact exec_unwrittenRead (s := s.taken _) hs hi
  | reset hs' => simp [hs'] at hreset

/-! ### Runs -/

/-- The first step of a run, and the rest of it. -/
theorem run_succ {k : Nat} {s t : State} (h : Sys2Proof.core.run (k + 1) s = .next t) :
    ∃ u, step s = .next u ∧ Sys2Proof.core.run k u = .next t := by
  cases hs : Sys2Proof.core.step s with
  | next u =>
    simp only [Host.Core.run, hs] at h
    exact ⟨u, hs, h⟩
  | fault f =>
    simp only [Host.Core.run, hs] at h
    cases h
  | refused r =>
    simp only [Host.Core.run, hs] at h
    cases h

/-- What every step keeps, every run keeps. -/
theorem run_keeps {P : State → Prop} (hstep : ∀ u v, P u → step u = .next v → P v) {k : Nat} {s t : State} (hs : P s)
    (h : Sys2Proof.core.run k s = .next t) : P t := by
  induction k generalizing s with
  | zero =>
    cases h
    exact hs
  | succ k ih =>
    obtain ⟨u, hu, hrun⟩ := run_succ h
    exact ih (hstep s u hs hu) hrun

/-- A run is its beginning and the run that follows, which finds the inputs the beginning left. -/
theorem run_add {j m : Nat} {s t : State} (h : Sys2Proof.core.run (j + m) s = .next t) :
    ∃ u, Sys2Proof.core.run j s = .next u ∧ Sys2Proof.core.run m u = .next t ∧ u.host = s.host.drop j := by
  induction j generalizing s with
  | zero => exact ⟨s, rfl, by rwa [Nat.zero_add] at h, rfl⟩
  | succ j ih =>
    rw [Nat.add_right_comm] at h
    obtain ⟨v, hv, hrun⟩ := run_succ h
    obtain ⟨u, hu, hrest, hhost⟩ := ih hrun
    have hv' : Sys2Proof.core.step s = .next v := hv
    refine ⟨u, ?_, hrest, ?_⟩
    · simp only [Host.Core.run, hv', hu]
    · rw [hhost, step_host hv, List.drop_tail]

theorem run_unwrittenRead {m : Nat} {u t : State} (hu : u.unwrittenRead = true) (hreset : .reset ∉ u.host.take m)
    (h : Sys2Proof.core.run m u = .next t) : t.unwrittenRead = true := by
  induction m generalizing u with
  | zero =>
    cases h
    exact hu
  | succ m ih =>
    obtain ⟨v, hv, hrun⟩ := run_succ h
    have htail : v.host = u.host.tail := step_host hv
    cases hhost : u.host with
    | nil => exact ih (step_unwrittenRead hu (by simp [hhost]) hv) (by simp [htail, hhost]) hrun
    | cons a rest =>
      rw [hhost, List.take_succ_cons, List.mem_cons, not_or] at hreset
      obtain ⟨ha, hrest⟩ := hreset
      refine ih (step_unwrittenRead hu ?_ hv) (by rwa [htail, hhost]) hrun
      rw [hhost, List.head?_cons, Ne, Option.some.injEq]
      exact Ne.symm ha

/-- Settles O29: the record is kept by every step but reset (`step_unwrittenRead`), so a record made in the beginning of a
run would stand at its end (`run_unwrittenRead`). -/
theorem unwrittenReadRecordIsSticky : Obligations.UnwrittenReadRecordIsSticky := by
  refine ⟨fun s t => step_unwrittenRead, fun j k s t hjk ⟨hreset, hrun, hread⟩ => ?_⟩
  obtain ⟨m, rfl⟩ := Nat.exists_eq_add_of_le hjk
  obtain ⟨u, hu, hrest, hhost⟩ := run_add hrun
  refine ⟨u, fun h => hreset (List.take_subset_take_left s.host hjk h), hu, ?_⟩
  by_contra hne
  have hmid : HostInput.reset ∉ u.host.take m := fun h => by
    rw [hhost, ← Nat.add_sub_cancel_left (n := j) (m := m), ← List.drop_take] at h
    exact hreset (List.mem_of_mem_drop h)
  rw [run_unwrittenRead (Bool.eq_true_of_not_eq_false hne) hmid hrest] at hread
  cases hread

/-! ### A recorded fault -/

/-- R126: what stays while the fault that `s` records stands: the record, and the registers no input of `s` addresses. The
inputs to come are among those of `s`. -/
structure KeepsRecord (s t : State) : Prop where
  fault : t.status.fault = true
  err : t.status.err = s.status.err
  sub : t.status.sub = s.status.sub
  fcmd : t.fcmd = s.fcmd
  host : t.host ⊆ s.host
  regs : ∀ r : Reg, (∀ o w d, .write o w d ∈ s.host → o.toNat / 8 ≠ r.val) →
    t.reg r = s.reg r ∧ t.xWritten[r.val] = s.xWritten[r.val]

/-- One more step keeps the record: no command is executed while FAULT = 1, and a write of the window that is not of STATUS
changes the register it addresses at most. -/
theorem KeepsRecord.step {s u v : State} (h : KeepsRecord s u) (hstatus : ∀ w d, .write 0x84 w d ∉ s.host)
    (hreset : .reset ∉ s.host) (hv : step u = .next v) : KeepsRecord s v := by
  have hhost : v.host ⊆ s.host := by
    have htail : v.host = u.host.tail := step_host hv
    rw [htail]
    exact List.Subset.trans (List.tail_subset _) h.host
  cases stepEnds_of_next hv with
  | idle => exact h
  | read => exact { h with host := hhost }
  | @write rest o w d hu hl =>
    have hmem : .write o w d ∈ s.host := h.host (hu ▸ List.mem_cons_self)
    have hst : (writeWindow (locate o w) w d (u.taken rest)).status = u.status :=
      writeWindow_status _ w d _ fun hg => hstatus w d (locate_eq_status hg ▸ hmem)
    refine ⟨by rw [hst, h.fault], by rw [hst, h.err], by rw [hst, h.sub], (writeWindow_fcmd _ w d _).trans h.fcmd, hhost,
      fun r hr => ?_⟩
    obtain ⟨hreg, hwritten⟩ := writeWindow_sameRegs (locate o w) w d (u.taken rest) r fun k hg =>
      hr o w d hmem (locate_eq_x hg)
    obtain ⟨hreg', hwritten'⟩ := h.regs r hr
    exact ⟨hreg.trans hreg', hwritten.trans hwritten'⟩
  | drop => exact { h with host := hhost }
  | illegal d k _ hf => simp [h.fault] at hf
  | command d i t _ hf => simp [h.fault] at hf
  | reset hu => exact absurd (h.host (hu ▸ List.mem_cons_self)) hreset

/-- Settles O7: every step of the run keeps the record (`KeepsRecord.step`). -/
theorem faultRecordIsNeverOverwritten : Obligations.FaultRecordIsNeverOverwritten := by
  intro k s t hf hstatus hreset hrun
  have hstart : KeepsRecord s s := ⟨hf, rfl, rfl, rfl, List.Subset.refl _, fun r _ => ⟨rfl, rfl⟩⟩
  have hend : KeepsRecord s t := run_keeps (fun u v h => h.step hstatus hreset) hstart hrun
  exact ⟨hend.fault, hend.err, hend.sub, hend.fcmd, hend.regs⟩

end Sys2Proof.Machine
end

section
/-! SUPPORT. How a command ends, given its meaning as one of the shared ends on the state that has noted its reads; the
completion or fault that `Safety.lean` speaks of, once for each shared end (`60_exceptions.md` R121, R123). -/

namespace Sys2Proof.Machine

section
variable {i : Instr} {rd : Reg} {srcs : List Reg} {s : State}

theorem completes_of_write {w : Word} (h : exec i s = .next ((srcs.foldl State.noteRead s).writeReg rd w)) :
    ∃ t, exec i s = .next t ∧ Completes rd w srcs s t :=
  ⟨_, h, completes_writeReg rd w srcs s⟩

theorem faults_of_raise {e : EngineFault} (h : exec i s = raise i e (srcs.foldl State.noteRead s)) :
    ∃ t, exec i s = .next t ∧ Faults (encode i) e.err e.sub s.status.v srcs s t :=
  ⟨_, h, faults_takeFault (encode i) e srcs s⟩

section
variable {r : Except EngineFault Word} (hexec : exec i s = finish i rd r (srcs.foldl State.noteRead s))
include hexec

theorem completes_of_finish {w : Word} (h : r = .ok w) : ∃ t, exec i s = .next t ∧ Completes rd w srcs s t := by
  subst h
  exact completes_of_write hexec

theorem faults_of_finish {e : EngineFault} (h : r = .error e) :
    ∃ t, exec i s = .next t ∧ Faults (encode i) e.err e.sub s.status.v srcs s t := by
  subst h
  exact faults_of_raise hexec

end

section
variable {ov : OverflowMode} {e : Int}

/-- R70: in range or unchecked, the wrapped result is written and V is the signal. -/
theorem completesV_of_finishChecked (hexec : exec i s = finishChecked i rd ov e (srcs.foldl State.noteRead s))
    (h : fits64 e ∨ ov = .unchecked) :
    ∃ t, exec i s = .next t ∧ CompletesV rd (word64 e) (decide (¬ fits64 e)) srcs s t := by
  obtain ⟨hfit, hov, -⟩ | ⟨-, hend⟩ := finishChecked_cases i rd ov e (srcs.foldl State.noteRead s)
  · obtain h | h := h
    · exact absurd h hfit
    · simp [hov] at h
  · exact ⟨_, hexec.trans hend, completesV_writeReg rd _ _ srcs s⟩

/-- R70: out of range and checked, the command faults and sets V. -/
theorem faults_of_finishChecked (hexec : exec i s = finishChecked i rd .checked e (srcs.foldl State.noteRead s))
    (h : ¬ fits64 e) : ∃ t, exec i s = .next t ∧ Faults (encode i) 3 0 true srcs s t := by
  obtain ⟨-, -, hend⟩ | ⟨hfit | hov, -⟩ := finishChecked_cases i rd .checked e (srcs.foldl State.noteRead s)
  · exact ⟨_, hexec.trans hend, faults_takeFault_setV (encode i) .overflow true srcs s⟩
  · exact absurd hfit h
  · cases hov

variable (hexec : exec i s = finishWrapping i rd ov e (srcs.foldl State.noteRead s))
include hexec

theorem completes_of_finishWrapping (h : fits64 e ∨ ov = .unchecked) :
    ∃ t, exec i s = .next t ∧ Completes rd (word64 e) srcs s t := by
  obtain ⟨hfit, hov, -⟩ | ⟨-, hend⟩ := finishWrapping_cases i rd ov e (srcs.foldl State.noteRead s)
  · obtain h | h := h
    · exact absurd h hfit
    · simp [hov] at h
  · exact completes_of_write (hexec.trans hend)

theorem faults_of_finishWrapping (h : ¬ fits64 e) (hov : ov = .checked) :
    ∃ t, exec i s = .next t ∧ Faults (encode i) 3 0 s.status.v srcs s t := by
  obtain ⟨-, -, hend⟩ | ⟨hfit | hov', -⟩ := finishWrapping_cases i rd ov e (srcs.foldl State.noteRead s)
  · exact faults_of_raise (e := .overflow) (hexec.trans hend)
  · exact absurd hfit h
  · simp [hov] at hov'

end

/-! ### Rounding commands with an overflow mode -/

/-- R88: an inexact value under UNNECESSARY, unchecked. -/
theorem decResult_of_inexact_unchecked {c : OpContext} {q : Ratio} (hden : 0 < q.den) (hrm : c.rm = .unnecessary)
    (hint : ¬ ∃ r : Int, (r : ℚ) = q.toRat) : decResult c q .unchecked = .error .roundingNecessary := by
  rw [← isInt_iff_exists hden] at hint
  rw [decResult, if_pos ⟨hrm, hint⟩, if_neg fun h => nomatch h.1]

section
variable {operands : List Word} {k : Nat} {rm : RoundingMode} {ov : OverflowMode} {q : Ratio}
  (hexec : exec i s = finishRounded i rd operands k rm ov q (srcs.foldl State.noteRead s)) (hden : 0 < q.den)
include hexec hden

/-- R88: in range, the rounded value is written. -/
theorem roundsAndCompletes (x : ℚ) (hx : x = q.toRat) : RoundsAndCompletes i rd srcs x rm s := by
  subst hx
  intro r hr hfit
  refine completes_of_finish hexec ?_
  rw [decResult_of_roundsTo hden hr, fitResult, if_pos hfit, word64]

theorem inexactFaults (hrange : ¬ OutOfRange q.toRat) : InexactFaults i srcs q.toRat rm s := fun hrm hint =>
  faults_of_finish (e := .roundingNecessary) hexec (decResult_of_inexact hden hrm hint hrange)

/-- R88: without checking, an inexact value under UNNECESSARY faults wherever it lies. -/
theorem inexactFaults_unchecked (hov : ov = .unchecked) : InexactFaults i srcs q.toRat rm s := by
  subst hov
  exact fun hrm hint =>
    faults_of_finish (e := .roundingNecessary) hexec (decResult_of_inexact_unchecked hden hrm hint)

theorem inexactOutOfRangeFaults (hov : ov = .checked) : InexactOutOfRangeFaults i srcs q.toRat rm s := by
  subst hov
  intro hrm hint hrange
  have hres := decResult_of_inexact_outOfRange (c := ⟨i.opcode, operands, k, rm⟩) hden hrm hint hrange
  obtain ⟨t, ht, hfaults⟩ := faults_of_finish hexec hres
  obtain hchoice | hchoice := arithFaultChoice_cases ⟨i.opcode, operands, k, rm⟩ <;> rw [hchoice] at hfaults
  · exact ⟨t, ht, .inl hfaults⟩
  · exact ⟨t, ht, .inr hfaults⟩

theorem overflowFaults (hov : ov = .checked) : OverflowFaults i srcs q.toRat rm s := by
  intro r hr hfit
  refine faults_of_finish (e := .overflow) hexec ?_
  rw [decResult_of_roundsTo hden hr, fitResult, if_neg hfit, if_pos hov]

theorem overflowWraps (hov : ov = .unchecked) : OverflowWraps i rd srcs q.toRat rm s := by
  intro r hr hfit
  have hres : decResult ⟨i.opcode, operands, k, rm⟩ q ov = .ok (uncheckedWrap ⟨i.opcode, operands, k, rm⟩) := by
    rw [decResult_of_roundsTo hden hr, fitResult, if_neg hfit, if_neg (by simp [hov])]
  obtain ⟨t, ht, hdone⟩ := completes_of_finish hexec hres
  exact ⟨t, _, ht, hdone⟩

/-- R88: the other ends of a rounding command, under both overflow modes. -/
theorem roundsOrFaults (x : ℚ) (hx : x = q.toRat) : RoundsOrFaults i rd srcs x rm ov s := by
  subst hx
  refine ⟨fun h => ?_, fun hov => ⟨inexactOutOfRangeFaults hexec hden hov, overflowFaults hexec hden hov⟩,
    overflowWraps hexec hden⟩
  obtain hov | hrange := h
  · exact inexactFaults_unchecked hexec hden hov
  · exact inexactFaults hexec hden hrange

end

end

end Sys2Proof.Machine
end

section
/-! SUPPORT. The statements on CheckedOps, Unsigned64 and Wide128 (`41_checkedops.md`, `42_wide128.md`). -/

namespace Sys2Proof.Machine

/-! ### Words as integers -/

theorem fits64_toInt (a : Word) : fits64 a.toInt := by
  have hlo := BitVec.le_toInt a
  have hhi := BitVec.toInt_lt (x := a)
  simp only [fits64, minWord, maxWord]
  omega

theorem word64_toInt (a : Word) : word64 a.toInt = a := BitVec.ofInt_toInt

theorem word64_add (a b : Word) : word64 (a.toInt + b.toInt) = a + b := by simp [word64, BitVec.ofInt_add]
theorem word64_sub (a b : Word) : word64 (a.toInt - b.toInt) = a - b := by
  rw [sub_eq_add_neg, word64, BitVec.ofInt_add, BitVec.ofInt_neg, BitVec.ofInt_toInt, BitVec.ofInt_toInt,
    BitVec.sub_eq_add_neg]
theorem word64_mul (a b : Word) : word64 (a.toInt * b.toInt) = a * b := by simp [word64, BitVec.ofInt_mul]
theorem word64_neg (a : Word) : word64 (-a.toInt) = -a := by simp [word64, BitVec.ofInt_neg]

theorem word64_tdiv (a b : Word) : word64 (a.toInt.tdiv b.toInt) = a.sdiv b :=
  BitVec.eq_of_toInt_eq (by rw [word64, BitVec.toInt_ofInt, BitVec.toInt_sdiv])

theorem toInt_eq_minWord_iff (a : Word) : a.toInt = minWord ↔ a = 0x8000000000000000 :=
  ⟨fun h => BitVec.eq_of_toInt_eq (by rw [h]; rfl), fun h => by rw [h]; rfl⟩

theorem toInt_eq_zero_iff (a : Word) : a.toInt = 0 ↔ a = 0 :=
  ⟨fun h => BitVec.eq_of_toInt_eq (by rw [h]; rfl), fun h => by rw [h]; rfl⟩

theorem toInt_eq_neg_one_iff (a : Word) : a.toInt = -1 ↔ a = -1 :=
  ⟨fun h => BitVec.eq_of_toInt_eq (by rw [h]; rfl), fun h => by rw [h]; rfl⟩

theorem toNat_eq_zero_iff (a : Word) : a.toNat = 0 ↔ a = 0 :=
  ⟨fun h => BitVec.eq_of_toNat_eq (by rw [h]; rfl), fun h => by rw [h]; rfl⟩

/-- R75: MIN alone has no negative. -/
theorem not_fits64_neg_iff (a : Word) : ¬ fits64 (-a.toInt) ↔ a = 0x8000000000000000 := by
  obtain ⟨hlo, hhi⟩ := fits64_toInt a
  rw [← toInt_eq_minWord_iff]
  simp only [fits64, minWord, maxWord] at *
  omega

/-- R76: MIN alone has no magnitude. -/
theorem not_fits64_natAbs_iff (a : Word) : ¬ fits64 a.toInt.natAbs ↔ a = 0x8000000000000000 := by
  obtain ⟨hlo, hhi⟩ := fits64_toInt a
  rw [← toInt_eq_minWord_iff]
  simp only [fits64, minWord, maxWord] at *
  omega

theorem word64_natAbs (a : Word) : word64 a.toInt.natAbs = if a.toInt < 0 then -a else a := by
  split
  · rename_i h
    rw [Int.ofNat_natAbs_of_nonpos h.le, word64_neg]
  · rename_i h
    rw [Int.natAbs_of_nonneg (not_lt.mp h), word64_toInt]

/-- R74: MIN / -1 alone is out of range. -/
theorem not_fits64_tdiv_iff (a b : Word) :
    ¬ fits64 (a.toInt.tdiv b.toInt) ↔ a = 0x8000000000000000 ∧ b = -1 := by
  rw [← toInt_eq_minWord_iff, ← toInt_eq_neg_one_iff]
  by_cases hb : b.toInt = -1
  · rw [hb, Int.tdiv_neg, Int.tdiv_one, and_iff_left rfl, not_fits64_neg_iff, toInt_eq_minWord_iff]
  · have hfits : fits64 (a.toInt.tdiv b.toInt) := by
      by_cases hone : b.toInt = 1
      · rw [hone, Int.tdiv_one]
        exact fits64_toInt a
      · have habs : (a.toInt.tdiv b.toInt).natAbs = a.toInt.natAbs / b.toInt.natAbs := Int.natAbs_tdiv ..
        have hhalf : a.toInt.natAbs / b.toInt.natAbs ≤ a.toInt.natAbs / 2 ∨ b.toInt.natAbs = 0 := by
          by_cases h0 : b.toInt.natAbs = 0
          · exact .inr h0
          · exact .inl (Nat.div_le_div_left (by omega) (by decide))
        obtain ⟨hlo, hhi⟩ := fits64_toInt a
        have hzero : b.toInt.natAbs = 0 → a.toInt.natAbs / b.toInt.natAbs = 0 := fun h => by rw [h, Nat.div_zero]
        simp only [fits64, minWord, maxWord] at *
        omega
    exact iff_of_false (not_not.mpr hfits) fun h => hb h.2

/-! ### CheckedOps -/

section
variable (s : State) (rd rs1 rs2 : Reg) (ov : OverflowMode)

theorem exec_add64 : exec (.add64 rd rs1 rs2 ov) s =
    finishChecked (.add64 rd rs1 rs2 ov) rd ov ((s.reg rs1).toInt + (s.reg rs2).toInt)
      ([rs1, rs2].foldl State.noteRead s) := rfl

theorem exec_sub64 : exec (.sub64 rd rs1 rs2 ov) s =
    finishChecked (.sub64 rd rs1 rs2 ov) rd ov ((s.reg rs1).toInt - (s.reg rs2).toInt)
      ([rs1, rs2].foldl State.noteRead s) := rfl

theorem exec_mul64 : exec (.mul64 rd rs1 rs2 ov) s =
    finishChecked (.mul64 rd rs1 rs2 ov) rd ov ((s.reg rs1).toInt * (s.reg rs2).toInt)
      ([rs1, rs2].foldl State.noteRead s) := rfl

theorem exec_neg64 : exec (.neg64 rd rs1 ov) s =
    finishChecked (.neg64 rd rs1 ov) rd ov (-(s.reg rs1).toInt) ([rs1].foldl State.noteRead s) := rfl

theorem exec_abs64 : exec (.abs64 rd rs1 ov) s =
    finishChecked (.abs64 rd rs1 ov) rd ov (s.reg rs1).toInt.natAbs ([rs1].foldl State.noteRead s) := rfl

theorem exec_div64 (h : s.reg rs2 ≠ 0) : exec (.div64 rd rs1 rs2 ov) s =
    finishChecked (.div64 rd rs1 rs2 ov) rd ov ((s.reg rs1).toInt.tdiv (s.reg rs2).toInt)
      ([rs2, rs1].foldl State.noteRead s) :=
  if_neg (mt (toInt_eq_zero_iff _).mp h)

theorem exec_div64_zero (h : s.reg rs2 = 0) : exec (.div64 rd rs1 rs2 ov) s =
    raise (.div64 rd rs1 rs2 ov) .divisionByZero ([rs2].foldl State.noteRead s) :=
  if_pos ((toInt_eq_zero_iff _).mpr h)

end

/-- Settles O31: each is `finishChecked` of its exact result (`completesV_of_finishChecked`), and the wrapped result is the
word operation's. -/
theorem checkedOpsWriteTheWrappedResult : Obligations.CheckedOpsWriteTheWrappedResult := by
  intro s rd rs1 rs2 ov
  refine ⟨fun h => ?_, fun h => ?_, fun h => ?_, fun h => ⟨?_, ?_⟩⟩
  · rw [← word64_add]
    exact completesV_of_finishChecked (exec_add64 s rd rs1 rs2 ov) h
  · rw [← word64_sub]
    exact completesV_of_finishChecked (exec_sub64 s rd rs1 rs2 ov) h
  · rw [← word64_mul]
    exact completesV_of_finishChecked (exec_mul64 s rd rs1 rs2 ov) h
  · rw [ne_eq, ← not_fits64_neg_iff, not_not] at h
    simp only [← not_fits64_neg_iff, ← word64_neg]
    exact completesV_of_finishChecked (exec_neg64 s rd rs1 ov) h
  · rw [ne_eq, ← not_fits64_natAbs_iff, not_not] at h
    simp only [← not_fits64_natAbs_iff, ← word64_natAbs]
    exact completesV_of_finishChecked (exec_abs64 s rd rs1 ov) h

/-- Settles O32: the faulting end of `finishChecked` (`faults_of_finishChecked`). -/
theorem checkedOverflowFaultsAndSetsV : Obligations.CheckedOverflowFaultsAndSetsV := by
  intro s rd rs1 rs2
  refine ⟨faults_of_finishChecked (exec_add64 s rd rs1 rs2 _), faults_of_finishChecked (exec_sub64 s rd rs1 rs2 _),
    faults_of_finishChecked (exec_mul64 s rd rs1 rs2 _), fun h h' => ?div, fun h => ⟨?neg, ?abs⟩⟩
  case div =>
    have hdivisor : s.reg rs2 ≠ 0 := by rw [h']; decide
    exact faults_of_finishChecked (exec_div64 s rd rs1 rs2 _ hdivisor) ((not_fits64_tdiv_iff _ _).mpr ⟨h, h'⟩)
  case neg => exact faults_of_finishChecked (exec_neg64 s rd rs1 _) ((not_fits64_neg_iff _).mpr h)
  case abs => exact faults_of_finishChecked (exec_abs64 s rd rs1 _) ((not_fits64_natAbs_iff _).mpr h)

/-- Settles O33: the exact quotient is `Int.tdiv`, out of range for MIN / -1 alone (`not_fits64_tdiv_iff`). -/
theorem div64TruncatesAndRefusesZero : Obligations.Div64TruncatesAndRefusesZero := by
  intro s rd rs1 rs2 ov
  refine ⟨fun hdivisor h => ?_, fun h => faults_of_raise (e := .divisionByZero) (exec_div64_zero s rd rs1 rs2 ov h)⟩
  simp only [← not_fits64_tdiv_iff, ← word64_tdiv] at h ⊢
  exact completesV_of_finishChecked (exec_div64 s rd rs1 rs2 ov hdivisor) (h.imp_left not_not.mp)

/-! ### Unsigned64 -/

/-- R10: the sign of a difference is the order. -/
theorem word64_sgn_sub (x y : Int) : word64 (sgn (x - y)) = if x < y then -1 else if x = y then 0 else 1 := by
  have hsgn : sgn (x - y) = if x < y then -1 else if x = y then 0 else 1 := by
    simp only [sgn, sub_eq_zero, sub_neg]
  rw [hsgn]
  split_ifs <;> rfl

/-- Settles O34. -/
theorem unsignedCompareAndDivide : Obligations.UnsignedCompareAndDivide := by
  intro s rd rs1 rs2
  refine ⟨?compare, fun h => ?divide, fun h => ?zero⟩
  case compare =>
    have horder : word64 (sgn (((s.reg rs1).toNat : Int) - (s.reg rs2).toNat)) =
        if (s.reg rs1).ult (s.reg rs2) then -1 else if s.reg rs1 = s.reg rs2 then 0 else 1 := by
      rw [word64_sgn_sub]
      simp only [Nat.cast_lt, Nat.cast_inj, BitVec.toNat_inj, BitVec.ult, decide_eq_true_eq]
    rw [← horder]
    exact completes_of_write (srcs := [rs1, rs2]) rfl
  case divide =>
    have hexec : exec (.udiv64 rd rs1 rs2) s = .next (([rs2, rs1].foldl State.noteRead s).writeReg rd
        (BitVec.ofNat 64 ((s.reg rs1).toNat / (s.reg rs2).toNat))) := if_neg (mt (toNat_eq_zero_iff _).mp h)
    have hquot : BitVec.ofNat 64 ((s.reg rs1).toNat / (s.reg rs2).toNat) = s.reg rs1 / s.reg rs2 :=
      BitVec.eq_of_toNat_eq (by
        rw [BitVec.toNat_udiv, BitVec.toNat_ofNat, Nat.mod_eq_of_lt]
        exact (Nat.div_le_self _ _).trans_lt (s.reg rs1).isLt)
    rw [hquot] at hexec
    exact completes_of_write hexec
  case zero =>
    have hexec : exec (.udiv64 rd rs1 rs2) s =
        raise (.udiv64 rd rs1 rs2) .divisionByZero ([rs2].foldl State.noteRead s) :=
      if_pos ((toNat_eq_zero_iff _).mpr h)
    exact faults_of_raise hexec

/-! ### Wide128 -/

/-- R80: the high half, signed, and the low half, unsigned, make up the signed pattern. -/
theorem toInt_halves (w : BitVec 128) :
    (w.extractLsb' 64 64).toInt * 2 ^ 64 + (w.extractLsb' 0 64).toNat = w.toInt := by
  have hw := w.isLt
  rw [BitVec.toInt_eq_toNat_cond, BitVec.toInt_eq_toNat_cond]
  simp only [BitVec.extractLsb'_toNat, Nat.shiftRight_eq_div_pow]
  omega

/-- R81: the two halves, unsigned, make up the unsigned pattern. -/
theorem toNat_halves (w : BitVec 128) :
    (w.extractLsb' 64 64).toNat * 2 ^ 64 + (w.extractLsb' 0 64).toNat = w.toNat := by
  have hw := w.isLt
  simp only [BitVec.extractLsb'_toNat, Nat.shiftRight_eq_div_pow]
  omega

/-- R80: a product of two words fits in 128 bits. -/
theorem toInt_ofInt_mul (a b : Word) : (BitVec.ofInt 128 (a.toInt * b.toInt)).toInt = a.toInt * b.toInt := by
  have habs (c : Word) : |c.toInt| ≤ 2 ^ 63 := by
    have hlo := BitVec.le_toInt c
    have hhi := BitVec.toInt_lt (x := c)
    exact abs_le.mpr ⟨by omega, by omega⟩
  have hmul : |a.toInt * b.toInt| ≤ 2 ^ 63 * 2 ^ 63 := by
    rw [abs_mul]
    exact mul_le_mul (habs a) (habs b) (abs_nonneg _) (by decide)
  obtain ⟨hlo, hhi⟩ := abs_le.mp hmul
  exact BitVec.toInt_ofInt_eq_self (by decide) (by omega) (by omega)

theorem toNat_ofNat_mul (a b : Word) : (BitVec.ofNat 128 (a.toNat * b.toNat)).toNat = a.toNat * b.toNat := by
  rw [BitVec.toNat_ofNat, Nat.mod_eq_of_lt]
  calc a.toNat * b.toNat < 2 ^ 64 * 2 ^ 64 := Nat.mul_lt_mul'' a.isLt b.isLt
    _ = 2 ^ 128 := by decide

section
variable (s : State) (srcs : List Reg) {rd rc : Reg} (w : BitVec 128)

theorem reg_writeWide_high (h : rd ≠ rc) : (writeWide rd rc w s).reg rd = w.extractLsb' 64 64 := by
  rw [writeWide, reg_writeReg_ne _ _ _ _ h, reg_writeReg_same]

theorem reg_writeWide_low : (writeWide rd rc w s).reg rc = w.extractLsb' 0 64 := by
  rw [writeWide, reg_writeReg_same]

theorem isWritten_writeReg_of_isWritten (r q : Reg) (v : Word) (h : s.isWritten q = true) :
    (s.writeReg r v).isWritten q = true := by
  by_cases hq : q = r
  · rw [hq, isWritten_writeReg_same]
  · rwa [State.isWritten, xWritten_writeReg_ne s r q v hq]

/-- R80, R81: a wide product writes its two destinations, and nothing else but the notes of its reads. -/
theorem writeWide_frame (h : rd ≠ rc) :
    ∃ t, writeWide rd rc w (srcs.foldl State.noteRead s) = t ∧ t.reg rd = w.extractLsb' 64 64 ∧
      t.reg rc = w.extractLsb' 0 64 ∧ t.isWritten rd = true ∧ t.isWritten rc = true ∧ SameRegsBut [rd, rc] s t ∧
      t.status = s.status ∧ t.fcmd = s.fcmd ∧ SameText s t ∧ SameOutside s t ∧ NotesReads srcs s t := by
  have hwritten : (writeWide rd rc w (srcs.foldl State.noteRead s)).isWritten rd = true :=
    isWritten_writeReg_of_isWritten _ rc rd _ (isWritten_writeReg_same _ _ _)
  refine ⟨_, rfl, reg_writeWide_high _ w h, reg_writeWide_low _ w, hwritten, isWritten_writeReg_same _ _ _,
    fun r hr => ?_, ?_⟩
  · simp only [List.mem_cons, List.not_mem_nil, or_false, not_or] at hr
    obtain ⟨hrd, hrc⟩ := hr
    rw [writeWide, reg_writeReg_ne _ _ _ _ hrc, reg_writeReg_ne _ _ _ _ hrd, xWritten_writeReg_ne _ _ _ _ hrc,
      xWritten_writeReg_ne _ _ _ _ hrd, foldl_noteRead]
    exact ⟨rfl, rfl⟩
  · rw [foldl_noteRead]
    exact ⟨rfl, rfl, ⟨rfl, fun _ => rfl⟩, ⟨rfl, rfl, rfl⟩, rfl⟩

end

/-- Settles O35: the halves written make up the exact product (`toInt_halves`, `toNat_halves`), which fits in 128 bits. -/
theorem wideProductsAreExact : Obligations.WideProductsAreExact := by
  intro s rd rs1 rs2 rc
  refine ⟨fun h => ⟨?signed, ?unsigned⟩, fun h => ⟨?signedConflict, ?unsignedConflict⟩⟩
  case signed =>
    have hexec : exec (.wmuls rd rs1 rs2 rc) s = .next (writeWide rd rc
        (BitVec.ofInt 128 ((s.reg rs1).toInt * (s.reg rs2).toInt)) ([rs1, rs2].foldl State.noteRead s)) := if_neg h
    obtain ⟨t, ht, hrd, hrc, hframe⟩ := writeWide_frame s [rs1, rs2] _ h
    refine ⟨t, hexec.trans (congrArg _ ht), ?_, hframe⟩
    rw [hrd, hrc, toInt_halves, toInt_ofInt_mul]
  case unsigned =>
    have hexec : exec (.wmulu rd rs1 rs2 rc) s = .next (writeWide rd rc
        (BitVec.ofNat 128 ((s.reg rs1).toNat * (s.reg rs2).toNat)) ([rs1, rs2].foldl State.noteRead s)) := if_neg h
    obtain ⟨t, ht, hrd, hrc, hframe⟩ := writeWide_frame s [rs1, rs2] _ h
    refine ⟨t, hexec.trans (congrArg _ ht), ?_, hframe⟩
    rw [hrd, hrc, toNat_halves, toNat_ofNat_mul]
  case signedConflict =>
    have hexec : exec (.wmuls rd rs1 rs2 rc) s = raise (.wmuls rd rs1 rs2 rc) (.illegal .destConflict) s := if_pos h
    exact faults_of_raise (srcs := []) hexec
  case unsignedConflict =>
    have hexec : exec (.wmulu rd rs1 rs2 rc) s = raise (.wmulu rd rs1 rs2 rc) (.illegal .destConflict) s := if_pos h
    exact faults_of_raise (srcs := []) hexec

/-- R82: the exact quotient is the magnitude over the divisor, with the sign of `n`. -/
theorem toRat_wideQuotient (hi lo v : Word) (n : QuotientSign) :
    (wideQuotient hi lo v n).toRat =
      (if n = .neg then -1 else 1) * ((hi.toNat * 2 ^ 64 + lo.toNat : ℚ) / v.toNat) := by
  cases n <;> simp only [Ratio.toRat, wideQuotient, reduceCtorEq, if_true, if_false] <;> push_cast <;> ring

/-- Settles O36: DIV128 is `finishRounded` of the exact quotient (`toRat_wideQuotient`), always checked. -/
theorem div128RoundsTheExactQuotient : Obligations.Div128RoundsTheExactQuotient := by
  intro s rd rs1 rs2 rc rm n
  refine ⟨fun h => ?_, fun h => ?zero⟩
  case zero =>
    have hexec : exec (.div128 rd rs1 rs2 rc rm n) s =
        raise (.div128 rd rs1 rs2 rc rm n) .divisionByZero ([rs1, rs2, rc].foldl State.noteRead s) :=
      if_pos ((toNat_eq_zero_iff _).mpr h)
    exact faults_of_raise hexec
  have hdivisor : (s.reg rc).toNat ≠ 0 := mt (toNat_eq_zero_iff _).mp h
  have hden : 0 < (wideQuotient (s.reg rs1) (s.reg rs2) (s.reg rc) n).den := Nat.pos_of_ne_zero hdivisor
  have hexec : exec (.div128 rd rs1 rs2 rc rm n) s =
      finishRounded (.div128 rd rs1 rs2 rc rm n) rd [s.reg rs1, s.reg rs2, s.reg rc, n.bits.setWidth 64] 0 rm .checked
        (wideQuotient (s.reg rs1) (s.reg rs2) (s.reg rc) n) ([rs1, rs2, rc].foldl State.noteRead s) :=
    if_neg hdivisor
  rw [← toRat_wideQuotient]
  exact ⟨roundsAndCompletes_of_finishRounded hexec hden, roundsOrFaultsChecked_of_finishRounded hexec hden⟩

end Sys2Proof.Machine
end

section
/-! SUPPORT. The rational reading of the modes (`43_rounding.md` R85, R87): every mode but UNNECESSARY rounds every rational,
by less than one unit; and the statements on `Round`, RCLASS and RINC. -/

namespace Sys2Proof.Machine

/-! ### Every rational rounds -/

/-- A nearest integer that meets `P`, where one of the two does in a tie. -/
theorem exists_nearest {x : ℚ} {P : Int → Prop} (htie : x = ⌊x⌋ + 1 / 2 → P ⌊x⌋ ∨ P (⌊x⌋ + 1)) :
    ∃ r : Int, |x - r| ≤ 1 / 2 ∧ (|x - r| = 1 / 2 → P r) := by
  have hlo := Int.floor_le x
  have hhi := Int.lt_floor_add_one x
  have hdown : |x - ⌊x⌋| = x - ⌊x⌋ := abs_of_nonneg (by linarith)
  have hup : |x - (⌊x⌋ + 1 : Int)| = 1 - (x - ⌊x⌋) := by
    rw [abs_of_nonpos] <;> push_cast <;> linarith
  obtain hlt | heq | hgt := lt_trichotomy (x - ⌊x⌋) (1 / 2)
  · exact ⟨⌊x⌋, by linarith, fun h => by linarith⟩
  · obtain hP | hP := htie (by linarith)
    · exact ⟨⌊x⌋, by linarith, fun _ => hP⟩
    · exact ⟨⌊x⌋ + 1, by linarith, fun _ => hP⟩
  · exact ⟨⌊x⌋ + 1, by linarith, fun h => by linarith⟩

theorem exists_roundsTo (x : ℚ) {m : RoundingMode} (hm : m ≠ .unnecessary) : ∃ r : Int, RoundsTo x m r := by
  cases m with
  | up => exact ⟨_, rfl⟩
  | down => exact ⟨_, rfl⟩
  | ceiling => exact ⟨_, rfl⟩
  | floor => exact ⟨_, rfl⟩
  | unnecessary => exact absurd rfl hm
  | halfUp =>
    refine exists_nearest fun htie => ?_
    obtain hneg | hpos := lt_or_ge x 0
    · left
      rw [abs_of_neg hneg, abs_of_neg (by linarith)]
      linarith
    · right
      push_cast
      rw [abs_of_nonneg hpos, abs_of_nonneg (by linarith)]
      linarith
  | halfDown =>
    refine exists_nearest fun htie => ?_
    obtain hneg | hpos := lt_or_ge x 0
    · right
      have hnext : ⌊x⌋ + 1 ≤ 0 := Int.floor_lt.mpr (by exact_mod_cast hneg)
      have hnext : ((⌊x⌋ + 1 : Int) : ℚ) ≤ 0 := by exact_mod_cast hnext
      rw [abs_of_neg hneg, abs_of_nonpos hnext]
      push_cast
      linarith
    · left
      have hfloor : (0 : ℚ) ≤ ⌊x⌋ := by exact_mod_cast Int.floor_nonneg.mpr hpos
      rw [abs_of_nonneg hpos, abs_of_nonneg hfloor]
      linarith
  | halfEven => exact exists_nearest fun _ => by omega

/-- R87: rounding moves a value by less than one unit. -/
theorem abs_sub_lt_one_of_roundsTo {x : ℚ} {m : RoundingMode} {r : Int} (h : RoundsTo x m r) : |x - r| < 1 := by
  have hfloor : |x - ⌊x⌋| < 1 := by
    rw [abs_lt]
    constructor <;> linarith [Int.floor_le x, Int.lt_floor_add_one x]
  have hceil : |x - ⌈x⌉| < 1 := by
    rw [abs_lt]
    constructor <;> linarith [Int.le_ceil x, Int.ceil_lt_add_one x]
  cases m <;> simp only [RoundsTo] at h
  case up =>
    rw [h]
    split
    · exact hceil
    · exact hfloor
  case down =>
    rw [h]
    split
    · exact hfloor
    · exact hceil
  case ceiling => rwa [h]
  case floor => rwa [h]
  case unnecessary =>
    rw [h]
    simp
  all_goals exact h.1.trans_lt (by norm_num)

/-- R87: rounding keeps to the side of every integer. -/
theorem le_of_roundsTo {x : ℚ} {m : RoundingMode} {r n : Int} (h : RoundsTo x m r) (hn : (n : ℚ) ≤ x) : n ≤ r := by
  obtain ⟨-, hhi⟩ := abs_lt.mp (abs_sub_lt_one_of_roundsTo h)
  have hlt : (n : ℚ) < r + 1 := by linarith
  norm_cast at hlt
  omega

theorem ge_of_roundsTo {x : ℚ} {m : RoundingMode} {r n : Int} (h : RoundsTo x m r) (hn : x ≤ n) : r ≤ n := by
  obtain ⟨hlo, -⟩ := abs_lt.mp (abs_sub_lt_one_of_roundsTo h)
  have hlt : (r : ℚ) < n + 1 := by linarith
  norm_cast at hlt
  omega

/-- R87: an integer rounds to itself. -/
theorem roundsTo_intCast (n : Int) (m : RoundingMode) : RoundsTo (n : ℚ) m n := by
  by_cases hm : m = .unnecessary
  · subst hm
    rfl
  · obtain ⟨r, hr⟩ := exists_roundsTo (n : ℚ) hm
    rwa [eq_of_roundsTo_int hr] at hr

/-- R85: UNNECESSARY has no increment but for the part ZERO. -/
theorem incrementFor_unnecessary {p : TruncatedPart} (hp : p ≠ .zero) (neg odd : Bool) :
    incrementFor .unnecessary neg odd p = .error .roundingNecessary := by
  cases p with
  | zero => exact absurd rfl hp
  | _ => rfl

theorem round_unnecessary_of_not_isInt {q : Ratio} (h : ¬ q.isInt) :
    round q .unnecessary = .error .roundingNecessary := by
  have hpart : classify q.rem q.den ≠ .zero := by
    rw [classify, if_neg h]
    split_ifs <;> simp
  simp only [round, incrementFor_unnecessary hpart]

/-- Settles O37: the machine's rounding finds the integer the mode asks for (`round_of_roundsTo`), which every mode but
UNNECESSARY has (`exists_roundsTo`). -/
theorem roundIsTheRationalRounding : Obligations.RoundIsTheRationalRounding := by
  intro q m hden
  replace hden : 0 < q.den := Nat.pos_of_ne_zero hden
  have hround (r' : Int) (h : RoundsTo q.toRat m r') (r : Int) : Machine.round q m = .ok r ↔ RoundsTo q.toRat m r := by
    refine ⟨fun hr => ?_, round_of_roundsTo hden⟩
    cases (round_of_roundsTo hden h).symm.trans hr
    exact h
  refine ⟨?_, fun hm => ?_⟩
  · by_cases hex : ∃ r', RoundsTo q.toRat m r'
    · obtain ⟨r', h⟩ := hex
      exact hround r' h
    · intro r
      refine ⟨fun hr => ?_, round_of_roundsTo hden⟩
      have hm : m = .unnecessary := by_contra fun hm => hex (exists_roundsTo _ hm)
      subst hm
      have hint : ¬ q.isInt := fun h => hex ((isInt_iff_exists hden).mp h)
      rw [round_unnecessary_of_not_isInt hint] at hr
      cases hr
  · obtain ⟨r, hr⟩ := exists_roundsTo q.toRat hm
    exact ⟨r, round_of_roundsTo hden hr⟩

/-! ### RCLASS -/

/-- R84, by magnitude: each part compares `2|r|` with `|d|`. -/
theorem classify_iff (r d : Int) :
    (classify r d = .zero ↔ r = 0) ∧ (classify r d = .lessThanHalf ↔ r ≠ 0 ∧ 2 * |r| < |d|) ∧
      (classify r d = .equalToHalf ↔ r ≠ 0 ∧ 2 * |r| = |d|) ∧
      (classify r d = .greaterThanHalf ↔ r ≠ 0 ∧ |d| < 2 * |r|) := by
  unfold classify
  rw [Int.abs_eq_natAbs, Int.abs_eq_natAbs]
  split_ifs <;> simp only [true_iff, false_iff] <;> omega

/-- R83: the code of a part is a number of 0 to 3 that tells the part. -/
theorem code_toNat (p : TruncatedPart) :
    word64 p.code = BitVec.ofNat 64 p.code.toNat ∧ p.code.toNat ≤ 3 ∧ (p.code.toNat = 0 ↔ p = .zero) ∧
      (p.code.toNat = 1 ↔ p = .lessThanHalf) ∧ (p.code.toNat = 2 ↔ p = .equalToHalf) ∧
      (p.code.toNat = 3 ↔ p = .greaterThanHalf) := by
  cases p <;> decide

/-- Settles O38: the code written tells the part (`code_toNat`), and the part the comparison (`classify_iff`). -/
theorem rclassComparesWithHalfTheDivisor : Obligations.RclassComparesWithHalfTheDivisor := by
  intro s rd rs1 rs2
  obtain ⟨hword, hle, h0, h1, h2, h3⟩ := code_toNat (classify (s.reg rs1).toInt (s.reg rs2).toInt)
  obtain ⟨hzero, hless, hequal, hgreater⟩ := classify_iff (s.reg rs1).toInt (s.reg rs2).toInt
  rw [hzero] at h0
  rw [hless] at h1
  rw [hequal] at h2
  rw [hgreater] at h3
  rw [toInt_eq_zero_iff] at h0
  rw [ne_eq, toInt_eq_zero_iff] at h1 h2 h3
  have hexec : exec (.rclass rd rs1 rs2) s = .next (([rs1, rs2].foldl State.noteRead s).writeReg rd
      (word64 (classify (s.reg rs1).toInt (s.reg rs2).toInt).code)) := rfl
  rw [hword] at hexec
  obtain ⟨t, ht, hdone⟩ := completes_of_write hexec
  exact ⟨t, _, ht, hdone, hle, h0, h1, h2, h3⟩

/-! ### RINC -/

/-- R85: the machine's increment is the table's entry, and faults where the table has none. -/
theorem incrementRow_getElem? (m : RoundingMode) (neg odd : Bool) (p : TruncatedPart) :
    (incrementRow m neg odd)[p.code.toNat]? = (incrementFor m neg odd p).toOption := by
  cases m <;> cases p <;> cases neg <;> cases odd <;> rfl

theorem length_incrementRow_le (m : RoundingMode) (neg odd : Bool) : (incrementRow m neg odd).length ≤ 4 := by
  cases m <;> cases neg <;> simp [incrementRow]

theorem partOfCode_code (p : TruncatedPart) : partOfCode p.code = some p := by cases p <;> rfl

theorem exists_code {c : Int} (h0 : 0 ≤ c) (h3 : c ≤ 3) : ∃ p : TruncatedPart, c = p.code := by
  obtain rfl | rfl | rfl | rfl : c = 0 ∨ c = 1 ∨ c = 2 ∨ c = 3 := by omega
  · exact ⟨.zero, rfl⟩
  · exact ⟨.lessThanHalf, rfl⟩
  · exact ⟨.equalToHalf, rfl⟩
  · exact ⟨.greaterThanHalf, rfl⟩

theorem partOfCode_eq_none {c : Int} (h : c < 0 ∨ 3 < c) : partOfCode c = none := by
  rw [partOfCode, if_neg (by omega), if_neg (by omega), if_neg (by omega), if_neg (by omega)]

theorem toNat_eq_toInt_toNat {a : Word} (h : 0 ≤ a.toInt) : a.toNat = a.toInt.toNat := by
  have ha := a.isLt
  rw [BitVec.toInt_eq_toNat_cond] at h ⊢
  split at h <;> simp only [*, if_true, if_false] <;> omega

theorem getLsbD_sign (a : Word) : a.getLsbD 63 = decide (a.toInt < 0) := by
  rw [← BitVec.msb_eq_toInt, BitVec.msb_eq_getLsbD_last]

theorem getLsbD_parity (b : Word) : b.getLsbD 0 = decide (b.toInt % 2 = 1) := by
  have hmod : (b.toInt % 2 = 1) = (b.toNat % 2 = 1) := by
    rw [BitVec.toInt_eq_toNat_cond]
    split <;> rw [eq_iff_iff] <;> omega
  rw [BitVec.getLsbD, Nat.testBit_zero]
  simp only [hmod]

section
variable (s : State) (rd rs1 rs2 rc : Reg) (rm : RoundingMode)

theorem exec_rinc {p : TruncatedPart} (hp : (s.reg rc).toInt = p.code) :
    exec (.rinc rd rs1 rs2 rc rm) s =
      finish (.rinc rd rs1 rs2 rc rm) rd
        ((incrementFor rm (decide ((s.reg rs1).toInt < 0)) (decide ((s.reg rs2).toInt % 2 = 1)) p).map word64)
        ([rs1, rs2, rc].foldl State.noteRead s) := by
  simp only [exec, execRinc, readX2_eq, readX_eq, reg_noteRead, hp, partOfCode_code, getLsbD_sign, getLsbD_parity]
  cases incrementFor rm (decide ((s.reg rs1).toInt < 0)) (decide ((s.reg rs2).toInt % 2 = 1)) p <;> rfl

theorem exec_rinc_noPart (h : (s.reg rc).toInt < 0 ∨ 3 < (s.reg rc).toInt) :
    exec (.rinc rd rs1 rs2 rc rm) s =
      raise (.rinc rd rs1 rs2 rc rm) .partCode ([rs1, rs2, rc].foldl State.noteRead s) := by
  simp only [exec, execRinc, readX2_eq, readX_eq, reg_noteRead, partOfCode_eq_none h, List.foldl_cons, List.foldl_nil]

end

/-- Settles O39: RINC ends with the increment of the coded part (`exec_rinc`), which is the table's entry
(`incrementRow_getElem?`). -/
theorem rincReadsTheIncrementTable : Obligations.RincReadsTheIncrementTable := by
  intro s rd rs1 rs2 rc rm
  refine ⟨fun inc h0 hrow => ?entry, fun hrm h1 h3 => ?inexact, fun h => ?code⟩
  case entry =>
    rw [toNat_eq_toInt_toNat h0] at hrow
    have hlen := (List.getElem?_eq_some_iff.mp hrow).1
    have hle := length_incrementRow_le rm (decide ((s.reg rs1).toInt < 0)) (decide ((s.reg rs2).toInt % 2 = 1))
    obtain ⟨p, hp⟩ := exists_code h0 (by omega)
    rw [hp, incrementRow_getElem?] at hrow
    have hinc : incrementFor rm (decide ((s.reg rs1).toInt < 0)) (decide ((s.reg rs2).toInt % 2 = 1)) p = .ok inc := by
      revert hrow
      cases incrementFor rm (decide ((s.reg rs1).toInt < 0)) (decide ((s.reg rs2).toInt % 2 = 1)) p <;>
        simp [Except.toOption]
    exact completes_of_finish (exec_rinc s rd rs1 rs2 rc rm hp) (by rw [hinc]; rfl)
  case inexact =>
    subst hrm
    obtain ⟨p, hp⟩ := exists_code (by omega) h3
    have hpart : p ≠ .zero := by
      rintro rfl
      simp [hp, TruncatedPart.code] at h1
    exact faults_of_finish (e := .roundingNecessary) (exec_rinc s rd rs1 rs2 rc _ hp)
      (by rw [incrementFor_unnecessary hpart]; rfl)
  case code => exact faults_of_raise (exec_rinc_noPart s rd rs1 rs2 rc rm h)

end Sys2Proof.Machine
end

section
/-! SUPPORT. The statements on ScaleMetrics (`40_scalemetrics.md`). -/

namespace Sys2Proof.Machine

/-- R57, R58: the constants of each scale are the printed row's. -/
theorem scaleTable_row : ∀ row ∈ scaleTable, row.1 ≤ 18 ∧ word64 (scaleFactor row.1) = row.2.1 ∧
    nlzFactor row.1 = row.2.2.1 ∧ maxInt row.1 = row.2.2.2.1 ∧ minInt row.1 = row.2.2.2.2 ∧
    row.2.2.2.1 * 10 ^ row.1 ≤ maxWord ∧ minWord ≤ row.2.2.2.2 * 10 ^ row.1 := by
  decide

section
variable (s : State) (rd rs1 : Reg) (ov : OverflowMode) {sc : ScaleField} (h : sc.val ≤ 18)
include h

theorem exec_sfact : exec (.sfact rd sc) s = .next (s.writeReg rd (word64 (scaleFactor sc.val))) := by
  simp only [exec, execSfact, withScale_legal _ _ _ _ h]

theorem exec_snlz : exec (.snlz rd sc) s = .next (s.writeReg rd (word64 (nlzFactor sc.val))) := by
  simp only [exec, execSnlz, withScale_legal _ _ _ _ h]

theorem exec_smaxi : exec (.smaxi rd sc) s = .next (s.writeReg rd (word64 (maxInt sc.val))) := by
  simp only [exec, execSmaxi, withScale_legal _ _ _ _ h]

theorem exec_smini : exec (.smini rd sc) s = .next (s.writeReg rd (word64 (minInt sc.val))) := by
  simp only [exec, execSmini, withScale_legal _ _ _ _ h]

theorem exec_smul : exec (.smul rd rs1 ov sc) s =
    finishWrapping (.smul rd rs1 ov sc) rd ov ((s.reg rs1).toInt * 10 ^ sc.val) ([rs1].foldl State.noteRead s) := by
  simp only [exec, execSmul, withScale_legal _ _ _ _ h, readX_eq, scaleFactor, Nat.cast_pow, Nat.cast_ofNat,
    List.foldl_cons, List.foldl_nil]

theorem exec_sdiv : exec (.sdiv rd rs1 sc) s =
    .next (([rs1].foldl State.noteRead s).writeReg rd (word64 ((s.reg rs1).toInt.tdiv (10 ^ sc.val)))) := by
  simp only [exec, execSdiv, withScale_legal _ _ _ _ h, readX_eq, scaleFactor, Nat.cast_pow, Nat.cast_ofNat,
    List.foldl_cons, List.foldl_nil]

/-- R66: the word less its quotient scaled back is the remainder. -/
theorem exec_smod : exec (.smod rd rs1 sc) s =
    .next (([rs1].foldl State.noteRead s).writeReg rd (word64 ((s.reg rs1).toInt.tmod (10 ^ sc.val)))) := by
  simp only [exec, execSmod, withScale_legal _ _ _ _ h, readX_eq, scaleFactor, Nat.cast_pow, Nat.cast_ofNat,
    List.foldl_cons, List.foldl_nil, Int.tmod_def]

theorem exec_smulhi : exec (.smulhi rd rs1 sc) s = .next (([rs1].foldl State.noteRead s).writeReg rd
    (BitVec.ofNat 64 (halfProduct (s.reg rs1) sc.val / 2 ^ 32 % 2 ^ 32))) := by
  simp only [exec, execSmulhi, withScale_legal _ _ _ _ h, readX_eq, List.foldl_cons, List.foldl_nil]

theorem exec_smullo : exec (.smullo rd rs1 sc) s = .next (([rs1].foldl State.noteRead s).writeReg rd
    (BitVec.ofNat 64 (halfProduct (s.reg rs1) sc.val % 2 ^ 32))) := by
  simp only [exec, execSmullo, withScale_legal _ _ _ _ h, readX_eq, List.foldl_cons, List.foldl_nil]

end

/-- Settles O40: the constants are the printed ones (`scaleTable_row`). -/
theorem scaleConstantsMatchTheTable : Obligations.ScaleConstantsMatchTheTable := by
  intro s rd sc factor nlz hi lo hmem
  obtain ⟨hsc, hfactor, hnlz, hhi, hlo, hmax, hmin⟩ := scaleTable_row _ hmem
  dsimp only at hsc hfactor hnlz hhi hlo hmax hmin
  refine ⟨?_, ?_, ?_, ?_, hmax, hmin⟩
  · rw [← hfactor]
    exact completes_of_write (srcs := []) (exec_sfact s rd hsc)
  · rw [← hnlz, ← BitVec.ofInt_natCast]
    exact completes_of_write (srcs := []) (exec_snlz s rd hsc)
  · rw [← hhi]
    exact completes_of_write (srcs := []) (exec_smaxi s rd hsc)
  · rw [← hlo]
    exact completes_of_write (srcs := []) (exec_smini s rd hsc)

/-- A power of ten of a legal scale is a word, read as signed. -/
theorem ten_pow_le {k : Nat} (h : k ≤ 18) : 10 ^ k ≤ 10 ^ 18 := Nat.pow_le_pow_right (by decide) h

theorem word64_ten_pow (k : Nat) : word64 (10 ^ k) = BitVec.ofNat 64 (10 ^ k) := by
  rw [← BitVec.ofInt_natCast, word64, Nat.cast_pow, Nat.cast_ofNat]

theorem toInt_ten_pow {k : Nat} (h : k ≤ 18) : (BitVec.ofNat 64 (10 ^ k)).toInt = 10 ^ k := by
  have hle := ten_pow_le h
  have hnat : (BitVec.ofNat 64 (10 ^ k)).toNat = 10 ^ k := by
    rw [BitVec.toNat_ofNat, Nat.mod_eq_of_lt (by omega)]
  rw [BitVec.toInt_eq_toNat_of_lt (by omega), hnat, Nat.cast_pow, Nat.cast_ofNat]

/-- R65: the quotient is the signed division of words. -/
theorem word64_tdiv_ten_pow (a : Word) {k : Nat} (h : k ≤ 18) :
    word64 (a.toInt.tdiv (10 ^ k)) = a.sdiv (BitVec.ofNat 64 (10 ^ k)) := by
  rw [← word64_tdiv, toInt_ten_pow h]

theorem word64_tmod_ten_pow (a : Word) {k : Nat} (h : k ≤ 18) :
    word64 (a.toInt.tmod (10 ^ k)) = a.srem (BitVec.ofNat 64 (10 ^ k)) := by
  rw [← toInt_ten_pow h, ← BitVec.toInt_srem, word64_toInt]

theorem word64_mul_ten_pow (a : Word) (k : Nat) : word64 (a.toInt * 10 ^ k) = a * BitVec.ofNat 64 (10 ^ k) := by
  rw [← word64_ten_pow, word64, BitVec.ofInt_mul, BitVec.ofInt_toInt, word64]

theorem halfProduct_eq (a : Word) (k : Nat) : halfProduct a k = a.toNat % 2 ^ 32 * 10 ^ k := by
  rw [halfProduct, BitVec.extractLsb'_toNat, Nat.shiftRight_zero, scaleFactor]

/-- Settles O41: each command is its exact result, written as a word or, for SMUL, ended by `finishWrapping`. -/
theorem scaleFactorArithmetic : Obligations.ScaleFactorArithmetic := by
  intro s rd rs1 ov sc hsc
  refine ⟨fun h => ?_, fun h hov => faults_of_finishWrapping (exec_smul s rd rs1 ov hsc) h hov, ?_, ?_, ?_, ?_⟩
  · rw [← word64_mul_ten_pow]
    exact completes_of_finishWrapping (exec_smul s rd rs1 ov hsc) h
  · rw [← word64_tdiv_ten_pow _ hsc]
    exact completes_of_write (exec_sdiv s rd rs1 hsc)
  · rw [← word64_tmod_ten_pow _ hsc]
    exact completes_of_write (exec_smod s rd rs1 hsc)
  · obtain ⟨t, ht, hdone⟩ := completes_of_write (exec_smulhi s rd rs1 hsc)
    refine ⟨t, _, ht, hdone, ?_⟩
    rw [halfProduct_eq, BitVec.toNat_ofNat]
    omega
  · obtain ⟨t, ht, hdone⟩ := completes_of_write (exec_smullo s rd rs1 hsc)
    refine ⟨t, _, ht, hdone, ?_⟩
    rw [halfProduct_eq, BitVec.toNat_ofNat]
    omega

/-! ### Quotient, remainder and product -/

/-- R9: an integer in range is the value of its word. -/
theorem toInt_word64 {e : Int} (h : fits64 e) : (word64 e).toInt = e := by
  obtain ⟨hlo, hhi⟩ := h
  simp only [minWord, maxWord] at hlo hhi
  exact BitVec.toInt_ofInt_eq_self (by decide) (by omega) (by omega)

/-- `e` lies between 0 and `a`. -/
def BetweenZeroAnd (a e : Int) : Prop := (0 ≤ e ∧ e ≤ a) ∨ (a ≤ e ∧ e ≤ 0)

theorem BetweenZeroAnd.neg {a e : Int} (h : BetweenZeroAnd a e) : BetweenZeroAnd (-a) (-e) := by
  simp only [BetweenZeroAnd] at h ⊢
  omega

theorem BetweenZeroAnd.toInt_word64 {a : Word} {e : Int} (h : BetweenZeroAnd a.toInt e) :
    fits64 e ∧ (word64 e).toInt = e := by
  obtain ⟨hlo, hhi⟩ := fits64_toInt a
  have hfits : fits64 e := by
    simp only [fits64, minWord, maxWord, BetweenZeroAnd] at *
    omega
  exact ⟨hfits, Machine.toInt_word64 hfits⟩

/-- R67: truncation keeps the quotient, the quotient scaled back, and the remainder between 0 and the word. -/
theorem betweenZeroAnd_tdiv (a : Int) {f : Int} (hf : 1 ≤ f) :
    BetweenZeroAnd a (a.tdiv f) ∧ BetweenZeroAnd a (a.tdiv f * f) ∧ BetweenZeroAnd a (a.tmod f) := by
  have hnonneg (b : Int) (hb : 0 ≤ b) :
      BetweenZeroAnd b (b.tdiv f) ∧ BetweenZeroAnd b (b.tdiv f * f) ∧ BetweenZeroAnd b (b.tmod f) := by
    have hq : 0 ≤ b.tdiv f := Int.tdiv_nonneg hb (by omega)
    have hr : 0 ≤ b.tmod f := Int.tmod_nonneg f hb
    have hsum : b.tdiv f * f + b.tmod f = b := Int.tdiv_mul_add_tmod b f
    have hle : b.tdiv f ≤ b.tdiv f * f := le_mul_of_one_le_right hq hf
    simp only [BetweenZeroAnd]
    omega
  obtain hneg | hpos := lt_or_ge a 0
  · obtain ⟨hq, hp, hr⟩ := hnonneg (-a) (by omega)
    refine ⟨?_, ?_, ?_⟩
    · simpa [Int.neg_tdiv] using hq.neg
    · simpa [Int.neg_tdiv] using hp.neg
    · simpa [Int.neg_tmod] using hr.neg
  · exact hnonneg a hpos

/-- Settles O42: quotient, product and remainder lie between 0 and the word (`betweenZeroAnd_tdiv`), so no step wraps or
overflows, and product and remainder add up to the word. -/
theorem divideMultiplyAndRemainderGiveTheWordBack : Obligations.DivideMultiplyAndRemainderGiveTheWordBack := by
  intro s rx rq rr rp sc hsc hs hqx hrx hrq hpr
  have hf : (1 : Int) ≤ 10 ^ sc.val := one_le_pow₀ (by decide)
  obtain ⟨hq, hp, hr⟩ := betweenZeroAnd_tdiv (s.reg rx).toInt hf
  obtain ⟨-, hqword⟩ := hq.toInt_word64
  obtain ⟨hpfits, hpword⟩ := hp.toInt_word64
  obtain ⟨-, hrword⟩ := hr.toInt_word64
  obtain ⟨t, ht, htdone⟩ := completes_of_write (exec_sdiv s rq rx hsc)
  have htx : t.reg rx = s.reg rx := (htdone.regs rx (by simpa using hqx.symm)).1
  obtain ⟨u, hu, hudone⟩ := completes_of_write (exec_smod t rr rx hsc)
  have huq : u.reg rq = word64 ((s.reg rx).toInt.tdiv (10 ^ sc.val)) :=
    (hudone.regs rq (by simpa using hrq.symm)).1.trans htdone.dest
  have hproduct : (u.reg rq).toInt * 10 ^ sc.val = (s.reg rx).toInt.tdiv (10 ^ sc.val) * 10 ^ sc.val := by
    rw [huq, hqword]
  obtain ⟨v, hv, hvdone⟩ := completes_of_finishWrapping (exec_smul u rp rq .checked hsc) (.inl (hproduct ▸ hpfits))
  refine ⟨t, u, v, ht, hu, hv, ?_, ?_⟩
  · rw [hvdone.status, hudone.status, htdone.status]
    exact hs
  · have hvr : v.reg rr = word64 ((s.reg rx).toInt.tmod (10 ^ sc.val)) := by
      rw [(hvdone.regs rr (by simpa using hpr.symm)).1, hudone.dest, htx]
    rw [hvdone.dest, hproduct, hpword, hvr, hrword]
    exact Int.tdiv_mul_add_tmod _ _

end Sys2Proof.Machine
end

section
/-! SUPPORT. The statements on decimal arithmetic, DPOW's general case and DSQRT apart, and on DROUND and the comparisons
(`44_arith.md`, `45_shift_round_compare.md`). -/

namespace Sys2Proof.Machine

theorem toRat_mk (n : Int) (d : Nat) : (Ratio.mk n d).toRat = (n : ℚ) / d := rfl

/-- The exact quotient of integers, with the sign kept in the numerator. -/
theorem toRat_ofDiv (n d : Int) : (Ratio.ofDiv n d).toRat = (n : ℚ) / d := by
  have habs : (d.natAbs : ℚ) = ((d * d.sign : Int) : ℚ) := by rw [Int.mul_sign_self, Int.cast_natCast]
  rw [Ratio.toRat, Ratio.ofDiv, habs]
  push_cast
  by_cases hd : d = 0
  · simp [hd]
  · have hsign : (d.sign : ℚ) ≠ 0 := by exact_mod_cast mt Int.sign_eq_zero_iff_zero.mp hd
    exact mul_div_mul_right _ _ hsign

theorem den_ofDiv_pos {n d : Int} (h : d ≠ 0) : 0 < (Ratio.ofDiv n d).den := Int.natAbs_pos.mpr h

section
variable (s : State) (rd rs1 rs2 rc : Reg) (rm : RoundingMode) (ov : OverflowMode) {sc : ScaleField}
  (h : sc.val ≤ 18)
include h

/-! ### The meanings at a legal scale -/

theorem exec_dadd : exec (.dadd rd rs1 rs2 rm ov sc) s =
    finishWrapping (.dadd rd rs1 rs2 rm ov sc) rd ov ((s.reg rs1).toInt + (s.reg rs2).toInt)
      ([rs1, rs2].foldl State.noteRead s) := by
  simp only [exec, execDadd, withScale_legal _ _ _ _ h, readX2_eq, List.foldl_cons, List.foldl_nil]

theorem exec_dsub : exec (.dsub rd rs1 rs2 rm ov sc) s =
    finishWrapping (.dsub rd rs1 rs2 rm ov sc) rd ov ((s.reg rs1).toInt - (s.reg rs2).toInt)
      ([rs1, rs2].foldl State.noteRead s) := by
  simp only [exec, execDsub, withScale_legal _ _ _ _ h, readX2_eq, List.foldl_cons, List.foldl_nil]

theorem exec_dmul : exec (.dmul rd rs1 rs2 rm ov sc) s =
    finishRounded (.dmul rd rs1 rs2 rm ov sc) rd [s.reg rs1, s.reg rs2] sc.val rm ov
      ⟨(s.reg rs1).toInt * (s.reg rs2).toInt, 10 ^ sc.val⟩ ([rs1, rs2].foldl State.noteRead s) := by
  simp only [exec, execDmul, withScale_legal _ _ _ _ h, readX2_eq, List.foldl_cons, List.foldl_nil]

theorem exec_dsqr : exec (.dsqr rd rs1 rm ov sc) s =
    finishRounded (.dsqr rd rs1 rm ov sc) rd [s.reg rs1] sc.val rm ov
      ⟨(s.reg rs1).toInt * (s.reg rs1).toInt, 10 ^ sc.val⟩ ([rs1].foldl State.noteRead s) := by
  simp only [exec, execDsqr, withScale_legal _ _ _ _ h, readX_eq, List.foldl_cons, List.foldl_nil]

theorem exec_davg : exec (.davg rd rs1 rs2 rm ov sc) s =
    finishRounded (.davg rd rs1 rs2 rm ov sc) rd [s.reg rs1, s.reg rs2] sc.val rm ov
      ⟨(s.reg rs1).toInt + (s.reg rs2).toInt, 2⟩ ([rs1, rs2].foldl State.noteRead s) := by
  simp only [exec, execDavg, withScale_legal _ _ _ _ h, readX2_eq, List.foldl_cons, List.foldl_nil]

theorem exec_ddiv (hd : s.reg rs2 ≠ 0) : exec (.ddiv rd rs1 rs2 rm ov sc) s =
    finishRounded (.ddiv rd rs1 rs2 rm ov sc) rd [s.reg rs1, s.reg rs2] sc.val rm ov
      (.ofDiv ((s.reg rs1).toInt * 10 ^ sc.val) (s.reg rs2).toInt) ([rs2, rs1].foldl State.noteRead s) := by
  simp only [exec, execDdiv, withScale_legal _ _ _ _ h, readX_eq, toInt_eq_zero_iff, if_neg hd, reg_noteRead,
    List.foldl_cons, List.foldl_nil]

theorem exec_ddiv_zero (hd : s.reg rs2 = 0) : exec (.ddiv rd rs1 rs2 rm ov sc) s =
    raise (.ddiv rd rs1 rs2 rm ov sc) .divisionByZero ([rs2].foldl State.noteRead s) := by
  simp only [exec, execDdiv, withScale_legal _ _ _ _ h, readX_eq, toInt_eq_zero_iff, if_pos hd, List.foldl_cons,
    List.foldl_nil]

theorem exec_dinv (hd : s.reg rs1 ≠ 0) : exec (.dinv rd rs1 rm ov sc) s =
    finishRounded (.dinv rd rs1 rm ov sc) rd [s.reg rs1] sc.val rm ov (.ofDiv (10 ^ (2 * sc.val)) (s.reg rs1).toInt)
      ([rs1].foldl State.noteRead s) := by
  simp only [exec, execDinv, withScale_legal _ _ _ _ h, readX_eq, toInt_eq_zero_iff, if_neg hd, List.foldl_cons,
    List.foldl_nil]

theorem exec_dinv_zero (hd : s.reg rs1 = 0) : exec (.dinv rd rs1 rm ov sc) s =
    raise (.dinv rd rs1 rm ov sc) .divisionByZero ([rs1].foldl State.noteRead s) := by
  simp only [exec, execDinv, withScale_legal _ _ _ _ h, readX_eq, toInt_eq_zero_iff, if_pos hd, List.foldl_cons,
    List.foldl_nil]

/-! ### The meanings with a second scale -/

section
variable {t : Nat} (ht : t ≤ 18) (hrc : (s.reg rc).toInt = t)
include ht hrc

omit h in
/-- R91: a legal second scale. -/
theorem withSecondScale_nat (i : Instr) (k : Nat → State → Result) :
    withSecondScale i rc s k = k t (s.noteRead rc) := by
  rw [withSecondScale_legal i rc s k (by omega) (by omega), hrc, Int.toNat_natCast]

theorem exec_dmulu : exec (.dmulu rd rs1 rs2 rc rm ov sc) s =
    finishRounded (.dmulu rd rs1 rs2 rc rm ov sc) rd [s.reg rs1, s.reg rs2, BitVec.ofNat 64 t] sc.val rm ov
      ⟨(s.reg rs1).toInt * (s.reg rs2).toInt, 10 ^ t⟩ ([rc, rs1, rs2].foldl State.noteRead s) := by
  simp only [exec, execDmulu, withScale_legal _ _ _ _ h, withSecondScale_nat s rc ht hrc, readX2_eq, reg_noteRead,
    List.foldl_cons, List.foldl_nil]

theorem exec_ddivu (hd : s.reg rs2 ≠ 0) : exec (.ddivu rd rs1 rs2 rc rm ov sc) s =
    finishRounded (.ddivu rd rs1 rs2 rc rm ov sc) rd [s.reg rs1, s.reg rs2, BitVec.ofNat 64 t] sc.val rm ov
      (.ofDiv ((s.reg rs1).toInt * 10 ^ t) (s.reg rs2).toInt) ([rc, rs2, rs1].foldl State.noteRead s) := by
  have hd : ¬ (s.reg rs2).toInt = 0 := mt (toInt_eq_zero_iff _).mp hd
  simp only [exec, execDdivu, withScale_legal _ _ _ _ h, withSecondScale_nat s rc ht hrc, readX_eq]
  exact if_neg hd

theorem exec_ddivu_zero (hd : s.reg rs2 = 0) : exec (.ddivu rd rs1 rs2 rc rm ov sc) s =
    raise (.ddivu rd rs1 rs2 rc rm ov sc) .divisionByZero ([rc, rs2].foldl State.noteRead s) := by
  have hd : (s.reg rs2).toInt = 0 := (toInt_eq_zero_iff _).mpr hd
  simp only [exec, execDdivu, withScale_legal _ _ _ _ h, withSecondScale_nat s rc ht hrc, readX_eq]
  exact if_pos hd

theorem exec_dcmpu : exec (.dcmpu rd rs1 rs2 rc rm ov sc) s =
    .next (([rc, rs1, rs2].foldl State.noteRead s).writeReg rd
      (word64 (sgn ((s.reg rs1).toInt * 10 ^ t - (s.reg rs2).toInt * 10 ^ sc.val)))) := by
  simp only [exec, execDcmpu, withScale_legal _ _ _ _ h, withSecondScale_nat s rc ht hrc, readX2_eq, reg_noteRead,
    List.foldl_cons, List.foldl_nil]

end

end

/-! ### The statements on arithmetic -/

/-- Settles O43: the exact sum and difference, ended by `finishWrapping`. -/
theorem decimalSumsAreExact : Obligations.DecimalSumsAreExact := by
  intro s rd rs1 rs2 rm ov sc hsc
  refine ⟨fun h => ?_, faults_of_finishWrapping (exec_dadd s rd rs1 rs2 rm ov hsc), fun h => ?_,
    faults_of_finishWrapping (exec_dsub s rd rs1 rs2 rm ov hsc)⟩
  · rw [← word64_add]
    exact completes_of_finishWrapping (exec_dadd s rd rs1 rs2 rm ov hsc) h
  · rw [← word64_sub]
    exact completes_of_finishWrapping (exec_dsub s rd rs1 rs2 rm ov hsc) h

/-- Settles O44: each is `finishRounded` of the exact product (`roundsAndCompletes`, `roundsOrFaults`). -/
theorem decimalProductsRoundOnce : Obligations.DecimalProductsRoundOnce := by
  intro s rd rs1 rs2 rc rm ov sc hsc
  have hden (k : Nat) : 0 < 10 ^ k := by positivity
  have hproduct (k : Nat) : ((s.reg rs1).toInt * (s.reg rs2).toInt : ℚ) / 10 ^ k =
      (Ratio.mk ((s.reg rs1).toInt * (s.reg rs2).toInt) (10 ^ k)).toRat := by
    rw [toRat_mk]
    push_cast
    rfl
  have hsquare : ((s.reg rs1).toInt : ℚ) ^ 2 / 10 ^ sc.val =
      (Ratio.mk ((s.reg rs1).toInt * (s.reg rs1).toInt) (10 ^ sc.val)).toRat := by
    rw [toRat_mk, sq]
    push_cast
    rfl
  have hdmul := exec_dmul s rd rs1 rs2 rm ov hsc
  have hdsqr := exec_dsqr s rd rs1 rm ov hsc
  refine ⟨⟨roundsAndCompletes hdmul (hden _) _ (hproduct _), roundsOrFaults hdmul (hden _) _ (hproduct _)⟩,
    fun t ht hrc => ?_, roundsAndCompletes hdsqr (hden _) _ hsquare, roundsOrFaults hdsqr (hden _) _ hsquare⟩
  have hdmulu := exec_dmulu s rd rs1 rs2 rc rm ov hsc ht hrc
  exact ⟨roundsAndCompletes hdmulu (hden _) _ (hproduct _), roundsOrFaults hdmulu (hden _) _ (hproduct _)⟩

/-- Settles O45: each is `finishRounded` of the exact quotient (`toRat_ofDiv`). -/
theorem decimalQuotientsRoundOnce : Obligations.DecimalQuotientsRoundOnce := by
  intro s rd rs1 rs2 rc rm ov sc hsc
  refine ⟨fun hd => ?_, fun hd => ?_⟩
  · have hden (n : Int) : 0 < (Ratio.ofDiv n (s.reg rs2).toInt).den :=
      den_ofDiv_pos (mt (toInt_eq_zero_iff _).mp hd)
    have hquot (k : Nat) : ((s.reg rs1).toInt : ℚ) * 10 ^ k / (s.reg rs2).toInt =
        (Ratio.ofDiv ((s.reg rs1).toInt * 10 ^ k) (s.reg rs2).toInt).toRat := by
      rw [toRat_ofDiv]
      push_cast
      rfl
    have hddiv := exec_ddiv s rd rs1 rs2 rm ov hsc hd
    refine ⟨roundsAndCompletes hddiv (hden _) _ (hquot _), roundsOrFaults hddiv (hden _) _ (hquot _),
      fun t ht hrc => ?_⟩
    have hddivu := exec_ddivu s rd rs1 rs2 rc rm ov hsc ht hrc hd
    exact ⟨roundsAndCompletes hddivu (hden _) _ (hquot _), roundsOrFaults hddivu (hden _) _ (hquot _)⟩
  · have hden : 0 < (Ratio.ofDiv (10 ^ (2 * sc.val)) (s.reg rs1).toInt).den :=
      den_ofDiv_pos (mt (toInt_eq_zero_iff _).mp hd)
    have hquot : (10 : ℚ) ^ (2 * sc.val) / (s.reg rs1).toInt =
        (Ratio.ofDiv (10 ^ (2 * sc.val)) (s.reg rs1).toInt).toRat := by
      rw [toRat_ofDiv]
      push_cast
      rfl
    have hdinv := exec_dinv s rd rs1 rm ov hsc hd
    exact ⟨roundsAndCompletes hdinv hden _ hquot, roundsOrFaults hdinv hden _ hquot⟩

/-- Settles O46. -/
theorem decimalDivisionByZeroFaults : Obligations.DecimalDivisionByZeroFaults := by
  intro s rd rs1 rs2 rc rm ov sc hsc
  refine ⟨fun hd => ⟨faults_of_raise (exec_ddiv_zero s rd rs1 rs2 rm ov hsc hd), fun h0 h18 => ?_⟩,
    fun hd => faults_of_raise (exec_dinv_zero s rd rs1 rm ov hsc hd)⟩
  have ht : (s.reg rc).toInt.toNat ≤ 18 := by omega
  exact faults_of_raise (exec_ddivu_zero s rd rs1 rs2 rc rm ov hsc ht (Int.toNat_of_nonneg h0).symm hd)

/-- Settles O47: the check of the second scale comes before the other reads (`withSecondScale_illegal`). -/
theorem illegalSecondScaleFaults : Obligations.IllegalSecondScaleFaults := by
  intro s rd rs1 rs2 rc rm ov sc hsc hrc
  have hfaults {i : Instr} (hexec : ∃ k, exec i s = withSecondScale i rc s k) :
      ∃ t, exec i s = .next t ∧ Faults (encode i) 2 2 s.status.v [rc] s t := by
    obtain ⟨k, hk⟩ := hexec
    exact faults_of_raise (e := .paramScaleRange) (hk.trans (withSecondScale_illegal i rc s k hrc))
  refine ⟨hfaults ?dmulu, hfaults ?ddivu, hfaults ?dcmpu⟩
  case dmulu =>
    simp only [exec, execDmulu, withScale_legal _ _ _ _ hsc]
    exact ⟨_, rfl⟩
  case ddivu =>
    simp only [exec, execDdivu, withScale_legal _ _ _ _ hsc]
    exact ⟨_, rfl⟩
  case dcmpu =>
    simp only [exec, execDcmpu, withScale_legal _ _ _ _ hsc]
    exact ⟨_, rfl⟩

/-- Settles O49: the mean lies between the operands, and so does its rounding (`le_of_roundsTo`, `ge_of_roundsTo`). -/
theorem averageNeverOverflows : Obligations.AverageNeverOverflows := by
  intro s rd rs1 rs2 rm ov sc hsc
  have hexec := exec_davg s rd rs1 rs2 rm ov hsc
  have hmean : ((s.reg rs1).toInt + (s.reg rs2).toInt : ℚ) / 2 =
      (Ratio.mk ((s.reg rs1).toInt + (s.reg rs2).toInt) 2).toRat := by
    rw [toRat_mk]
    push_cast
    rfl
  obtain ⟨hlo1, hhi1⟩ := fits64_toInt (s.reg rs1)
  obtain ⟨hlo2, hhi2⟩ := fits64_toInt (s.reg rs2)
  have hlo : (minWord : ℚ) ≤ ((s.reg rs1).toInt + (s.reg rs2).toInt : ℚ) / 2 := by
    have h1 : (minWord : ℚ) ≤ (s.reg rs1).toInt := by exact_mod_cast hlo1
    have h2 : (minWord : ℚ) ≤ (s.reg rs2).toInt := by exact_mod_cast hlo2
    linarith
  have hhi : ((s.reg rs1).toInt + (s.reg rs2).toInt : ℚ) / 2 ≤ maxWord := by
    have h1 : ((s.reg rs1).toInt : ℚ) ≤ maxWord := by exact_mod_cast hhi1
    have h2 : ((s.reg rs2).toInt : ℚ) ≤ maxWord := by exact_mod_cast hhi2
    linarith
  refine ⟨fun r hr => ?_, fun hrm hodd => ?_⟩
  · have hfits : fits64 r := ⟨le_of_roundsTo hr hlo, ge_of_roundsTo hr hhi⟩
    exact ⟨hfits, roundsAndCompletes hexec two_pos _ hmean r hr hfits⟩
  · have hrange : ¬ OutOfRange (Ratio.mk ((s.reg rs1).toInt + (s.reg rs2).toInt) 2).toRat := by
      rw [← hmean, OutOfRange, not_or, not_lt, not_lt]
      exact ⟨hlo, hhi⟩
    refine inexactFaults hexec two_pos hrange hrm ?_
    rintro ⟨r, hr⟩
    rw [← hmean, eq_div_iff two_ne_zero] at hr
    norm_cast at hr
    omega

/-! ### DPOW before the power is formed -/

theorem finish_ite (i : Instr) (rd : Reg) {c : Prop} [Decidable c] (r r' : Except EngineFault Word) (s : State) :
    finish i rd (if c then r else r') s = if c then finish i rd r s else finish i rd r' s :=
  apply_ite (finish i rd · s) c r r'

theorem finish_ok (i : Instr) (rd : Reg) (w : Word) (s : State) : finish i rd (.ok w) s = .next (s.writeReg rd w) := rfl

theorem finish_error (i : Instr) (rd : Reg) (e : EngineFault) (s : State) : finish i rd (.error e) s = raise i e s := rfl

/-- R100: what DPOW ends with, its exponent in range. -/
def powResultAt (s : State) (rd rs1 rs2 : Reg) (rm : RoundingMode) (ov : OverflowMode) (sc : ScaleField) :
    Except EngineFault Word :=
  let a := (s.reg rs1).toInt
  let n := (s.reg rs2).toInt
  if n = 0 then .ok (word64 (10 ^ sc.val))
  else if a = 0 then if n < 0 then .error .divisionByZero else .ok 0
  else if n = 1 then .ok (s.reg rs1)
  else if a = 10 ^ sc.val then .ok (word64 (10 ^ sc.val))
  else if a = -10 ^ sc.val then .ok (word64 (if n % 2 = 0 then 10 ^ sc.val else -10 ^ sc.val))
  else powOutcome ⟨(Instr.dpow rd rs1 rs2 rm ov sc).opcode, [s.reg rs1, s.reg rs2], sc.val, rm⟩ a n ov

section
variable (s : State) (rd rs1 rs2 : Reg) (rm : RoundingMode) (ov : OverflowMode) {sc : ScaleField} (h : sc.val ≤ 18)
include h

theorem exec_dpow_exponentRange (hn : (s.reg rs2).toInt < -999999999 ∨ 999999999 < (s.reg rs2).toInt) :
    exec (.dpow rd rs1 rs2 rm ov sc) s =
      raise (.dpow rd rs1 rs2 rm ov sc) .exponentRange ([rs2].foldl State.noteRead s) := by
  simp only [exec, execDpow, withScale_legal _ _ _ _ h, readX_eq, if_pos hn, List.foldl_cons, List.foldl_nil]

theorem exec_dpow (hlo : -999999999 ≤ (s.reg rs2).toInt) (hhi : (s.reg rs2).toInt ≤ 999999999) :
    exec (.dpow rd rs1 rs2 rm ov sc) s =
      finish (.dpow rd rs1 rs2 rm ov sc) rd (powResultAt s rd rs1 rs2 rm ov sc)
        ([rs2, rs1].foldl State.noteRead s) := by
  have hn : ¬ ((s.reg rs2).toInt < -999999999 ∨ 999999999 < (s.reg rs2).toInt) := by omega
  simp only [exec, execDpow, withScale_legal _ _ _ _ h, readX_eq, if_neg hn, powResultAt, finish_ite, finish_ok,
    finish_error]
  rfl

end

/-- Settles O50: the special cases of `powResultAt`, one by one; where two of them meet they agree. -/
theorem powerSpecialCases : Obligations.PowerSpecialCases := by
  intro s rd rs1 rs2 rm ov sc a n hsc ha hn
  subst ha hn
  refine ⟨fun h => faults_of_raise (exec_dpow_exponentRange s rd rs1 rs2 rm ov hsc h), fun hlo hhi => ?_⟩
  have hexec := exec_dpow s rd rs1 rs2 rm ov hsc hlo hhi
  have hone : (10 : Int) ^ sc.val ≠ 0 := by positivity
  refine ⟨fun h0 => ?zeroth, fun ha h0 => ?zeroPos, fun ha h0 => ?zeroNeg, fun h1 => ?first, fun ha => ?one,
    fun ha heven => ?minusOneEven, fun ha hodd => ?minusOneOdd⟩
  case zeroth => exact completes_of_finish hexec (by simp only [powResultAt, h0, if_true, word64])
  case zeroPos => exact completes_of_finish hexec (by simp only [powResultAt, ha, h0.ne', if_true, if_false, h0.not_gt])
  case zeroNeg =>
    exact faults_of_finish (e := .divisionByZero) hexec (by simp only [powResultAt, ha, h0.ne, if_true, if_false, h0])
  case first =>
    refine completes_of_finish hexec ?_
    simp only [powResultAt, h1, one_ne_zero, if_true, if_false]
    split
    · rename_i ha
      rw [(toInt_eq_zero_iff _).mp ha]
      rfl
    · rfl
  case one =>
    refine completes_of_finish hexec ?_
    have hword : s.reg rs1 = BitVec.ofInt 64 (10 ^ sc.val) := by rw [← ha, BitVec.ofInt_toInt]
    simp only [powResultAt, ha, hone, word64, if_true, if_false, ← hword, ite_self]
  case minusOneEven =>
    refine completes_of_finish hexec ?_
    have h1 : (s.reg rs2).toInt ≠ 1 := by omega
    simp only [powResultAt, ha, neg_eq_zero, hone, h1, heven, word64, if_true, if_false]
    split_ifs <;> rfl
  case minusOneOdd =>
    refine completes_of_finish hexec ?_
    have h0 : (s.reg rs2).toInt ≠ 0 := by omega
    have h2 : ¬ (s.reg rs2).toInt % 2 = 0 := by omega
    have hne : ¬ (-(10 : Int) ^ sc.val = 10 ^ sc.val) := by omega
    have hword : s.reg rs1 = BitVec.ofInt 64 (-10 ^ sc.val) := by rw [← ha, BitVec.ofInt_toInt]
    simp only [powResultAt, ha, neg_eq_zero, hone, h0, h2, hne, word64, if_true, if_false, ← hword, ite_self]

/-! ### DROUND and the comparisons -/

section
variable (s : State) (rd rs1 rs2 : Reg) (rm : RoundingMode) (ov : OverflowMode) {sc : ScaleField}
  (h : sc.val ≤ 18)
include h

theorem exec_dround_keeps (hp : (sc.val : Int) ≤ (s.reg rs2).toInt) :
    exec (.dround rd rs1 rs2 rm ov sc) s = .next (([rs2, rs1].foldl State.noteRead s).writeReg rd (s.reg rs1)) := by
  have hrange : ¬ 18 < (sc.val : Int) - (s.reg rs2).toInt := by omega
  simp only [exec, execDround, withScale_legal _ _ _ _ h, readX_eq, reg_noteRead, if_neg hrange, if_pos hp,
    List.foldl_cons, List.foldl_nil]

theorem exec_dround_precisionRange (hp : 18 < (sc.val : Int) - (s.reg rs2).toInt) :
    exec (.dround rd rs1 rs2 rm ov sc) s =
      raise (.dround rd rs1 rs2 rm ov sc) .precisionRange ([rs2].foldl State.noteRead s) := by
  simp only [exec, execDround, withScale_legal _ _ _ _ h, readX_eq, if_pos hp, List.foldl_cons, List.foldl_nil]

theorem exec_dround {k : Nat} (h1 : 1 ≤ k) (h18 : k ≤ 18) (hk : (sc.val : Int) - (s.reg rs2).toInt = k) :
    exec (.dround rd rs1 rs2 rm ov sc) s =
      finish (.dround rd rs1 rs2 rm ov sc) rd
        (roundedTo ⟨(Instr.dround rd rs1 rs2 rm ov sc).opcode, [s.reg rs1, s.reg rs2], sc.val, rm⟩ (s.reg rs1).toInt k
          ov) ([rs2, rs1].foldl State.noteRead s) := by
  have hrange : ¬ 18 < (k : Int) := by omega
  have hbelow : ¬ (sc.val : Int) ≤ (s.reg rs2).toInt := by omega
  simp only [exec, execDround, withScale_legal _ _ _ _ h, readX_eq, reg_noteRead, hk, if_neg hrange, if_neg hbelow,
    Int.toNat_natCast, List.foldl_cons, List.foldl_nil]

theorem exec_dcmp : exec (.dcmp rd rs1 rs2 rm ov sc) s =
    .next (([rs1, rs2].foldl State.noteRead s).writeReg rd
      (word64 (sgn ((s.reg rs1).toInt - (s.reg rs2).toInt)))) := by
  simp only [exec, execDcmp, withScale_legal _ _ _ _ h, readX2_eq, List.foldl_cons, List.foldl_nil]

end

/-- Settles O53: `roundedTo` fits the rounded multiple into a word (`round_of_roundsTo`, `fitResult_cases`). -/
theorem roundToPrecision : Obligations.RoundToPrecision := by
  intro s rd rs1 rs2 rm ov sc hsc
  refine ⟨fun hp => completes_of_write (exec_dround_keeps s rd rs1 rs2 rm ov hsc hp),
    fun hp => faults_of_raise (exec_dround_precisionRange s rd rs1 rs2 rm ov hsc hp), fun k h1 h18 hk => ?_⟩
  have hexec := exec_dround s rd rs1 rs2 rm ov hsc h1 h18 hk
  have hden : 0 < (Ratio.mk (s.reg rs1).toInt (10 ^ k)).den := by positivity
  have hvalue : ((s.reg rs1).toInt : ℚ) / 10 ^ k = (Ratio.mk (s.reg rs1).toInt (10 ^ k)).toRat := by
    rw [toRat_mk]
    push_cast
    rfl
  rw [hvalue]
  refine ⟨fun r hr => ?_, fun hrm hdvd => ?_⟩
  · simp only [roundedTo, round_of_roundsTo hden hr] at hexec
    refine ⟨fun hfit => completes_of_finish hexec ?_, fun hfit hov => faults_of_finish (e := .overflow) hexec ?_,
      fun hfit hov => ?_⟩
    · rw [fitResult, if_pos hfit, word64]
    · rw [fitResult, if_neg hfit, if_pos hov]
    · rw [fitResult, if_neg hfit, if_neg (by simp [hov])] at hexec
      obtain ⟨t, ht, hdone⟩ := completes_of_finish hexec rfl
      exact ⟨t, _, ht, hdone⟩
  · subst hrm
    have hint : ¬ (Ratio.mk (s.reg rs1).toInt (10 ^ k)).isInt := fun h =>
      hdvd (by exact_mod_cast Int.dvd_of_tmod_eq_zero h)
    simp only [roundedTo, round_unnecessary_of_not_isInt hint] at hexec
    exact faults_of_finish (e := .roundingNecessary) hexec rfl

/-- Settles O54: the sign of the difference is the order (`word64_sgn_sub`), and scaling both values by a power of ten
keeps it. -/
theorem comparisonsAreExact : Obligations.ComparisonsAreExact := by
  intro s rd rs1 rs2 rc rm ov sc hsc
  refine ⟨?_, fun t x y ht hrc hx hy => ?_⟩
  · have horder : word64 (sgn ((s.reg rs1).toInt - (s.reg rs2).toInt)) =
        if (s.reg rs1).slt (s.reg rs2) then -1 else if s.reg rs1 = s.reg rs2 then 0 else 1 := by
      rw [word64_sgn_sub]
      simp only [BitVec.toInt_inj, BitVec.slt, decide_eq_true_eq]
    rw [← horder]
    exact completes_of_write (exec_dcmp s rd rs1 rs2 rm ov hsc)
  · obtain ⟨u, hu, hdone⟩ := completes_of_write (exec_dcmpu s rd rs1 rs2 rc rm ov hsc ht hrc)
    have hpow : (0 : ℚ) < 10 ^ sc.val * 10 ^ t := by positivity
    have hxs : ((((s.reg rs1).toInt * 10 ^ t : Int)) : ℚ) = x * (10 ^ sc.val * 10 ^ t) := by
      rw [hx]
      push_cast
      field_simp
    have hys : ((((s.reg rs2).toInt * 10 ^ sc.val : Int)) : ℚ) = y * (10 ^ sc.val * 10 ^ t) := by
      rw [hy]
      push_cast
      field_simp
    have hlt : (s.reg rs1).toInt * 10 ^ t < (s.reg rs2).toInt * 10 ^ sc.val ↔ x < y := by
      rw [← Int.cast_lt (R := ℚ), hxs, hys, mul_lt_mul_iff_left₀ hpow]
    have heq : (s.reg rs1).toInt * 10 ^ t = (s.reg rs2).toInt * 10 ^ sc.val ↔ x = y := by
      rw [← Int.cast_inj (α := ℚ), hxs, hys, mul_left_inj' hpow.ne']
    rw [word64_sgn_sub] at hdone
    simp only [hlt, heq] at hdone
    refine ⟨u, _, hu, hdone, fun h => if_pos h, fun h => ?_, fun h => ?_⟩
    · rw [if_neg h.not_lt, if_pos h]
    · rw [if_neg h.not_gt, if_neg h.ne']

end Sys2Proof.Machine
end

section
/-! SUPPORT. FORMAT's text (`47_string.md` R116): its digits are those of the magnitude, so it is `Text(a, s)`, and a literal
that denotes the decimal value (R118). -/

namespace Sys2Proof.Machine

/-! ### Digits -/

theorem denotes_append (xs ys : List Nat) : denotes (xs ++ ys) = denotes xs * 10 ^ ys.length + denotes ys := by
  simp only [denotes, List.reverse_append, Nat.ofDigits_append, List.length_reverse]
  ring

/-- The decimal digits of a number, the most significant first; `0` has one. -/
def integralDigits (n : Nat) : List Nat := if n = 0 then [0] else (Nat.digits 10 n).reverse

theorem integralDigits_of_ne_zero {n : Nat} (h : n ≠ 0) : integralDigits n = (Nat.digits 10 n).reverse := if_neg h

theorem denotes_integralDigits (n : Nat) : denotes (integralDigits n) = n := by
  by_cases h : n = 0
  · rw [h]
    rfl
  · rw [integralDigits_of_ne_zero h, denotes, List.reverse_reverse, Nat.ofDigits_digits]

theorem integralDigits_lt (n : Nat) : ∀ d ∈ integralDigits n, d < 10 := by
  intro d hd
  by_cases h : n = 0
  · subst h
    rw [List.mem_singleton.mp hd]
    decide
  · rw [integralDigits_of_ne_zero h, List.mem_reverse] at hd
    exact Nat.digits_lt_base (by decide) hd

theorem integralDigits_ne_nil (n : Nat) : integralDigits n ≠ [] := by
  by_cases h : n = 0
  · rw [h]
    decide
  · rw [integralDigits_of_ne_zero h, ne_eq, List.reverse_eq_nil_iff]
    exact Nat.digits_ne_nil_iff_ne_zero.mpr h

/-- R116: no leading zero but that of `0` itself. -/
theorem integralDigits_of_head_zero {n : Nat} (h : (integralDigits n).head? = some 0) : integralDigits n = [0] := by
  by_cases hn : n = 0
  · rw [hn]
    rfl
  · rw [integralDigits_of_ne_zero hn, List.head?_reverse, List.getLast?_eq_some_getLast
      (Nat.digits_ne_nil_iff_ne_zero.mpr hn), Option.some.injEq] at h
    exact absurd h (Nat.getLast_digit_ne_zero 10 hn)

/-- R116: the text of the integral part is its digits. -/
theorem decimalText_eq {fuel n : Nat} (hn : n < 10 ^ (fuel + 1)) :
    decimalText fuel n = (integralDigits n).map asciiDigit := by
  induction fuel generalizing n with
  | zero =>
    rw [zero_add, pow_one] at hn
    rw [decimalText, Nat.mod_eq_of_lt hn]
    by_cases h : n = 0
    · rw [h]
      rfl
    · rw [integralDigits_of_ne_zero h, Nat.digits_of_lt 10 n h hn]
      rfl
  | succ fuel ih =>
    rw [decimalText]
    split
    · rename_i hlt
      by_cases h : n = 0
      · rw [h]
        rfl
      · rw [integralDigits_of_ne_zero h, Nat.digits_of_lt 10 n h hlt]
        rfl
    · rename_i hge
      have hdiv : n / 10 ≠ 0 := by omega
      have hstep : integralDigits n = integralDigits (n / 10) ++ [n % 10] := by
        rw [integralDigits_of_ne_zero hdiv, integralDigits_of_ne_zero (by omega),
          Nat.digits_def' (by decide) (by omega), List.reverse_cons]
      rw [hstep, ih (by rw [pow_succ] at hn; omega), List.map_append]
      rfl

/-- The last `k` decimal digits of a number, the most significant first. -/
def paddedDigits : Nat → Nat → List Nat
  | 0, _ => []
  | k + 1, n => paddedDigits k (n / 10) ++ [n % 10]

theorem length_paddedDigits (k n : Nat) : (paddedDigits k n).length = k := by
  induction k generalizing n with
  | zero => rfl
  | succ k ih => simp [paddedDigits, ih]

theorem paddedDigits_lt (k n : Nat) : ∀ d ∈ paddedDigits k n, d < 10 := by
  induction k generalizing n with
  | zero => simp [paddedDigits]
  | succ k ih =>
    intro d hd
    obtain hd | hd := List.mem_append.mp hd
    · exact ih _ d hd
    · rw [List.mem_singleton.mp hd]
      exact Nat.mod_lt _ (by decide)

theorem denotes_paddedDigits {k n : Nat} (hn : n < 10 ^ k) : denotes (paddedDigits k n) = n := by
  induction k generalizing n with
  | zero =>
    rw [pow_zero, Nat.lt_one_iff] at hn
    rw [hn]
    rfl
  | succ k ih =>
    have hone : denotes [n % 10] = n % 10 := by simp [denotes]
    rw [paddedDigits, denotes_append, ih (by rw [pow_succ] at hn; omega), hone, List.length_singleton, pow_one]
    omega

theorem paddedText_eq (k n : Nat) : paddedText k n = (paddedDigits k n).map asciiDigit := by
  induction k generalizing n with
  | zero => rfl
  | succ k ih =>
    rw [paddedText, ih, paddedDigits, List.map_append]
    rfl

/-! ### The text -/

/-- R116: FORMAT's text is `Text(a, s)`. -/
theorem isTextOf_formatText (a : Word) (sc : Nat) : IsTextOf a.toInt sc (formatText a.toInt sc) := by
  have hpow : 0 < 10 ^ sc := by positivity
  have hip : a.toInt.natAbs / 10 ^ sc < 10 ^ (19 + 1) := by
    have hlo := BitVec.le_toInt a
    have hhi := BitVec.toInt_lt (x := a)
    exact (Nat.div_le_self _ _).trans_lt (by omega)
  have hfp : a.toInt.natAbs - a.toInt.natAbs / 10 ^ sc * 10 ^ sc = a.toInt.natAbs % 10 ^ sc := by
    rw [Nat.mod_eq_sub_div_mul]
  refine ⟨integralDigits (a.toInt.natAbs / 10 ^ sc), paddedDigits sc (a.toInt.natAbs % 10 ^ sc),
    integralDigits_ne_nil _, integralDigits_of_head_zero, length_paddedDigits _ _,
    List.forall_mem_append.mpr ⟨integralDigits_lt _, paddedDigits_lt _ _⟩, ?_, ?_⟩
  · rw [denotes_append, denotes_integralDigits, denotes_paddedDigits (Nat.mod_lt _ hpow), length_paddedDigits,
      Nat.div_add_mod']
  · have hfrac : (if 0 < sc then pointChar :: paddedText sc (a.toInt.natAbs % 10 ^ sc) else []) =
        if sc = 0 then [] else 0x2E :: (paddedDigits sc (a.toInt.natAbs % 10 ^ sc)).map asciiDigit := by
      rw [paddedText_eq]
      obtain rfl | hpos := Nat.eq_zero_or_pos sc
      · rfl
      · rw [if_pos hpos, if_neg hpos.ne', pointChar]
    simp only [formatText]
    rw [hfp, hfrac, decimalText_eq hip]
    rfl

/-- R118: `Text(a, s)` is a literal that denotes `a × 10^-s`. -/
theorem IsTextOf.isLiteral {a : Int} {sc : Nat} {t : List Byte} (h : IsTextOf a sc t) :
    IsLiteral t ((a : ℚ) / 10 ^ sc) := by
  obtain ⟨ip, fp, hip, -, hlen, hdigits, hdenotes, rfl⟩ := h
  have hsc : sc = 0 ↔ fp = [] := by rw [← hlen, List.length_eq_zero_iff]
  refine ⟨if a < 0 then [0x2D] else [], ip, fp, ?_, hip, hdigits, by simp only [hsc], ?_⟩
  · split <;> simp
  · have habs : (a : ℚ) = (if a < 0 then -1 else 1) * (a.natAbs : ℚ) := by
      rw [Nat.cast_natAbs, Int.cast_abs]
      split
      · rename_i hneg
        rw [abs_of_neg (by exact_mod_cast hneg), neg_one_mul, neg_neg]
      · rename_i hpos
        rw [abs_of_nonneg (by exact_mod_cast not_lt.mp hpos), one_mul]
    have hsign : ((if a < 0 then [0x2D] else []) = [(0x2D : Byte)]) ↔ a < 0 := by split <;> simp [*]
    rw [hdenotes, hlen]
    simp only [hsign]
    rw [← mul_div_assoc, ← habs]

/-! ### The statements -/

/-- R118: the state after FORMAT holds the text. -/
theorem holdsText_format (s : State) (r : Reg) {sc : ScaleField} (hsc : sc.val ≤ 18) :
    HoldsText ((s.noteRead r).withText (formatText (s.reg r).toInt sc.val)) (formatText (s.reg r).toInt sc.val) := by
  refine ⟨toNat_length_formatText _ hsc, fun k hk => ?_⟩
  rw [State.withText, memWrite_read, if_pos (by omega), Nat.sub_zero]

/-- Settles O59: the text is `isTextOf_formatText`, its length `length_formatText_le`, and the bytes past it are left by
`memWrite`. -/
theorem formatWritesTheText : Obligations.FormatWritesTheText := by
  intro s rs1 sc hsc
  refine ⟨_, _, exec_format_legal rs1 s hsc, isTextOf_formatText _ _, length_formatText_le _ hsc,
    holdsText_format s rs1 hsc, fun a ha => ?_, fun r _ => ⟨rfl, rfl⟩, rfl, rfl, ⟨rfl, rfl, rfl⟩, ?_⟩
  · rw [State.withText, memWrite_read, if_neg (by omega), noteRead_tbuf]
  · simp [NotesReads, State.withText]

/-- Settles O60: the text is a literal of the value (`IsTextOf.isLiteral`), PARSE reads literals
(`parseAcceptsExactlyTheGrammar`), and the value at its scale is an integer, which rounds to itself. -/
theorem formatThenParseGivesTheValueBack : Obligations.FormatThenParseGivesTheValueBack := by
  intro s rs1 rd rm sc hsc
  obtain ⟨-, -, hread⟩ := parseAcceptsExactlyTheGrammar
    ((s.noteRead rs1).withText (formatText (s.reg rs1).toInt sc.val)) rd rm sc
  obtain ⟨hliteral, -⟩ := hread _ hsc (holdsText_format s rs1 hsc)
  obtain ⟨hcompletes, -⟩ := hliteral _ (isTextOf_formatText _ _).isLiteral
  have hvalue : ((s.reg rs1).toInt : ℚ) / 10 ^ sc.val * 10 ^ sc.val = (s.reg rs1).toInt :=
    div_mul_cancel₀ _ (by positivity)
  rw [hvalue] at hcompletes
  obtain ⟨u, hu, hdone⟩ := hcompletes _ (roundsTo_intCast _ rm) (fits64_toInt _)
  rw [BitVec.ofInt_toInt] at hdone
  exact ⟨_, u, exec_format_legal rs1 s hsc, hu, hdone⟩

end Sys2Proof.Machine
end

section
/-! SUPPORT. DSQRT (`44_arith.md` R99): the machine's integer root is `Nat.sqrt`, and its rounding the rounded real root. -/

namespace Sys2Proof.Machine

/-! ### The integer root -/

/-- R10: one root bit per step keeps the root of the leading pairs of bits. -/
theorem isqrtBits_spec {k n : Nat} (h : n < 4 ^ k) :
    isqrtBits k n * isqrtBits k n ≤ n ∧ n < (isqrtBits k n + 1) * (isqrtBits k n + 1) := by
  induction k generalizing n with
  | zero =>
    rw [pow_zero, Nat.lt_one_iff] at h
    subst h
    decide
  | succ k ih =>
    obtain ⟨hlo, hhi⟩ := ih (n := n / 4) (by rw [pow_succ] at h; omega)
    rw [isqrtBits]
    generalize isqrtBits k (n / 4) = r at hlo hhi ⊢
    have hsq : 2 * r * (2 * r) = 4 * (r * r) := by ring
    have hnext : (2 * r + 1 + 1) * (2 * r + 1 + 1) = 4 * ((r + 1) * (r + 1)) := by ring
    split
    · rename_i hle
      exact ⟨hle, by omega⟩
    · rename_i hgt
      exact ⟨by omega, by omega⟩

theorem isqrt_eq_sqrt (n : Nat) : isqrt n = n.sqrt := by
  have hlog : n < 4 ^ (n.log2 / 2 + 1) := by
    have hbound : n < 2 ^ (n.log2 + 1) := Nat.lt_log2_self
    have hpow : 2 ^ (n.log2 + 1) ≤ 2 ^ (2 * (n.log2 / 2 + 1)) := Nat.pow_le_pow_right (by decide) (by omega)
    rw [pow_mul] at hpow
    exact hbound.trans_le hpow
  exact Nat.eq_sqrt.mpr (isqrtBits_spec hlog)

/-! ### Roots under the modes -/

/-- R99: a root under a mode is at most the next integer above the real root. -/
theorem RootRoundsTo.pred_sq_le {n r : Nat} {m : RoundingMode} (h : RootRoundsTo n m r) : (r - 1) * (r - 1) ≤ n := by
  obtain rfl | ⟨k, rfl⟩ : r = 0 ∨ ∃ k, r = k + 1 := by
    cases r with
    | zero => exact .inl rfl
    | succ k => exact .inr ⟨k, rfl⟩
  · exact Nat.zero_le n
  · rw [Nat.add_sub_cancel]
    cases m <;> simp only [RootRoundsTo] at h
    case up => exact (h.2 k (by omega)).le
    case ceiling => exact (h.2 k (by omega)).le
    case down => nlinarith [h.1]
    case floor => nlinarith [h.1]
    case unnecessary => nlinarith
    all_goals
      have hupper := h.2 (by omega)
      rw [show 2 * (k + 1) - 1 = 2 * k + 1 by omega] at hupper
      nlinarith

/-- R99: the real root has one rounding under each mode. -/
theorem RootRoundsTo.unique {n r r' : Nat} {m : RoundingMode} (h : RootRoundsTo n m r) (h' : RootRoundsTo n m r') :
    r = r' := by
  have hle {r r' : Nat} (h : RootRoundsTo n m r) (h' : RootRoundsTo n m r') : r' ≤ r := by
    by_contra hlt
    rw [not_le] at hlt
    obtain ⟨k, rfl⟩ : ∃ k, r' = k + 1 := ⟨r' - 1, by omega⟩
    have hrk : r ≤ k := by omega
    cases m <;> simp only [RootRoundsTo] at h h'
    case up => exact absurd (h'.2 r hlt) (not_lt.mpr h.1)
    case ceiling => exact absurd (h'.2 r hlt) (not_lt.mpr h.1)
    case down => nlinarith [h.2, h'.1]
    case floor => nlinarith [h.2, h'.1]
    case unnecessary => nlinarith
    all_goals
      have hupper := h'.2 (by omega)
      rw [show 2 * (k + 1) - 1 = 2 * k + 1 by omega] at hupper
      nlinarith [h.1]
  exact le_antisymm (hle h' h) (hle h h')

theorem rootRoundsTo_of_exact (r : Nat) (m : RoundingMode) : RootRoundsTo (r * r) m r := by
  have hbelow : ∀ k < r, k * k < r * r := fun k hk => Nat.mul_self_lt_mul_self hk
  have hnext : r * r < (r + 1) * (r + 1) := Nat.mul_self_lt_mul_self (Nat.lt_succ_self r)
  have hnear : 0 < r → (2 * r - 1) * (2 * r - 1) < 4 * (r * r) := fun hr => by
    rw [show 4 * (r * r) = (2 * r) * (2 * r) by ring]
    exact Nat.mul_self_lt_mul_self (by omega)
  cases m with
  | up => exact ⟨le_refl _, hbelow⟩
  | ceiling => exact ⟨le_refl _, hbelow⟩
  | down => exact ⟨le_refl _, hnext⟩
  | floor => exact ⟨le_refl _, hnext⟩
  | unnecessary => rfl
  | _ => exact ⟨by nlinarith, hnear⟩

section
variable {n r : Nat} (hlo : r * r < n) (hhi : n < (r + 1) * (r + 1))
include hlo hhi

/-- R99: an inexact root lies above the middle of `r` and `r + 1` exactly when `r² + r + 1 ≤ n`; the increment then is the
one the mode asks for. -/
theorem rootRoundsTo_of_inexact (odd : Bool) {m : RoundingMode} (hm : m ≠ .unnecessary) :
    ∃ inc : Nat, incrementFor m false odd (if r * r + r + 1 ≤ n then .greaterThanHalf else .lessThanHalf) =
      .ok (inc : Int) ∧ RootRoundsTo n m (r + inc) := by
  have htoward : r * r ≤ n ∧ n < (r + 1) * (r + 1) := ⟨hlo.le, hhi⟩
  have haway : n ≤ (r + 1) * (r + 1) ∧ ∀ k, k < r + 1 → k * k < n :=
    ⟨hhi.le, fun k hk => (Nat.mul_self_le_mul_self (Nat.le_of_lt_succ hk)).trans_lt hlo⟩
  by_cases hhalf : r * r + r + 1 ≤ n
  · rw [if_pos hhalf]
    have hnear : 4 * n < (2 * (r + 1) + 1) * (2 * (r + 1) + 1) ∧
        (0 < r + 1 → (2 * (r + 1) - 1) * (2 * (r + 1) - 1) < 4 * n) := by
      rw [show 2 * (r + 1) - 1 = 2 * r + 1 by omega]
      exact ⟨by nlinarith, fun _ => by nlinarith⟩
    cases m with
    | up => exact ⟨1, rfl, haway⟩
    | down => exact ⟨0, rfl, htoward⟩
    | ceiling => exact ⟨1, rfl, haway⟩
    | floor => exact ⟨0, rfl, htoward⟩
    | unnecessary => exact absurd rfl hm
    | _ => exact ⟨1, rfl, hnear⟩
  · rw [if_neg hhalf]
    have hnear : 4 * n < (2 * r + 1) * (2 * r + 1) ∧ (0 < r → (2 * r - 1) * (2 * r - 1) < 4 * n) := by
      refine ⟨by nlinarith, fun hr => ?_⟩
      obtain ⟨k, rfl⟩ : ∃ k, r = k + 1 := ⟨r - 1, by omega⟩
      rw [show 2 * (k + 1) - 1 = 2 * k + 1 by omega]
      nlinarith
    cases m with
    | up => exact ⟨1, rfl, haway⟩
    | down => exact ⟨0, rfl, htoward⟩
    | ceiling => exact ⟨1, rfl, haway⟩
    | floor => exact ⟨0, rfl, htoward⟩
    | unnecessary => exact absurd rfl hm
    | _ => exact ⟨0, rfl, hnear⟩

end

theorem roundedRoot_exact (r : Nat) (m : RoundingMode) : roundedRoot (r * r) m = .ok r := by
  simp only [roundedRoot, isqrt_eq_sqrt, Nat.sqrt_eq, if_true]

/-- R99: every mode but UNNECESSARY rounds the root, and the machine finds that rounding. -/
theorem exists_roundedRoot (n : Nat) {m : RoundingMode} (hm : m ≠ .unnecessary) :
    ∃ r : Nat, roundedRoot n m = .ok r ∧ RootRoundsTo n m r := by
  by_cases hexact : n.sqrt * n.sqrt = n
  · rw [← hexact]
    exact ⟨_, roundedRoot_exact _ m, rootRoundsTo_of_exact _ m⟩
  · obtain ⟨inc, hinc, hr⟩ := rootRoundsTo_of_inexact (lt_of_le_of_ne (Nat.sqrt_le n) hexact) (Nat.lt_succ_sqrt n)
      (decide (n.sqrt % 2 ≠ 0)) hm
    refine ⟨n.sqrt + inc, ?_, hr⟩
    simp only [roundedRoot, isqrt_eq_sqrt, if_neg hexact, hinc, Nat.cast_add]

theorem roundedRoot_of_rootRoundsTo {n r : Nat} {m : RoundingMode} (h : RootRoundsTo n m r) :
    roundedRoot n m = .ok r := by
  by_cases hm : m = .unnecessary
  · subst hm
    have hsq : r * r = n := h
    rw [← hsq, roundedRoot_exact]
  · obtain ⟨r', hr', hround⟩ := exists_roundedRoot n hm
    rw [hr', hround.unique h]

theorem roundedRoot_inexact {n : Nat} (h : ¬ ∃ r, r * r = n) :
    roundedRoot n .unnecessary = .error .roundingNecessary := by
  have hne : isqrt n * isqrt n ≠ n := fun hsq => h ⟨_, hsq⟩
  have hpart : (if isqrt n * isqrt n + isqrt n + 1 ≤ n then TruncatedPart.greaterThanHalf else .lessThanHalf) ≠ .zero := by
    split <;> simp
  simp only [roundedRoot, if_neg hne, incrementFor_unnecessary hpart]

/-! ### The statement -/

section
variable (s : State) (rd rs1 : Reg) (rm : RoundingMode) (ov : OverflowMode) {sc : ScaleField} (h : sc.val ≤ 18)
include h

theorem exec_dsqrt (ha : 0 ≤ (s.reg rs1).toInt) : exec (.dsqrt rd rs1 rm ov sc) s =
    finish (.dsqrt rd rs1 rm ov sc) rd ((roundedRoot ((s.reg rs1).toNat * 10 ^ sc.val) rm).map word64)
      ([rs1].foldl State.noteRead s) := by
  simp only [exec, execDsqrt, withScale_legal _ _ _ _ h, readX_eq, if_neg (not_lt.mpr ha), toNat_eq_toInt_toNat ha,
    List.foldl_cons, List.foldl_nil]

theorem exec_dsqrt_negative (ha : (s.reg rs1).toInt < 0) : exec (.dsqrt rd rs1 rm ov sc) s =
    raise (.dsqrt rd rs1 rm ov sc) .negativeSqrt ([rs1].foldl State.noteRead s) := by
  simp only [exec, execDsqrt, withScale_legal _ _ _ _ h, readX_eq, if_pos ha, List.foldl_cons, List.foldl_nil]

end

/-- R99: the root of a word at a legal scale is a word. -/
theorem root_lt {a : Word} {k r : Nat} {m : RoundingMode} (ha : 0 ≤ a.toInt) (hk : k ≤ 18)
    (h : RootRoundsTo (a.toNat * 10 ^ k) m r) : r < 2 ^ 63 := by
  have hword : a.toNat < 2 ^ 63 := by
    have hhi := BitVec.toInt_lt (x := a)
    rw [toNat_eq_toInt_toNat ha]
    omega
  have hpow := ten_pow_le hk
  have hsq : (r - 1) * (r - 1) < 2 ^ 62 * 2 ^ 62 :=
    calc (r - 1) * (r - 1) ≤ a.toNat * 10 ^ k := h.pred_sq_le
      _ ≤ 2 ^ 63 * 10 ^ 18 := Nat.mul_le_mul hword.le hpow
      _ < 2 ^ 62 * 2 ^ 62 := by decide
  have hlt : r - 1 < 2 ^ 62 := Nat.mul_self_lt_mul_self_iff.mp hsq
  omega

/-- Settles O48: the machine's root is the rounded real root (`roundedRoot_of_rootRoundsTo`), and a word (`root_lt`). -/
theorem squareRootIsRounded : Obligations.SquareRootIsRounded := by
  intro s rd rs1 rm ov sc hsc
  refine ⟨fun ha r hr => ⟨root_lt ha hsc hr, completes_of_finish (exec_dsqrt s rd rs1 rm ov hsc ha) ?_⟩, fun _ hm => ?_,
    fun ha hrm hinexact => ?_, fun ha => faults_of_raise (exec_dsqrt_negative s rd rs1 rm ov hsc ha)⟩
  · rw [roundedRoot_of_rootRoundsTo hr, Except.map, word64, BitVec.ofInt_natCast]
  · obtain ⟨r, -, hr⟩ := exists_roundedRoot ((s.reg rs1).toNat * 10 ^ sc.val) hm
    exact ⟨r, hr⟩
  · subst hrm
    refine faults_of_finish (e := .roundingNecessary) (exec_dsqrt s rd rs1 _ ov hsc ha) ?_
    rw [roundedRoot_inexact hinexact, Except.map]

end Sys2Proof.Machine
end

section
/-! SUPPORT. The shifts (`45_shift_round_compare.md` R104, R105): the clamped exponent of `shiftedExact` (log 12) rounds as
the exact product does. -/

namespace Sys2Proof.Machine

/-! ### Products with a power of two -/

theorem toRat_scale2 (n e : Int) : (Ratio.scale2 n e).toRat = n * (2 : ℚ) ^ e := by
  unfold Ratio.scale2
  split
  · rename_i h
    rw [toRat_mk, Nat.cast_one, div_one, Int.cast_mul, Int.cast_pow, Int.cast_ofNat, ← zpow_natCast,
      Int.toNat_of_nonneg h]
  · rename_i h
    rw [toRat_mk, Nat.cast_pow, Nat.cast_ofNat, ← zpow_natCast, Int.toNat_of_nonneg (by omega), zpow_neg, div_inv_eq_mul]

theorem den_scale2_pos (n e : Int) : 0 < (Ratio.scale2 n e).den := by
  unfold Ratio.scale2
  split
  · exact Nat.one_pos
  · exact Nat.two_pow_pos _

theorem abs_toInt_le (a : Word) : |(a.toInt : ℚ)| ≤ 2 ^ 63 := by
  obtain ⟨hlo, hhi⟩ := fits64_toInt a
  simp only [minWord, maxWord] at hlo hhi
  have habs : |a.toInt| ≤ 2 ^ 63 := abs_le.mpr ⟨by omega, by omega⟩
  exact_mod_cast habs

theorem abs_mul_two_zpow (a : ℚ) (n : Int) : |a * (2 : ℚ) ^ n| = |a| * 2 ^ n := by
  rw [abs_mul, abs_of_pos (a := (2 : ℚ) ^ n) (zpow_pos two_pos n)]

/-- A word shifted right by `k` or more is at most `2^(63 - k)`. -/
theorem abs_shifted_le (a : Word) {n k : Int} (h : n ≤ k) : |(a.toInt : ℚ) * 2 ^ n| ≤ 2 ^ (63 + k) := by
  rw [abs_mul_two_zpow, zpow_add₀ two_ne_zero]
  exact mul_le_mul (by exact_mod_cast abs_toInt_le a) (zpow_le_zpow_right₀ one_le_two h) (zpow_pos two_pos n).le
    (by positivity)

theorem isInt_shifted (a : Int) {n : Int} (h : 0 ≤ n) : ((a * 2 ^ n.toNat : Int) : ℚ) = (a : ℚ) * (2 : ℚ) ^ n := by
  rw [Int.cast_mul, Int.cast_pow, Int.cast_ofNat, ← zpow_natCast, Int.toNat_of_nonneg h]

theorem not_outOfRange_of_abs_le {x : ℚ} (h : |x| ≤ 2 ^ 62) : ¬ OutOfRange x := by
  obtain ⟨hlo, hhi⟩ := abs_le.mp h
  have hmin : (minWord : ℚ) ≤ -2 ^ 62 := by norm_num [minWord]
  have hmax : (2 : ℚ) ^ 62 ≤ maxWord := by norm_num [maxWord]
  rw [OutOfRange, not_or, not_lt, not_lt]
  exact ⟨by linarith, by linarith⟩

/-! ### Values that round alike -/

/-- The value `y` serves for `x` in a shift: it rounds to the same word, or to an integer out of range where `x` does; and
where `x` is no integer, neither is `y`, and `y` is in range. -/
structure RoundsFor (x y : ℚ) : Prop where
  rounds : ∀ m r, RoundsTo x m r → ∃ r', RoundsTo y m r' ∧ (r' = r ∨ (¬ fits64 r ∧ ¬ fits64 r'))
  inexact : (¬ ∃ r : Int, (r : ℚ) = x) → (¬ ∃ r : Int, (r : ℚ) = y) ∧ ¬ OutOfRange y

/-- A nonzero value below one half in size lies between 0 and the next integer away from it. -/
theorem between_of_small {x : ℚ} (h0 : x ≠ 0) (h : |x| < 1 / 2) : Between (decide (x < 0)) 0 |x| x where
  eq := by
    obtain hneg | hpos := lt_or_ge x 0
    · rw [decide_eq_true hneg, signStep_true, abs_of_neg hneg]
      push_cast
      ring
    · rw [decide_eq_false (not_lt.mpr hpos), signStep_false, abs_of_nonneg hpos]
      push_cast
      ring
  pos := abs_pos.mpr h0
  lt_one := by linarith
  toward := by rw [mul_zero]

/-- R85: below one half, only the sign matters to a mode. -/
theorem roundsFor_of_small {x y : ℚ} (hx0 : x ≠ 0) (hx : |x| < 1 / 2) (hy0 : y ≠ 0) (hy : |y| < 1 / 2)
    (hsign : x < 0 ↔ y < 0) : RoundsFor x y := by
  have hbx := between_of_small hx0 hx
  have hby := between_of_small hy0 hy
  refine ⟨fun m r hr => ?_, fun _ => ⟨fun ⟨r, hr⟩ => hby.not_int r hr, not_outOfRange_of_abs_le (by linarith)⟩⟩
  have hm : m ≠ .unnecessary := by
    rintro rfl
    exact hbx.not_int r hr
  obtain ⟨r', hr'⟩ := exists_roundsTo y hm
  have hinc := incrementFor_of_roundsTo (p := .lessThanHalf) hbx ⟨hbx.pos, hx⟩ hr
  have hinc' := incrementFor_of_roundsTo (p := .lessThanHalf) hby ⟨hby.pos, hy⟩ hr'
  simp only [hsign, sub_zero] at hinc hinc'
  cases hinc.symm.trans hinc'
  exact ⟨r, hr', .inl rfl⟩

/-- R88: two integers out of range end alike. -/
theorem roundsFor_of_unfit {x y : Int} (hx : ¬ fits64 x) (hy : ¬ fits64 y) : RoundsFor x y where
  rounds m r hr := by
    rw [eq_of_roundsTo_int hr]
    exact ⟨y, roundsTo_intCast y m, .inr ⟨hx, hy⟩⟩
  inexact h := absurd ⟨x, rfl⟩ h

theorem not_fits64_shifted {a : Int} (ha : a ≠ 0) {k : Nat} (hk : 64 ≤ k) : ¬ fits64 (a * 2 ^ k) := by
  intro h
  have hpow : (2 : Int) ^ 64 ≤ 2 ^ k := pow_le_pow_right₀ one_le_two hk
  have habs : 1 * 2 ^ 64 ≤ |a| * 2 ^ k := mul_le_mul (Int.one_le_abs ha) hpow (by decide) (abs_nonneg a)
  have hbound : |a * 2 ^ k| ≤ 2 ^ 63 := by
    simp only [fits64, minWord, maxWord] at h
    exact abs_le.mpr ⟨by omega, by omega⟩
  rw [abs_mul, abs_of_pos (by positivity : (0 : Int) < 2 ^ k)] at hbound
  omega

/-- A shifted word that is no integer was shifted right, and is in range. -/
theorem not_outOfRange_shifted (a : Word) {n : Int} (h : ¬ ∃ r : Int, (r : ℚ) = (a.toInt : ℚ) * 2 ^ n) :
    ¬ OutOfRange ((a.toInt : ℚ) * 2 ^ n) := by
  have hneg : n ≤ -1 := by
    by_contra hn
    exact h ⟨_, isInt_shifted a.toInt (by omega)⟩
  exact not_outOfRange_of_abs_le (abs_shifted_le a hneg)

/-- Log 12: the clamped exponent serves for every exponent. -/
theorem roundsFor_shiftedExact (a : Word) (n : Int) :
    RoundsFor ((a.toInt : ℚ) * 2 ^ n) (shiftedExact a.toInt n).toRat := by
  have hsame (h : (a.toInt : ℚ) * 2 ^ n = (shiftedExact a.toInt n).toRat) :
      RoundsFor ((a.toInt : ℚ) * 2 ^ n) (shiftedExact a.toInt n).toRat := by
    rw [← h]
    exact ⟨fun m r hr => ⟨r, hr, .inl rfl⟩, fun hint => ⟨hint, not_outOfRange_shifted a hint⟩⟩
  rw [shiftedExact, toRat_scale2] at hsame ⊢
  by_cases hzero : a.toInt = 0
  · exact hsame (by rw [hzero, Int.cast_zero, zero_mul, zero_mul])
  have hzero' : (a.toInt : ℚ) ≠ 0 := by exact_mod_cast hzero
  obtain hlow | hmid | hhigh : n < -66 ∨ (-66 ≤ n ∧ n ≤ 64) ∨ 64 < n := by omega
  case inl =>
    have hclamp : max (-66) (min 64 n) = -66 := by omega
    have hx := abs_shifted_le a hlow.le
    have hy := abs_shifted_le a (le_refl (-66))
    have hsmall : (2 : ℚ) ^ (63 + -66 : Int) < 1 / 2 := by norm_num
    have hnx := zpow_pos (two_pos (α := ℚ)) n
    have hny := zpow_pos (two_pos (α := ℚ)) (-66)
    rw [hclamp]
    refine roundsFor_of_small (mul_ne_zero hzero' hnx.ne') (hx.trans_lt hsmall) (mul_ne_zero hzero' hny.ne')
      (hy.trans_lt hsmall) ?_
    have hsign {p : ℚ} (hp : 0 < p) : (a.toInt : ℚ) * p < 0 ↔ (a.toInt : ℚ) < 0 := by
      rw [← neg_pos, ← neg_mul, mul_pos_iff_of_pos_right hp, neg_pos]
    rw [hsign hnx, hsign hny]
  case inr.inl => exact hsame (by rw [show max (-66) (min 64 n) = n by omega])
  case inr.inr =>
    have hclamp : max (-66) (min 64 n) = 64 := by omega
    rw [hclamp, ← isInt_shifted a.toInt (by omega), ← isInt_shifted a.toInt (by omega)]
    exact roundsFor_of_unfit (not_fits64_shifted hzero (by omega)) (not_fits64_shifted hzero (by omega))

/-! ### The statement -/

section
variable {i : Instr} {rd : Reg} {srcs : List Reg} {s : State} {operands : List Word} {k : Nat} {rm : RoundingMode}
  {ov : OverflowMode} {q : Ratio} {x : ℚ}
  (hexec : exec i s = finishRounded i rd operands k rm ov q (srcs.foldl State.noteRead s)) (hden : 0 < q.den)
  (hx : RoundsFor x q.toRat)
include hexec hden hx

theorem roundsAndCompletes_of_roundsFor : RoundsAndCompletes i rd srcs x rm s := by
  intro r hr hfit
  obtain ⟨r', hr', rfl | ⟨hunfit, -⟩⟩ := hx.rounds rm r hr
  · exact roundsAndCompletes hexec hden _ rfl r' hr' hfit
  · exact absurd hfit hunfit

theorem shiftsOrFaults_of_roundsFor : ShiftsOrFaults i rd srcs x rm ov s := by
  have hunfit (r : Int) (hr : RoundsTo x rm r) (hfit : ¬ fits64 r) : ∃ r', RoundsTo q.toRat rm r' ∧ ¬ fits64 r' := by
    obtain ⟨r', hr', rfl | ⟨-, hfit'⟩⟩ := hx.rounds rm r hr
    · exact ⟨r', hr', hfit⟩
    · exact ⟨r', hr', hfit'⟩
  refine ⟨fun hrm hint => ?inexact, fun hov r hr hfit => ?overflow, fun hov r hr hfit => ?wraps⟩
  case inexact =>
    obtain ⟨hint', hrange⟩ := hx.inexact hint
    exact inexactFaults hexec hden hrange hrm hint'
  case overflow =>
    obtain ⟨r', hr', hfit'⟩ := hunfit r hr hfit
    exact overflowFaults hexec hden hov r' hr' hfit'
  case wraps =>
    obtain ⟨r', hr', hfit'⟩ := hunfit r hr hfit
    exact overflowWraps hexec hden hov r' hr' hfit'

end

section
variable (s : State) (rd rs1 rs2 : Reg) (rm : RoundingMode) (ov : OverflowMode) {sc : ScaleField} (h : sc.val ≤ 18)
include h

theorem exec_dshl : exec (.dshl rd rs1 rs2 rm ov sc) s =
    finishRounded (.dshl rd rs1 rs2 rm ov sc) rd [s.reg rs1, s.reg rs2] sc.val rm ov
      (shiftedExact (s.reg rs1).toInt (s.reg rs2).toInt) ([rs1, rs2].foldl State.noteRead s) := by
  simp only [exec, execDshl, withScale_legal _ _ _ _ h, readX2_eq, List.foldl_cons, List.foldl_nil]

theorem exec_dshr : exec (.dshr rd rs1 rs2 rm ov sc) s =
    finishRounded (.dshr rd rs1 rs2 rm ov sc) rd [s.reg rs1, s.reg rs2] sc.val rm ov
      (shiftedExact (s.reg rs1).toInt (-(s.reg rs2).toInt)) ([rs1, rs2].foldl State.noteRead s) := by
  simp only [exec, execDshr, withScale_legal _ _ _ _ h, readX2_eq, List.foldl_cons, List.foldl_nil]

end

/-- Settles O52: the clamped value rounds for the exact one (`roundsFor_shiftedExact`), whatever the count. -/
theorem shiftsRoundTheExactProduct : Obligations.ShiftsRoundTheExactProduct := by
  intro s rd rs1 rs2 rm ov sc hsc
  have hden (n : Int) : 0 < (shiftedExact (s.reg rs1).toInt n).den := den_scale2_pos _ _
  have hleft := roundsFor_shiftedExact (s.reg rs1) (s.reg rs2).toInt
  have hright := roundsFor_shiftedExact (s.reg rs1) (-(s.reg rs2).toInt)
  rw [zpow_neg, ← div_eq_mul_inv] at hright
  have hdshl := exec_dshl s rd rs1 rs2 rm ov hsc
  have hdshr := exec_dshr s rd rs1 rs2 rm ov hsc
  exact ⟨⟨roundsAndCompletes_of_roundsFor hdshl (hden _) hleft, shiftsOrFaults_of_roundsFor hdshl (hden _) hleft⟩,
    roundsAndCompletes_of_roundsFor hdshr (hden _) hright, shiftsOrFaults_of_roundsFor hdshr (hden _) hright⟩

end Sys2Proof.Machine
end

section
/-! SUPPORT. DPOW in general (`44_arith.md` R100, R101): whatever POW_RESULT is, the outcome is one R101 admits for the exact
power; where the parameter's is not, `DecResult` of it is. -/

namespace Sys2Proof.Machine

/-! ### The exact power -/

theorem toRat_powExact {a : Int} (n : Int) (sc : Nat) :
    (powExact a n sc).toRat = ((a : ℚ) / 10 ^ sc) ^ n * 10 ^ sc := by
  unfold powExact
  split
  · rename_i hn
    obtain ⟨k, rfl⟩ := Int.eq_ofNat_of_zero_le hn
    rw [toRat_mk, Int.toNat_natCast, zpow_natCast, div_pow, ← pow_mul]
    push_cast
    ring
  · rename_i hn
    obtain ⟨k, hk⟩ := Int.eq_ofNat_of_zero_le (a := -n) (by omega)
    obtain rfl : n = -(k : Int) := by omega
    rw [toRat_ofDiv, neg_neg, Int.toNat_natCast, zpow_neg, zpow_natCast, div_pow, ← pow_mul, inv_div]
    push_cast
    ring

theorem den_powExact_pos {a : Int} (ha : a ≠ 0) (n : Int) (sc : Nat) : 0 < (powExact a n sc).den := by
  unfold powExact
  split
  · exact Nat.pow_pos (by decide)
  · exact den_ofDiv_pos (pow_ne_zero _ ha)

/-! ### R101's tests in rationals -/

section
variable {q : Ratio} (hden : 0 < q.den)
include hden

theorem withinTwo_iff (r : Int) : withinTwo q r ↔ |(r : ℚ) - q.toRat| < 2 := by
  have hd : (0 : ℚ) < q.den := by exact_mod_cast hden
  have hscaled : ((r * q.den - q.num : Int) : ℚ) = (r - q.toRat) * q.den := by
    rw [Ratio.toRat, sub_mul, div_mul_cancel₀ _ hd.ne']
    push_cast
    rfl
  rw [withinTwo, ← Nat.cast_lt (α := ℚ), Nat.cast_natAbs, Int.cast_abs, hscaled, abs_mul, abs_of_pos hd, Nat.cast_mul,
    Nat.cast_ofNat, mul_lt_mul_iff_left₀ hd]

theorem eq_toRat_iff (r : Int) : r * q.den = q.num ↔ (r : ℚ) = q.toRat := by
  have hd : (q.den : ℚ) ≠ 0 := by exact_mod_cast hden.ne'
  rw [Ratio.toRat, eq_div_iff hd]
  norm_cast

theorem someNeighbourUnfit_of_candidate (h : someCandidateUnfit q = true) : SomeNeighbourUnfit q.toRat := by
  obtain ⟨r, hmem, hunfit⟩ := List.any_eq_true.mp h
  obtain ⟨-, hnear⟩ := List.mem_filter.mp hmem
  exact ⟨r, (withinTwo_iff hden r).mp (of_decide_eq_true hnear), of_decide_eq_true hunfit⟩

end

/-- R101: the result `r` is an outcome admitted for the exact value `x`. -/
inductive AdmittedResult (x : ℚ) (m : RoundingMode) (ov : OverflowMode) : Except EngineFault Word → Prop
  | word (w : Word)
      (h : (m ≠ .unnecessary ∧ |(w.toInt : ℚ) - x| < 2) ∨ (m = .unnecessary ∧ (w.toInt : ℚ) = x) ∨
        (ov = .unchecked ∧ SomeNeighbourUnfit x)) : AdmittedResult x m ov (.ok w)
  | overflow (hov : ov = .checked) (h : SomeNeighbourUnfit x) : AdmittedResult x m ov (.error .overflow)
  | roundingNecessary (hm : m = .unnecessary) : AdmittedResult x m ov (.error .roundingNecessary)

/-- R101: the parameter's outcome, where the machine takes it. -/
theorem admittedResult_of_admitted {q : Ratio} (hden : 0 < q.den) {m : RoundingMode} {ov : OverflowMode}
    {o : Config.PowOutcome} (h : admitted q m ov o = true) : AdmittedResult q.toRat m ov (powResultOf o) := by
  cases o with
  | word w =>
    simp only [admitted, Bool.or_eq_true, Bool.and_eq_true, decide_eq_true_eq, withinTwo_iff hden,
      eq_toRat_iff hden] at h
    obtain (h | h) | ⟨hov, h⟩ := h
    · exact .word w (.inl h)
    · exact .word w (.inr (.inl h))
    · exact .word w (.inr (.inr ⟨hov, someNeighbourUnfit_of_candidate hden h⟩))
  | overflow =>
    simp only [admitted, Bool.and_eq_true, decide_eq_true_eq] at h
    exact .overflow h.1 (someNeighbourUnfit_of_candidate hden h.2)
  | roundingNecessary => exact .roundingNecessary (of_decide_eq_true h)

/-- A value out of range lies next to an integer that is. -/
theorem someNeighbourUnfit_of_outOfRange {x : ℚ} (h : OutOfRange x) : SomeNeighbourUnfit x := by
  obtain hlo | hhi := h
  · refine ⟨⌊x⌋, ?_, fun hfit => ?_⟩
    · rw [abs_lt]
      constructor <;> linarith [Int.floor_le x, Int.lt_floor_add_one x]
    · have hle : (minWord : ℚ) ≤ ⌊x⌋ := by exact_mod_cast hfit.1
      linarith [Int.floor_le x]
  · refine ⟨⌈x⌉, ?_, fun hfit => ?_⟩
    · rw [abs_lt]
      constructor <;> linarith [Int.le_ceil x, Int.ceil_lt_add_one x]
    · have hle : (⌈x⌉ : ℚ) ≤ maxWord := by exact_mod_cast hfit.2
      linarith [Int.le_ceil x]

/-- R101: `DecResult` of the exact power is always admitted. -/
theorem admittedResult_decResult {q : Ratio} (hden : 0 < q.den) (c : OpContext) (ov : OverflowMode) :
    AdmittedResult q.toRat c.rm ov (decResult c q ov) := by
  by_cases hex : ∃ r : Int, RoundsTo q.toRat c.rm r
  · obtain ⟨r, hr⟩ := hex
    have hnear : |(r : ℚ) - q.toRat| < 2 := by
      rw [abs_sub_comm]
      linarith [abs_sub_lt_one_of_roundsTo hr]
    rw [decResult_of_roundsTo hden hr]
    obtain ⟨hfit, hres⟩ | ⟨hunfit, hov, hres⟩ | ⟨hunfit, hov, hres⟩ := fitResult_cases c ov r <;> rw [hres]
    · refine .word _ ?_
      rw [toInt_word64 hfit]
      by_cases hm : c.rm = .unnecessary
      · rw [hm] at hr
        exact .inr (.inl ⟨hm, hr⟩)
      · exact .inl ⟨hm, hnear⟩
    · exact .overflow hov ⟨r, hnear, hunfit⟩
    · exact .word _ (.inr (.inr ⟨hov, r, hnear, hunfit⟩))
  · have hm : c.rm = .unnecessary := by_contra fun hm => hex (exists_roundsTo _ hm)
    have hint : ¬ ∃ r : Int, (r : ℚ) = q.toRat := by rwa [hm] at hex
    cases ov with
    | unchecked =>
      rw [decResult_of_inexact_unchecked hden hm hint]
      exact .roundingNecessary hm
    | checked =>
      by_cases hrange : OutOfRange q.toRat
      · rw [decResult_of_inexact_outOfRange hden hm hint hrange]
        obtain hchoice | hchoice := arithFaultChoice_cases c <;> rw [hchoice]
        · exact .overflow rfl (someNeighbourUnfit_of_outOfRange hrange)
        · exact .roundingNecessary hm
      · rw [decResult_of_inexact hden hm hint hrange]
        exact .roundingNecessary hm

theorem admittedResult_powOutcome (c : OpContext) {a : Int} (ha : a ≠ 0) (n : Int) (ov : OverflowMode) :
    AdmittedResult (powExact a n c.sc).toRat c.rm ov (powOutcome c a n ov) := by
  unfold powOutcome
  split
  · rename_i h
    exact admittedResult_of_admitted (den_powExact_pos ha n c.sc) h
  · exact admittedResult_decResult (den_powExact_pos ha n c.sc) c ov

/-! ### The statement -/

/-- Settles O51: the outcome is admitted (`admittedResult_powOutcome`); outside UNNECESSARY, and where no neighbour is out
of range or nothing is checked, the admitted outcomes are words. -/
theorem powerStaysInTheAdmittedSet : Obligations.PowerStaysInTheAdmittedSet := by
  intro s rd rs1 rs2 rm ov sc a n q hsc ha hn hlo hhi h0 h1 ha0 hone hminus hq
  have hexec := exec_dpow s rd rs1 rs2 rm ov hsc (hn ▸ hlo) (hn ▸ hhi)
  have hgeneral : powResultAt s rd rs1 rs2 rm ov sc =
      powOutcome ⟨(Instr.dpow rd rs1 rs2 rm ov sc).opcode, [s.reg rs1, s.reg rs2], sc.val, rm⟩ a n ov := by
    simp only [powResultAt, ← ha, ← hn, if_neg h0, if_neg ha0, if_neg h1, if_neg hone, if_neg hminus]
  have hadmitted : AdmittedResult q rm ov (powResultAt s rd rs1 rs2 rm ov sc) := by
    rw [hgeneral, hq, ← toRat_powExact]
    exact admittedResult_powOutcome ⟨_, _, sc.val, rm⟩ ha0 n ov
  generalize powResultAt s rd rs1 rs2 rm ov sc = r at hexec hadmitted
  cases hadmitted with
  | word w h =>
    obtain ⟨t, ht, hdone⟩ := completes_of_finish hexec rfl
    exact ⟨⟨t, ht, .inl ⟨w, hdone, h⟩⟩, fun _ _ => ⟨t, w, ht, hdone⟩⟩
  | overflow hov h =>
    obtain ⟨t, ht, hfaults⟩ := faults_of_finish hexec rfl
    refine ⟨⟨t, ht, .inr (.inl ⟨hfaults, hov, h⟩)⟩, fun _ hno => ?_⟩
    obtain hno | hno := hno
    · simp [hov] at hno
    · exact absurd h hno
  | roundingNecessary hm =>
    obtain ⟨t, ht, hfaults⟩ := faults_of_finish hexec rfl
    exact ⟨⟨t, ht, .inr (.inr ⟨hfaults, hm⟩)⟩, fun hno => absurd hm hno⟩

end Sys2Proof.Machine
end

section
/-! SUPPORT. The values of binary patterns (`46_float.md` R109) and the conversions from them (R113, R114). -/

namespace Sys2Proof.Machine

/-! ### The fields of a pattern -/

/-- R109: the sign a pattern's highest bit gives. -/
def BinaryFormat.signOf (f : BinaryFormat) (w : Nat) : Int :=
  signStep (decide (w / 2 ^ (f.fracBits + f.expBits) % 2 = 1))

/-- R109: a pattern's biased exponent. -/
def BinaryFormat.exponentOf (f : BinaryFormat) (w : Nat) : Nat := w / 2 ^ f.fracBits % 2 ^ f.expBits

/-- R109: a pattern's fraction. -/
def BinaryFormat.fractionOf (f : BinaryFormat) (w : Nat) : Nat := w % 2 ^ f.fracBits

section
variable {f : BinaryFormat} {w : Nat}

/-- R109: all exponent bits 1: an infinity or a NaN. -/
theorem value_eq_none (h : f.exponentOf w = 2 ^ f.expBits - 1) : f.value w = none := if_pos h

/-- The significand with its sign, as the machine forms it. -/
theorem signed_eq (m : Nat) :
    (if w / 2 ^ (f.fracBits + f.expBits) % 2 = 1 then -(m : Int) else m) = f.signOf w * m := by
  unfold BinaryFormat.signOf
  split <;> rename_i h <;> simp [h]

/-- R109: exponent 0: zero or a subnormal. -/
theorem value_of_exponent_zero (hspecial : 0 ≠ 2 ^ f.expBits - 1) (h : f.exponentOf w = 0) :
    f.value w = some (.scale2 (f.signOf w * f.fractionOf w) (1 - f.bias - f.fracBits)) := by
  have hfield : w / 2 ^ f.fracBits % 2 ^ f.expBits = 0 := h
  simp only [BinaryFormat.value, hfield, if_neg hspecial, if_true]
  rw [signed_eq, BinaryFormat.fractionOf]

/-- R109: every other exponent: a normal number. -/
theorem value_of_normal (hspecial : f.exponentOf w ≠ 2 ^ f.expBits - 1) (h : f.exponentOf w ≠ 0) :
    f.value w = some (.scale2 (f.signOf w * (2 ^ f.fracBits + f.fractionOf w : Nat))
      (f.exponentOf w - f.bias - f.fracBits)) := by
  simp only [BinaryFormat.value, ← BinaryFormat.exponentOf.eq_1, if_neg hspecial, if_neg h]
  rw [← signed_eq, BinaryFormat.fractionOf]

/-- R109: a pattern with a value: a significand of `fracBits + 1` bits at most, times a power of two. -/
theorem value_eq_some {d : Ratio} (h : f.value w = some d) :
    0 < d.den ∧ ∃ (m : Nat) (k : Int), m < 2 ^ (f.fracBits + 1) ∧ d.toRat = f.signOf w * m * (2 : ℚ) ^ k := by
  have hfrac : f.fractionOf w < 2 ^ f.fracBits := Nat.mod_lt _ (Nat.two_pow_pos _)
  have hpow : 2 ^ (f.fracBits + 1) = 2 ^ f.fracBits + 2 ^ f.fracBits := by rw [pow_succ]; ring
  by_cases hspecial : f.exponentOf w = 2 ^ f.expBits - 1
  · rw [value_eq_none hspecial] at h
    cases h
  · by_cases hzero : f.exponentOf w = 0
    · rw [value_of_exponent_zero (hzero ▸ hspecial) hzero] at h
      cases h
      refine ⟨den_scale2_pos _ _, f.fractionOf w, 1 - f.bias - f.fracBits, by omega, ?_⟩
      rw [toRat_scale2, Int.cast_mul, Int.cast_natCast]
    · rw [value_of_normal hspecial hzero] at h
      cases h
      refine ⟨den_scale2_pos _ _, 2 ^ f.fracBits + f.fractionOf w, f.exponentOf w - f.bias - f.fracBits, by omega, ?_⟩
      rw [toRat_scale2, Int.cast_mul, Int.cast_natCast]

end

/-! ### The fields of a word -/

theorem getLsbD_eq_decide {n : Nat} (w : BitVec n) (k : Nat) : w.getLsbD k = decide (w.toNat / 2 ^ k % 2 = 1) := by
  rw [BitVec.getLsbD, Nat.testBit_eq_decide_div_mod_eq]

theorem toNat_extractLsb' {n : Nat} (w : BitVec n) (k l : Nat) :
    (w.extractLsb' k l).toNat = w.toNat / 2 ^ k % 2 ^ l := by
  rw [BitVec.extractLsb'_toNat, Nat.shiftRight_eq_div_pow]

/-- R109: the value of a pattern of the format, given its fields; `top` is the exponent of infinities and NaNs. -/
theorem value_of_fields {f : BinaryFormat} {w x fr top : Nat} {sg : ℚ} {low bias : Int} (hx : x = f.exponentOf w)
    (hfr : fr = f.fractionOf w) (hsg : sg = f.signOf w) (htop : 2 ^ f.expBits - 1 = top) (hpos : top ≠ 0)
    (hlow : 1 - f.bias - f.fracBits = low) (hbias : (f.bias : Int) + f.fracBits = bias) :
    (x = top → f.value w = none) ∧
      (x = 0 → ∃ d, f.value w = some d ∧ d.den ≠ 0 ∧ (d.num : ℚ) / d.den = sg * fr * (2 : ℚ) ^ low) ∧
      (0 < x → x < top → ∃ d, f.value w = some d ∧ d.den ≠ 0 ∧
        (d.num : ℚ) / d.den = sg * (2 ^ f.fracBits + fr) * (2 : ℚ) ^ ((x : Int) - bias)) := by
  subst hx hfr hsg htop hlow hbias
  refine ⟨value_eq_none, fun h => ?_, fun h0 htop => ?_⟩
  · refine ⟨_, value_of_exponent_zero hpos.symm h, (den_scale2_pos _ _).ne', ?_⟩
    rw [← Ratio.toRat, toRat_scale2, Int.cast_mul, Int.cast_natCast]
  · refine ⟨_, value_of_normal htop.ne h0.ne', (den_scale2_pos _ _).ne', ?_⟩
    rw [← Ratio.toRat, toRat_scale2, Int.cast_mul, Int.cast_natCast, Nat.cast_add, Nat.cast_pow, Nat.cast_ofNat, sub_sub]

/-- Settles O55: the fields of the word are those the machine reads (`value_of_fields`). -/
theorem patternValuesFollowIeee : Obligations.PatternValuesFollowIeee := by
  have hsign {n : Nat} (w : BitVec n) (k : Nat) :
      (if w.getLsbD k then -1 else 1 : ℚ) = (signStep (decide (w.toNat / 2 ^ k % 2 = 1)) : Int) := by
    rw [getLsbD_eq_decide]
    cases decide (w.toNat / 2 ^ k % 2 = 1) <;> simp
  refine ⟨fun w x fr sg hx hfr hsg => ?_, fun w x fr sg hx hfr hsg => ?_⟩
  · rw [toNat_extractLsb'] at hx hfr
    rw [pow_zero, Nat.div_one] at hfr
    rw [hsign] at hsg
    exact value_of_fields (f := binary64) hx hfr hsg rfl (by decide) rfl rfl
  · rw [toNat_extractLsb'] at hx hfr
    rw [pow_zero, Nat.div_one] at hfr
    rw [hsign] at hsg
    exact value_of_fields (f := binary32) hx hfr hsg rfl (by decide) rfl rfl

/-! ### From binary to decimal -/

/-- R113, R114: what FROMDBL and FROMFLT end with: the pattern `p` of the format, at the scale `k`. -/
def fromBinaryResult (f : BinaryFormat) (c : OpContext) (p : Nat) : Except EngineFault Word :=
  match f.value p with
  | none => .error .nanOrInfinite
  | some d => decResult c (d.mulInt (10 ^ c.sc)) .checked

section
variable (s : State) (rd rs1 : Reg) (rm : RoundingMode) {sc : ScaleField} (h : sc.val ≤ 18)
include h

theorem exec_fromdbl : exec (.fromdbl rd rs1 rm sc) s =
    finish (.fromdbl rd rs1 rm sc) rd
      (fromBinaryResult binary64 ⟨(Instr.fromdbl rd rs1 rm sc).opcode, [s.reg rs1], sc.val, rm⟩ (s.reg rs1).toNat)
      ([rs1].foldl State.noteRead s) := by
  simp only [exec, execFromdbl, withScale_legal _ _ _ _ h, readX_eq, fromBinaryResult]
  cases binary64.value (s.reg rs1).toNat <;> rfl

theorem exec_fromflt : exec (.fromflt rd rs1 rm sc) s =
    finish (.fromflt rd rs1 rm sc) rd
      (fromBinaryResult binary32
        ⟨(Instr.fromflt rd rs1 rm sc).opcode, [((s.reg rs1).extractLsb' 0 32).setWidth 64], sc.val, rm⟩
        ((s.reg rs1).extractLsb' 0 32).toNat)
      ([rs1].foldl State.noteRead s) := by
  simp only [exec, execFromflt, withScale_legal _ _ _ _ h, readX_eq, fromBinaryResult]
  cases binary32.value ((s.reg rs1).extractLsb' 0 32).toNat <;> rfl

end

section
variable {i : Instr} {rd : Reg} {srcs : List Reg} {s : State} {f : BinaryFormat} {operands : List Word} {k p : Nat}
  {rm : RoundingMode}
  (hexec : exec i s = finish i rd (fromBinaryResult f ⟨i.opcode, operands, k, rm⟩ p) (srcs.foldl State.noteRead s))
include hexec

theorem rounds_of_fromBinaryResult {d : Ratio} (hd : f.value p = some d) :
    RoundsAndCompletes i rd srcs ((d.num : ℚ) / d.den * 10 ^ k) rm s ∧
      RoundsOrFaultsChecked i srcs ((d.num : ℚ) / d.den * 10 ^ k) rm s := by
  obtain ⟨hden, -⟩ := value_eq_some hd
  have hround : exec i s = finishRounded i rd operands k rm .checked (d.mulInt (10 ^ k))
      (srcs.foldl State.noteRead s) := by
    rw [hexec, fromBinaryResult, hd]
    rfl
  have hvalue : (d.num : ℚ) / d.den * 10 ^ k = (d.mulInt (10 ^ k)).toRat := by
    rw [toRat_mulInt, Ratio.toRat]
    norm_cast
  rw [hvalue]
  exact ⟨roundsAndCompletes_of_finishRounded hround hden, roundsOrFaultsChecked_of_finishRounded hround hden⟩

theorem faults_of_fromBinaryResult (hspecial : f.exponentOf p = 2 ^ f.expBits - 1) :
    ∃ t, exec i s = .next t ∧ Faults (encode i) 2 8 s.status.v srcs s t := by
  refine faults_of_finish (e := .nanOrInfinite) hexec ?_
  rw [fromBinaryResult, value_eq_none hspecial]

end

/-- One result ends two runs of a command alike. -/
theorem ends_alike {i : Instr} {rd : Reg} {srcs : List Reg} {s s' : State} {r : Except EngineFault Word}
    (hs : exec i s = finish i rd r (srcs.foldl State.noteRead s))
    (hs' : exec i s' = finish i rd r (srcs.foldl State.noteRead s')) :
    ∃ t t', exec i s = .next t ∧ exec i s' = .next t' ∧
      ((∃ w, Completes rd w srcs s t ∧ Completes rd w srcs s' t') ∨
        ∃ err sub, Faults (encode i) err sub s.status.v srcs s t ∧
          Faults (encode i) err sub s'.status.v srcs s' t') := by
  cases r with
  | ok w =>
    obtain ⟨t, ht, hdone⟩ := completes_of_finish hs rfl
    obtain ⟨t', ht', hdone'⟩ := completes_of_finish hs' rfl
    exact ⟨t, t', ht, ht', .inl ⟨w, hdone, hdone'⟩⟩
  | error e =>
    obtain ⟨t, ht, hfaults⟩ := faults_of_finish hs rfl
    obtain ⟨t', ht', hfaults'⟩ := faults_of_finish hs' rfl
    exact ⟨t, t', ht, ht', .inr ⟨e.err, e.sub, hfaults, hfaults'⟩⟩

/-- Settles O57: both end with `fromBinaryResult` of the pattern, FROMFLT's being bits 31:0 alone. -/
theorem binaryToDecimalRoundsOnce : Obligations.BinaryToDecimalRoundsOnce := by
  intro s rd rs1 rm sc hsc
  have hdbl := exec_fromdbl s rd rs1 rm hsc
  have hflt := exec_fromflt s rd rs1 rm hsc
  refine ⟨fun d => rounds_of_fromBinaryResult hdbl, fun d hd => rounds_of_fromBinaryResult hflt ?_,
    fun h => faults_of_fromBinaryResult hdbl ?_, fun h => faults_of_fromBinaryResult hflt ?_, fun s' hs' => ?_⟩
  · rwa [toNat_extractLsb', pow_zero, Nat.div_one]
  · rw [← BitVec.toNat_inj, toNat_extractLsb'] at h
    exact h
  · rw [← BitVec.toNat_inj, toNat_extractLsb'] at h
    have hlow : (s.reg rs1).toNat % 2 ^ 32 / 2 ^ 23 % 2 ^ 8 = 255 := by
      have hfield : (s.reg rs1).toNat / 2 ^ 23 % 2 ^ 8 = 255 := h
      omega
    rw [toNat_extractLsb', pow_zero, Nat.div_one]
    exact hlow
  · have hflt' := exec_fromflt s' rd rs1 rm hsc
    rw [hs'] at hflt'
    exact ends_alike hflt hflt'

end Sys2Proof.Machine
end

section
/-! SUPPORT. The conversions to binary patterns (`46_float.md` R110 to R112): the significand with its sign, rounded, packed
into a pattern whose value it is. -/

namespace Sys2Proof.Machine

/-! ### The binary exponent -/

/-- R110: the machine's comparison with a power of two, as rationals. -/
theorem atLeastPow2_iff {num den : Nat} (hden : 0 < den) (e : Int) :
    atLeastPow2 num den e = true ↔ (2 : ℚ) ^ e ≤ (num : ℚ) / den := by
  have hden' : (0 : ℚ) < den := by exact_mod_cast hden
  rw [le_div_iff₀ hden', atLeastPow2]
  by_cases h : 0 ≤ e
  · rw [if_pos h, decide_eq_true_iff]
    lift e to ℕ using h
    rw [Int.toNat_natCast, zpow_natCast, mul_comm]
    exact_mod_cast Iff.rfl
  · obtain ⟨k, rfl⟩ : ∃ k : Nat, e = -k := ⟨(-e).toNat, by omega⟩
    rw [if_neg h, decide_eq_true_iff, neg_neg, Int.toNat_natCast, zpow_neg, zpow_natCast,
      inv_mul_le_iff₀ (by positivity), mul_comm num]
    exact_mod_cast Iff.rfl

/-- R110: the binary exponent of a positive rational. -/
theorem binaryExponent_spec {num den : Nat} (hnum : 0 < num) (hden : 0 < den) :
    (2 : ℚ) ^ binaryExponent num den ≤ (num : ℚ) / den ∧ (num : ℚ) / den < 2 ^ (binaryExponent num den + 1) := by
  have hden' : (0 : ℚ) < den := by exact_mod_cast hden
  have hbounds {n : Nat} (hn : 0 < n) : (2 : ℚ) ^ (n.log2 : Int) ≤ n ∧ (n : ℚ) < 2 ^ ((n.log2 : Int) + 1) :=
    ⟨by exact_mod_cast Nat.log2_self_le hn.ne', by exact_mod_cast (Nat.lt_log2_self (n := n))⟩
  obtain ⟨hnlo, hnhi⟩ := hbounds hnum
  obtain ⟨hdlo, hdhi⟩ := hbounds hden
  simp only [binaryExponent]
  split
  case isTrue h =>
    refine ⟨(atLeastPow2_iff hden _).mp h, ?_⟩
    rw [div_lt_iff₀ hden']
    calc (num : ℚ) < 2 ^ ((num.log2 : Int) + 1) := hnhi
      _ = 2 ^ ((num.log2 : Int) - den.log2 + 1) * 2 ^ (den.log2 : Int) := by
        rw [← zpow_add₀ two_ne_zero]
        congr 1
        omega
      _ ≤ 2 ^ ((num.log2 : Int) - den.log2 + 1) * den := by gcongr
  case isFalse h =>
    rw [atLeastPow2_iff hden, not_le] at h
    refine ⟨?_, by rwa [sub_add_cancel]⟩
    rw [le_div_iff₀ hden']
    calc (2 : ℚ) ^ ((num.log2 : Int) - den.log2 - 1) * den
        ≤ 2 ^ ((num.log2 : Int) - den.log2 - 1) * 2 ^ ((den.log2 : Int) + 1) := by gcongr
      _ = 2 ^ (num.log2 : Int) := by
        rw [← zpow_add₀ two_ne_zero]
        congr 1
        omega
      _ ≤ num := hnlo

/-- The binary exponent of a value's magnitude. -/
def Ratio.exponent (v : Ratio) : Int := binaryExponent v.num.natAbs v.den

section
variable {v : Ratio} (hnum : v.num ≠ 0) (hden : 0 < v.den)

theorem Ratio.abs_toRat (v : Ratio) : |v.toRat| = (v.num.natAbs : ℚ) / v.den := by
  rw [Ratio.toRat, abs_div, Nat.abs_cast, Nat.cast_natAbs, Int.cast_abs]

include hnum hden in
theorem Ratio.exponent_spec : (2 : ℚ) ^ v.exponent ≤ |v.toRat| ∧ |v.toRat| < 2 ^ (v.exponent + 1) := by
  rw [Ratio.abs_toRat]
  exact binaryExponent_spec (Int.natAbs_pos.mpr hnum) hden

end

/-! ### The significand -/

section
variable (f : BinaryFormat) {num den : Nat} (e : Int)

theorem significand_num_nonneg : 0 ≤ (significand f num den e).num := by
  simp only [significand]
  split <;> positivity

theorem significand_den_pos (hden : 0 < den) : 0 < (significand f num den e).den := by
  simp only [significand]
  split
  · exact Nat.mul_pos hden (Nat.two_pow_pos _)
  · exact hden

/-- R110: `Y = A / 2^(e - p + 1)`. -/
theorem toRat_significand : (significand f num den e).toRat = (num : ℚ) / den / 2 ^ (e - f.fracBits) := by
  have hk : e - f.precision + 1 = e - f.fracBits := by
    rw [BinaryFormat.precision]
    omega
  simp only [significand, hk]
  split
  · rename_i h
    obtain ⟨k, hk⟩ := Int.eq_ofNat_of_zero_le h
    rw [hk, Int.toNat_natCast, toRat_mk, zpow_natCast, div_div, Int.cast_natCast, Nat.cast_mul, Nat.cast_pow, Nat.cast_ofNat]
  · rename_i h
    obtain ⟨k, hk⟩ : ∃ k : Nat, e - f.fracBits = -k := ⟨(-(e - f.fracBits)).toNat, by omega⟩
    rw [hk, neg_neg, Int.toNat_natCast, toRat_mk, zpow_neg, zpow_natCast, div_inv_eq_mul, div_mul_eq_mul_div,
      Int.cast_mul, Int.cast_natCast, Int.cast_pow, Int.cast_ofNat]

end

/-- The significand with the sign of the value. -/
def signedSignificand (f : BinaryFormat) (v : Ratio) : Ratio :=
  let y := significand f v.num.natAbs v.den v.exponent
  ⟨signStep v.neg * y.num, y.den⟩

theorem cast_eq_signStep_mul {z : Int} {neg : Bool} (h : z = signStep neg * z.natAbs) :
    (z : ℚ) = signStep neg * (z.natAbs : ℚ) := by
  rw [← Int.cast_natCast, ← Int.cast_mul, ← h]

/-- The value in units of the last place of its binade. -/
theorem toRat_signedSignificand (f : BinaryFormat) (v : Ratio) :
    (signedSignificand f v).toRat = v.toRat / 2 ^ (v.exponent - f.fracBits) := by
  have hy := toRat_significand f (num := v.num.natAbs) (den := v.den) v.exponent
  have hnum : (v.num : ℚ) = signStep v.neg * (v.num.natAbs : ℚ) := cast_eq_signStep_mul (num_eq_signStep_mul v)
  rw [signedSignificand, toRat_mk, Int.cast_mul, mul_div_assoc, ← Ratio.toRat, hy, Ratio.toRat, hnum, mul_div_assoc,
    mul_div_assoc]

theorem signedSignificand_den_pos (f : BinaryFormat) {v : Ratio} (hden : 0 < v.den) : 0 < (signedSignificand f v).den :=
  significand_den_pos f _ hden

/-- R85: an increment moves the magnitude by one or not at all. -/
theorem incrementFor_eq_zero_or {m : RoundingMode} {neg odd : Bool} {p : TruncatedPart} {inc : Int}
    (h : incrementFor m neg odd p = .ok inc) : inc = 0 ∨ inc = signStep neg := by
  cases p <;> cases m <;> cases neg <;> cases odd <;> simp_all [incrementFor]

/-- R110: the rounded magnitude, from the increment. -/
def stepped (q : Nat) (inc : Int) : Nat := if inc = 0 then q else q + 1

/-- R84: the part is told by magnitudes alone. -/
theorem classify_natAbs (r d : Int) : classify r d = classify r.natAbs d := by
  simp only [classify, Int.natAbs_natCast, Int.natCast_eq_zero, Int.natAbs_eq_zero]

/-- Rounding a magnitude with its sign: the increment table is asked the same, and the magnitude steps away from zero. -/
theorem round_signed (neg : Bool) {n d : Nat} (hn : 0 < n) (m : RoundingMode) :
    round ⟨signStep neg * n, d⟩ m =
      (incrementFor m neg (decide (n / d % 2 ≠ 0)) (classify (n % d : Nat) d)).map
        fun inc => signStep neg * stepped (n / d) inc := by
  set q : Ratio := ⟨signStep neg * n, d⟩ with hq
  have habs : q.num.natAbs = n := natAbs_signStep_mul neg n
  have hneg : q.neg = neg := by cases neg <;> simp [hq, Ratio.neg, hn]
  have htrunc : q.trunc = signStep neg * (n / d : Nat) := by rw [trunc_eq_signStep_mul, habs, hneg]
  have hodd : decide (q.trunc % 2 ≠ 0) = decide (n / d % 2 ≠ 0) := by
    rw [htrunc, decide_eq_decide]
    cases neg <;> simp only [signStep_true, signStep_false] <;> omega
  have hpart : classify q.rem q.den = classify (n % d : Nat) d := by
    have hrem : q.rem.natAbs = n % d := by rw [natAbs_rem, habs]
    rw [classify_natAbs, hrem]
  rw [round, ← Ratio.neg, hneg, hodd, hpart]
  cases h : incrementFor m neg (decide (n / d % 2 ≠ 0)) (classify (n % d : Nat) d) with
  | error e => rfl
  | ok inc =>
    show Except.ok (q.trunc + inc) = .ok (signStep neg * stepped (n / d) inc)
    rw [htrunc, stepped]
    obtain rfl | rfl := incrementFor_eq_zero_or h
    · simp
    · cases neg
      · simp
      · simp
        ring

/-! ### The pattern -/

/-- R110: the pattern of the rounded magnitude `q` in the binade of exponent `e`, with the carry into the next binade. -/
def BinaryFormat.packed (f : BinaryFormat) (neg : Bool) (e : Int) (q : Nat) : Nat :=
  let carried := q = 2 ^ f.precision
  let e := if carried then e + 1 else e
  let q := if carried then 2 ^ (f.precision - 1) else q
  f.pattern neg (e + f.bias).toNat (q - 2 ^ (f.precision - 1))

theorem packed_of_carry {f : BinaryFormat} (neg : Bool) (e : Int) {q : Nat} (h : q = 2 ^ f.precision) :
    f.packed neg e q = f.pattern neg (e + 1 + f.bias).toNat 0 := by
  simp only [BinaryFormat.packed, if_pos h, Nat.sub_self]

theorem packed_of_ne {f : BinaryFormat} (neg : Bool) (e : Int) {q : Nat} (h : q ≠ 2 ^ f.precision) :
    f.packed neg e q = f.pattern neg (e + f.bias).toNat (q - 2 ^ f.fracBits) := by
  simp only [BinaryFormat.packed, if_neg h]
  rfl

/-- R110: `ToBinary` packs the rounded significand. -/
theorem toBinary_eq (f : BinaryFormat) (m : RoundingMode) {v : Ratio} (hnum : v.num ≠ 0) (hden : 0 < v.den) :
    toBinary f m v =
      (round (signedSignificand f v) m).map fun r => BitVec.ofNat 64 (f.packed v.neg v.exponent r.natAbs) := by
  obtain ⟨n, hn⟩ := Int.eq_ofNat_of_zero_le (significand_num_nonneg f (num := v.num.natAbs) (den := v.den) v.exponent)
  have hpos : 0 < n := by
    have hy := toRat_significand f (num := v.num.natAbs) (den := v.den) v.exponent
    have habs := Int.natAbs_pos.mpr hnum
    have hrat : 0 < (v.num.natAbs : ℚ) / v.den / 2 ^ (v.exponent - f.fracBits) := by positivity
    rw [← hy, Ratio.toRat, hn] at hrat
    by_contra hzero
    simp [Nat.eq_zero_of_not_pos hzero] at hrat
  obtain ⟨d, hd⟩ : ∃ d, (significand f v.num.natAbs v.den v.exponent).den = d := ⟨_, rfl⟩
  have hfloor : (significand f v.num.natAbs v.den v.exponent).floor.toNat = n / d := by
    rw [Ratio.floor, hn, hd]
    exact congrArg Int.toNat (Int.ofNat_fdiv n d).symm
  have hrem : (significand f v.num.natAbs v.den v.exponent).rem = (n % d : Nat) := by
    rw [Ratio.rem, hn, hd]
    exact (Int.ofNat_tmod n d).symm
  simp only [toBinary, signedSignificand, ← Ratio.exponent.eq_1, ← Ratio.neg.eq_1, hfloor, hrem, hn, hd]
  rw [round_signed v.neg hpos]
  cases incrementFor m v.neg (decide (n / d % 2 ≠ 0)) (classify (n % d : Nat) d) with
  | error e => rfl
  | ok inc =>
    simp only [Except.map, natAbs_signStep_mul]
    rfl

/-- R109: a binade of normal numbers, and the next. -/
structure BinaryFormat.NormalExponent (f : BinaryFormat) (e : Int) : Prop where
  low : 0 < e + f.bias
  high : e + f.bias + 2 < 2 ^ f.expBits

section
variable {f : BinaryFormat} {x fr : Nat} (neg : Bool) (hx : x < 2 ^ f.expBits) (hfr : fr < 2 ^ f.fracBits)
include hx hfr

theorem pattern_lt : f.pattern neg x fr < 2 ^ (f.fracBits + f.expBits + 1) := by
  have hbody : x * 2 ^ f.fracBits + fr < 2 ^ (f.fracBits + f.expBits) := by
    rw [pow_add]
    nlinarith
  rw [pow_succ, BinaryFormat.pattern]
  split <;> omega

omit hx in
theorem fractionOf_pattern : f.fractionOf (f.pattern neg x fr) = fr := by
  have hsum : f.pattern neg x fr = fr + 2 ^ f.fracBits * ((if neg then 2 ^ f.expBits else 0) + x) := by
    rw [BinaryFormat.pattern, pow_add]
    split <;> ring
  rw [BinaryFormat.fractionOf, hsum, Nat.add_mul_mod_self_left, Nat.mod_eq_of_lt hfr]

omit hx in
theorem pattern_div : f.pattern neg x fr / 2 ^ f.fracBits = x + 2 ^ f.expBits * (if neg then 1 else 0) := by
  have hsum : f.pattern neg x fr = fr + 2 ^ f.fracBits * (x + 2 ^ f.expBits * (if neg then 1 else 0)) := by
    rw [BinaryFormat.pattern, pow_add]
    split <;> ring
  rw [hsum, Nat.add_mul_div_left _ _ (Nat.two_pow_pos _), Nat.div_eq_of_lt hfr, zero_add]

theorem exponentOf_pattern : f.exponentOf (f.pattern neg x fr) = x := by
  rw [BinaryFormat.exponentOf, pattern_div neg hfr, Nat.add_mul_mod_self_left, Nat.mod_eq_of_lt hx]

theorem signOf_pattern : f.signOf (f.pattern neg x fr) = signStep neg := by
  rw [BinaryFormat.signOf, pow_add, ← Nat.div_div_eq_div_mul, pattern_div neg hfr,
    Nat.add_mul_div_left _ _ (Nat.two_pow_pos _), Nat.div_eq_of_lt hx]
  cases neg <;> rfl

end

/-- R109, R110: a normal pattern has the value it was made for. -/
theorem value_pattern {f : BinaryFormat} {e : Int} {fr : Nat} (neg : Bool) (hlow : 0 < e + f.bias)
    (hhigh : e + f.bias + 1 < 2 ^ f.expBits) (hfr : fr < 2 ^ f.fracBits) :
    f.pattern neg (e + f.bias).toNat fr < 2 ^ (f.fracBits + f.expBits + 1) ∧
      ∃ d, f.value (f.pattern neg (e + f.bias).toNat fr) = some d ∧
        d.toRat = signStep neg * (2 ^ f.fracBits + fr : Nat) * (2 : ℚ) ^ (e - f.fracBits) := by
  have hlt : (e + f.bias).toNat + 1 < 2 ^ f.expBits := by
    zify
    omega
  have hx : (e + f.bias).toNat < 2 ^ f.expBits := by omega
  have hexp := exponentOf_pattern neg hx hfr
  refine ⟨pattern_lt neg hx hfr, _, value_of_normal (by omega) (by omega), ?_⟩
  rw [toRat_scale2, hexp, signOf_pattern neg hx hfr, fractionOf_pattern neg hfr, Int.cast_mul, Int.cast_natCast,
    Int.toNat_of_nonneg hlow.le, add_sub_cancel_right]

/-- R110: the packed pattern has the rounded magnitude as its value, the carry into the next binade included. -/
theorem value_packed {f : BinaryFormat} {e : Int} {q : Nat} (neg : Bool) (he : f.NormalExponent e)
    (hlow : 2 ^ f.fracBits ≤ q) (hhigh : q ≤ 2 ^ (f.fracBits + 1)) :
    f.packed neg e q < 2 ^ (f.fracBits + f.expBits + 1) ∧
      ∃ d, f.value (f.packed neg e q) = some d ∧ d.toRat = signStep neg * q * (2 : ℚ) ^ (e - f.fracBits) := by
  obtain ⟨helow, hehigh⟩ := he
  have hpow : 2 ^ (f.fracBits + 1) = 2 ^ f.fracBits + 2 ^ f.fracBits := by ring
  by_cases hcarry : q = 2 ^ f.precision
  · rw [packed_of_carry neg e hcarry]
    obtain ⟨hlt, d, hd, hvalue⟩ := value_pattern (f := f) (e := e + 1) neg (by omega) (by omega) (Nat.two_pow_pos _)
    refine ⟨hlt, d, hd, ?_⟩
    rw [hvalue, hcarry, BinaryFormat.precision, add_zero, add_sub_right_comm, zpow_add₀ two_ne_zero]
    push_cast
    ring
  · have hne : q ≠ 2 ^ (f.fracBits + 1) := hcarry
    rw [packed_of_ne neg e hcarry]
    obtain ⟨hlt, d, hd, hvalue⟩ := value_pattern (f := f) (e := e) (fr := q - 2 ^ f.fracBits) neg helow (by omega)
      (by omega)
    refine ⟨hlt, d, hd, ?_⟩
    rw [hvalue, Nat.add_sub_cancel' hlow]

/-! ### The conversion -/

/-- R110: a significand rounds to a magnitude of `p` bits, or to the least of `p + 1`. -/
theorem rounded_eq_signStep_mul {y : ℚ} {lo hi : Nat} {m : RoundingMode} {r : Int} (hlo : (lo : ℚ) ≤ |y|) (hhi : |y| ≤ hi)
    (h : RoundsTo y m r) : r = signStep (decide (y < 0)) * r.natAbs ∧ lo ≤ r.natAbs ∧ r.natAbs ≤ hi := by
  by_cases hy : y < 0
  · rw [abs_of_neg hy] at hlo hhi
    have hle : r ≤ -(lo : Int) := ge_of_roundsTo h (by push_cast; linarith)
    have hge : -(hi : Int) ≤ r := le_of_roundsTo h (by push_cast; linarith)
    rw [decide_eq_true hy, signStep_true]
    omega
  · rw [abs_of_nonneg (not_lt.mp hy)] at hlo hhi
    have hle : (lo : Int) ≤ r := le_of_roundsTo h (by push_cast; linarith)
    have hge : r ≤ (hi : Int) := ge_of_roundsTo h (by push_cast; linarith)
    rw [decide_eq_false hy, signStep_false]
    omega

section
variable {f : BinaryFormat} {v : Ratio} (hnum : v.num ≠ 0) (hden : 0 < v.den)
include hnum hden

/-- R110: the significand's magnitude lies in `[2^(p-1), 2^p)`. -/
theorem abs_significand_bounds :
    ((2 ^ f.fracBits : Nat) : ℚ) ≤ |v.toRat / 2 ^ (v.exponent - f.fracBits)| ∧
      |v.toRat / 2 ^ (v.exponent - f.fracBits)| ≤ ((2 ^ (f.fracBits + 1) : Nat) : ℚ) := by
  have hpos : (0 : ℚ) < 2 ^ (v.exponent - f.fracBits) := by positivity
  have hsplit (k : Nat) : ((2 ^ (f.fracBits + k) : Nat) : ℚ) * 2 ^ (v.exponent - f.fracBits) = 2 ^ (v.exponent + k) := by
    rw [Nat.cast_pow, Nat.cast_ofNat, ← zpow_natCast, ← zpow_add₀ two_ne_zero]
    congr 1
    push_cast
    ring
  have h0 := hsplit 0
  have h1 := hsplit 1
  obtain ⟨hlo, hhi⟩ := Ratio.exponent_spec hnum hden
  rw [abs_div, abs_of_pos hpos, le_div_iff₀ hpos, div_le_iff₀ hpos]
  rw [add_zero, Nat.cast_zero, add_zero] at h0
  rw [Nat.cast_one] at h1
  exact ⟨h0.trans_le hlo, h1 ▸ hhi.le⟩

/-- R110: where the value in units of its last place rounds, the pattern of the rounded value is formed. -/
theorem toBinary_of_roundsTo {m : RoundingMode} {r : Int} (he : f.NormalExponent v.exponent)
    (hwidth : f.fracBits + f.expBits + 1 ≤ 64) (h : RoundsTo (v.toRat / 2 ^ (v.exponent - f.fracBits)) m r) :
    ∃ w, toBinary f m v = .ok w ∧ w.toNat < 2 ^ (f.fracBits + f.expBits + 1) ∧ IsRoundedBinary f v.toRat m w := by
  have hround : round (signedSignificand f v) m = .ok r := by
    rw [← toRat_signedSignificand] at h
    exact round_of_roundsTo (signedSignificand_den_pos f hden) h
  obtain ⟨hlo, hhi⟩ := abs_significand_bounds (f := f) hnum hden
  obtain ⟨hsign, hqlo, hqhi⟩ := rounded_eq_signStep_mul hlo hhi h
  have hneg : decide (v.toRat / 2 ^ (v.exponent - f.fracBits) < 0) = v.neg := by
    have hden' : (0 : ℚ) < v.den := by exact_mod_cast hden
    rw [Ratio.neg, decide_eq_decide, div_lt_iff₀ (by positivity), zero_mul, Ratio.toRat, div_lt_iff₀ hden', zero_mul]
    norm_cast
  rw [hneg] at hsign
  obtain ⟨hlt, d, hd, hvalue⟩ := value_packed v.neg he hqlo hqhi
  have htoNat : (BitVec.ofNat 64 (f.packed v.neg v.exponent r.natAbs)).toNat = f.packed v.neg v.exponent r.natAbs :=
    Nat.mod_eq_of_lt (hlt.trans_le (Nat.pow_le_pow_right two_pos hwidth))
  obtain ⟨helo, hehi⟩ := Ratio.exponent_spec hnum hden
  refine ⟨BitVec.ofNat 64 (f.packed v.neg v.exponent r.natAbs), ?_, by rwa [htoNat], d, v.exponent, r, by rwa [htoNat],
    helo, hehi, h, ?_⟩
  · rw [toBinary_eq f m hnum hden, hround]
    rfl
  · have hr : (r : ℚ) = signStep v.neg * (r.natAbs : ℚ) := cast_eq_signStep_mul hsign
    rw [hr, ← Ratio.toRat, hvalue]

/-- R110: a value the format does not hold faults under UNNECESSARY. -/
theorem toBinary_unnecessary (h : ¬ ∃ r : Int, (r : ℚ) = v.toRat / 2 ^ (v.exponent - f.fracBits)) :
    toBinary f .unnecessary v = .error .roundingNecessary := by
  have hint : ¬ (signedSignificand f v).isInt := by
    rw [isInt_iff_exists (signedSignificand_den_pos f hden), toRat_signedSignificand]
    exact h
  rw [toBinary_eq f _ hnum hden, round_unnecessary_of_not_isInt hint]
  rfl

/-- R109, R110: a value the format holds is a whole number of units of its last place. -/
theorem exists_int_of_representable (h : Representable f v.toRat) :
    ∃ r : Int, (r : ℚ) = v.toRat / 2 ^ (v.exponent - f.fracBits) := by
  obtain ⟨w, d, hd, hvalue⟩ := h
  obtain ⟨-, m, k, hm, hform⟩ := value_eq_some hd
  rw [Ratio.toRat, hvalue] at hform
  have hsign : |((f.signOf w : Int) : ℚ)| = 1 := by
    rw [BinaryFormat.signOf]
    cases decide (w / 2 ^ (f.fracBits + f.expBits) % 2 = 1) <;> simp
  obtain ⟨hlo, -⟩ := Ratio.exponent_spec hnum hden
  have hlt : (2 : ℚ) ^ v.exponent < 2 ^ ((f.fracBits : Int) + 1 + k) := by
    calc (2 : ℚ) ^ v.exponent ≤ |v.toRat| := hlo
      _ = m * 2 ^ k := by
        rw [hform, abs_mul, abs_mul, hsign, one_mul, Nat.abs_cast, abs_of_pos (a := (2 : ℚ) ^ k) (by positivity)]
      _ < 2 ^ ((f.fracBits : Int) + 1) * 2 ^ k := by
        gcongr
        exact_mod_cast hm
      _ = 2 ^ ((f.fracBits : Int) + 1 + k) := (zpow_add₀ two_ne_zero _ _).symm
  have hexp : v.exponent < f.fracBits + 1 + k := (zpow_lt_zpow_iff_right₀ one_lt_two).mp hlt
  obtain ⟨j, hj⟩ := Int.eq_ofNat_of_zero_le (show 0 ≤ k - (v.exponent - f.fracBits) by omega)
  refine ⟨f.signOf w * m * 2 ^ j, ?_⟩
  rw [hform, mul_div_assoc, ← zpow_sub₀ two_ne_zero, hj]
  push_cast
  rw [zpow_natCast]

/-- R110: in units of its last place a value rounds, under UNNECESSARY where the format holds it. -/
theorem exists_roundsTo_units {m : RoundingMode} (h : m ≠ .unnecessary ∨ Representable f v.toRat) :
    ∃ r, RoundsTo (v.toRat / 2 ^ (v.exponent - f.fracBits)) m r := by
  by_cases hun : m = .unnecessary
  · subst hun
    exact exists_int_of_representable hnum hden (h.resolve_left fun h => h rfl)
  · exact exists_roundsTo _ hun

end

/-- R110: a value rounded without loss is one the format holds. -/
theorem representable_of_isRoundedBinary {f : BinaryFormat} {v : ℚ} {w : Word} (h : IsRoundedBinary f v .unnecessary w) :
    Representable f v := by
  obtain ⟨d, e, r, hd, -, -, hr, hvalue⟩ := h
  have hr : (r : ℚ) = v / 2 ^ (e - f.fracBits) := hr
  refine ⟨_, d, hd, ?_⟩
  rw [hvalue, hr, div_mul_cancel₀ _ (by positivity)]

/-! ### The commands -/

/-- R111: the value of a word at a legal scale has an exponent well inside both formats. -/
theorem exponent_bounds (a : Word) (ha : a.toInt ≠ 0) {k : Nat} (hk : k ≤ 18) :
    -60 ≤ (Ratio.mk a.toInt (10 ^ k)).exponent ∧ (Ratio.mk a.toInt (10 ^ k)).exponent ≤ 63 := by
  obtain ⟨hlo, hhi⟩ := Ratio.exponent_spec (v := ⟨a.toInt, 10 ^ k⟩) ha (by positivity)
  have hpow : (1 : ℚ) ≤ 10 ^ k ∧ (10 : ℚ) ^ k < 2 ^ 60 := by
    refine ⟨one_le_pow₀ (by norm_num), ?_⟩
    calc (10 : ℚ) ^ k ≤ 10 ^ 18 := pow_le_pow_right₀ (by norm_num) hk
      _ < 2 ^ 60 := by norm_num
  have habs : |(Ratio.mk a.toInt (10 ^ k)).toRat| = |(a.toInt : ℚ)| / 10 ^ k := by
    rw [toRat_mk, Nat.cast_pow, Nat.cast_ofNat, abs_div, abs_of_pos (a := (10 : ℚ) ^ k) (by positivity)]
  rw [habs] at hlo hhi
  constructor
  · have hone : (1 : ℚ) ≤ |(a.toInt : ℚ)| := by exact_mod_cast Int.one_le_abs ha
    have hlt : (2 : ℚ) ^ (-60 : Int) < 2 ^ ((Ratio.mk a.toInt (10 ^ k)).exponent + 1) := by
      refine lt_trans ?_ hhi
      rw [lt_div_iff₀ (by positivity), zpow_neg]
      calc ((2 : ℚ) ^ (60 : Int))⁻¹ * 10 ^ k < ((2 : ℚ) ^ (60 : Int))⁻¹ * 2 ^ 60 := by gcongr; exact hpow.2
        _ = 1 := by norm_num
        _ ≤ |(a.toInt : ℚ)| := hone
    have hexp := (zpow_lt_zpow_iff_right₀ (one_lt_two (α := ℚ))).mp hlt
    omega
  · have hle : (2 : ℚ) ^ (Ratio.mk a.toInt (10 ^ k)).exponent ≤ 2 ^ (63 : Int) := by
      calc (2 : ℚ) ^ (Ratio.mk a.toInt (10 ^ k)).exponent ≤ |(a.toInt : ℚ)| / 10 ^ k := hlo
        _ ≤ |(a.toInt : ℚ)| := div_le_self (abs_nonneg _) hpow.1
        _ ≤ 2 ^ (63 : Int) := by exact_mod_cast abs_toInt_le a
    exact (zpow_le_zpow_iff_right₀ one_lt_two).mp hle

section
variable (s : State) (rd rs1 : Reg) (rm : RoundingMode) {sc : ScaleField} (h : sc.val ≤ 18)
include h

theorem exec_todbl : exec (.todbl rd rs1 rm sc) s =
    finish (.todbl rd rs1 rm sc) rd (toBinaryResult binary64 rm (s.reg rs1).toInt sc.val)
      ([rs1].foldl State.noteRead s) := by
  simp only [exec, execTodbl, withScale_legal _ _ _ _ h, readX_eq, List.foldl_cons, List.foldl_nil]

theorem exec_toflt : exec (.toflt rd rs1 rm sc) s =
    finish (.toflt rd rs1 rm sc) rd (toBinaryResult binary32 rm (s.reg rs1).toInt sc.val)
      ([rs1].foldl State.noteRead s) := by
  simp only [exec, execToflt, withScale_legal _ _ _ _ h, readX_eq, List.foldl_cons, List.foldl_nil]

end

section
variable {i : Instr} {rd rs1 : Reg} {s : State} {f : BinaryFormat} {rm : RoundingMode} {k : Nat}
  (hexec : exec i s = finish i rd (toBinaryResult f rm (s.reg rs1).toInt k) ([rs1].foldl State.noteRead s))
include hexec

/-- R111, R112: zero gives +0.0. -/
theorem completes_zero_of_toBinary (h : s.reg rs1 = 0) : ∃ t, exec i s = .next t ∧ Completes rd 0 [rs1] s t :=
  completes_of_finish hexec (if_pos ((toInt_eq_zero_iff _).mpr h))

variable (hk : k ≤ 18) (hwidth : f.fracBits + f.expBits + 1 ≤ 64) (he : ∀ e : Int, -60 ≤ e → e ≤ 63 → f.NormalExponent e)
include hk hwidth he

theorem completes_of_toBinary (ha : s.reg rs1 ≠ 0)
    (hrm : rm ≠ .unnecessary ∨ Representable f (((s.reg rs1).toInt : ℚ) / 10 ^ k)) :
    ∃ t w, exec i s = .next t ∧ Completes rd w [rs1] s t ∧ w.toNat < 2 ^ (f.fracBits + f.expBits + 1) ∧
      IsRoundedBinary f (((s.reg rs1).toInt : ℚ) / 10 ^ k) rm w := by
  have hnum : (s.reg rs1).toInt ≠ 0 := mt (toInt_eq_zero_iff _).mp ha
  obtain ⟨hlo, hhi⟩ := exponent_bounds (s.reg rs1) hnum hk
  have hvalue : ((s.reg rs1).toInt : ℚ) / 10 ^ k = (Ratio.mk (s.reg rs1).toInt (10 ^ k)).toRat := by
    rw [toRat_mk, Nat.cast_pow, Nat.cast_ofNat]
  rw [hvalue] at hrm ⊢
  have hden : 0 < (Ratio.mk (s.reg rs1).toInt (10 ^ k)).den := by positivity
  obtain ⟨r, hr⟩ := exists_roundsTo_units hnum hden hrm
  obtain ⟨w, hw, hlt, hrounded⟩ := toBinary_of_roundsTo hnum hden (he _ hlo hhi) hwidth hr
  obtain ⟨t, ht, hdone⟩ := completes_of_finish (w := w) hexec (by rw [toBinaryResult, if_neg hnum, hw])
  exact ⟨t, w, ht, hdone, hlt, hrounded⟩

theorem faults_of_toBinary (hrm : rm = .unnecessary)
    (hrep : ¬ Representable f (((s.reg rs1).toInt : ℚ) / 10 ^ k)) (hzero : Representable f 0) :
    ∃ t, exec i s = .next t ∧ Faults (encode i) 4 0 s.status.v [rs1] s t := by
  subst hrm
  have hnum : (s.reg rs1).toInt ≠ 0 := by
    intro h
    rw [h, Int.cast_zero, zero_div] at hrep
    exact hrep hzero
  obtain ⟨hlo, hhi⟩ := exponent_bounds (s.reg rs1) hnum hk
  have hvalue : ((s.reg rs1).toInt : ℚ) / 10 ^ k = (Ratio.mk (s.reg rs1).toInt (10 ^ k)).toRat := by
    rw [toRat_mk, Nat.cast_pow, Nat.cast_ofNat]
  rw [hvalue] at hrep
  refine faults_of_finish (e := .roundingNecessary) hexec ?_
  rw [toBinaryResult, if_neg hnum]
  refine toBinary_unnecessary hnum (by positivity) fun ⟨r, hr⟩ => hrep ?_
  obtain ⟨w, -, -, hrounded⟩ := toBinary_of_roundsTo (m := .unnecessary) hnum (by positivity) (he _ hlo hhi) hwidth hr
  exact representable_of_isRoundedBinary hrounded

end

/-- R109: every format with an exponent holds zero. -/
theorem representable_zero {f : BinaryFormat} (h : 0 ≠ 2 ^ f.expBits - 1) : Representable f 0 := by
  have hexp : f.exponentOf 0 = 0 := by rw [BinaryFormat.exponentOf, Nat.zero_div, Nat.zero_mod]
  refine ⟨0, _, value_of_exponent_zero h hexp, ?_⟩
  rw [← Ratio.toRat, toRat_scale2, BinaryFormat.fractionOf, Nat.zero_mod, Nat.cast_zero, mul_zero, Int.cast_zero, zero_mul]

/-- Settles O56: both commands end with `toBinaryResult`, which packs the rounded significand (`toBinary_of_roundsTo`);
under UNNECESSARY the values the format holds are the whole significands (`exists_int_of_representable`). -/
theorem decimalToBinaryIsCorrectlyRounded : Obligations.DecimalToBinaryIsCorrectlyRounded := by
  intro s rd rs1 rm sc v hsc hv
  subst hv
  have hdbl := exec_todbl s rd rs1 rm hsc
  have hflt := exec_toflt s rd rs1 rm hsc
  have he64 (e : Int) (hlo : -60 ≤ e) (hhi : e ≤ 63) : binary64.NormalExponent e := by
    constructor <;> simp only [binary64, BinaryFormat.bias] <;> norm_num <;> omega
  have he32 (e : Int) (hlo : -60 ≤ e) (hhi : e ≤ 63) : binary32.NormalExponent e := by
    constructor <;> simp only [binary32, BinaryFormat.bias] <;> norm_num <;> omega
  have hw64 : binary64.fracBits + binary64.expBits + 1 ≤ 64 := by decide
  have hw32 : binary32.fracBits + binary32.expBits + 1 ≤ 64 := by decide
  refine ⟨fun h => ⟨completes_zero_of_toBinary hdbl h, completes_zero_of_toBinary hflt h⟩, fun ha hrm => ?_, fun ha hrm => ?_,
    fun hrm hrep => ?_, fun hrm hrep => ?_⟩
  · obtain ⟨t, w, ht, hdone, -, hrounded⟩ := completes_of_toBinary hdbl hsc hw64 he64 ha hrm
    exact ⟨t, w, ht, hdone, hrounded⟩
  · exact completes_of_toBinary hflt hsc hw32 he32 ha hrm
  · exact faults_of_toBinary hdbl hsc hw64 he64 hrm hrep (representable_zero (by decide))
  · exact faults_of_toBinary hflt hsc hw32 he32 hrm hrep (representable_zero (by decide))

end Sys2Proof.Machine
end
